-- ==== Sys2Proof/Word.lean ====
section
/-! DEFINITION. The word types of the block and the fixed-size table that its internal arrays are held in. -/

namespace Sys2Proof

/-- One byte: a Symbol, a buffer byte (00_scope.md R16). -/
abbrev Byte := BitVec 8

/-- One 32-bit register or bus word (10_state.md R34, 20_memory.md R102). -/
abbrev Word := BitVec 32

/-- An array of exactly `n` entries, held as a list so that two arrays compare entry by entry. FREQ, CODE, ENODE
and DNODE are such arrays (10_state.md R33). -/
structure Table (α : Type) (n : Nat) where
  entries : List α
  size_eq : entries.length = n
deriving DecidableEq, Repr

/-- The table with `v` in every entry. -/
def Table.fill {α : Type} (n : Nat) (v : α) : Table α n := ⟨List.replicate n v, List.length_replicate⟩

/-- The table whose entry `i` is `f i`. -/
def Table.tabulate {α : Type} (n : Nat) (f : Nat → α) : Table α n := ⟨(List.range n).map f, by simp⟩

/-- Entry `i`; `d` past the end (no rule reads there, log entry 12). -/
def Table.get {α : Type} {n : Nat} (t : Table α n) (i : Nat) (d : α) : α := t.entries.getD i d

/-- The table with entry `i` replaced by `v` (unchanged when `i` is past the end). -/
def Table.set {α : Type} {n : Nat} (t : Table α n) (i : Nat) (v : α) : Table α n :=
  ⟨t.entries.set i v, by rw [List.length_set, t.size_eq]⟩

end Sys2Proof
end

