-- ==== Sys2Proof/Config.lean ====
section
/-! DEFINITION. What an instance of the block fixes (00_scope.md R10) and the free values the spec leaves without a law
(93_implementation_defined.md section 2). -/

namespace Sys2Proof

/-- The OPEN parameters of an instance: the buffer capacities and the base address (00_scope.md R10, decisions D3, D4).
LATENCY is the place of the core's turn in the agenda (log entries 3 and 15). -/
structure Config where
  /-- IBUF_BYTES, the capacity of the input buffer. -/
  ibufBytes : Nat
  /-- OBUF_BYTES, the capacity of the output buffer. -/
  obufBytes : Nat
  /-- BASE, the address at which the platform places the block. No rule depends on it: every offset is relative to it
  (93_implementation_defined.md section 2). -/
  base : Nat
deriving DecidableEq, Repr

/-- The default instance: both capacities 65536 (00_scope.md R10). The spec gives BASE no default; it is 0 here
(DESIGN CHOICE, unsafe, log entry 2). -/
def Config.default : Config := ⟨65536, 65536, 0⟩

/-- The bound 2^20 on both capacities (00_scope.md R10). -/
abbrev Config.maxBytes : Nat := 1048576

/-- NSYM, the number of Symbols (00_scope.md R10). -/
abbrev Config.nsym : Nat := 256

/-- ENODE_MAX, the entries of the encoder arena (00_scope.md R10). -/
abbrev Config.enodeMax : Nat := 511

/-- DNODE_MAX, the entries of the decoder arena (00_scope.md R10). -/
abbrev Config.dnodeMax : Nat := 511

/-- MAXLEN, the longest code the hardware holds (00_scope.md R10). -/
abbrev Config.maxLen : Nat := 255

/-- FREE VALUE: byte `k` of a buffer whose contents are those of draw number `draw`: IBUF and OBUF after power-up
(70_reset_and_hazards.md R452) and OBUF after an error (60_exceptions.md R405). It has no body, so no proof can lean on
it (log entries 1, 6 and 8). -/
opaque Config.freeByte : (draw k : Nat) → Byte

/-- FREE VALUE: the word of draw number `draw`: a read while BUSY (10_state.md R63) and the DEC_* registers after a
failed REBUILD (60_exceptions.md R405) (log entries 6, 7 and 9). -/
opaque Config.freeWord : (draw : Nat) → Word

/-- FREE VALUE: the 42 bits of DNODE entry `i` after a failed REBUILD (60_exceptions.md R405) (log entries 6 and 9). -/
opaque Config.freeNode : (draw i : Nat) → BitVec 42

end Sys2Proof
end

