-- ==== Sys2Proof/Syntax.lean ====
section
/-! DEFINITION. The command set: one constructor for each row of spec/opcode_table.json (30_encoding.md R142). -/

namespace Sys2Proof

/-- The ten commands. No command has an operand field (30_encoding.md R141, R145): a command's operands are the state
it reads. -/
inductive Instr where
  /-- 0x00, no operation (41_control_commands.md R201). -/
  | nop
  /-- 0x01, every table to its reset value (41_control_commands.md R202). -/
  | clear
  /-- 0x10, the whole encoder (43_encoder_frame.md R270). -/
  | encode
  /-- 0x11, frequency_counter (42_encoder_front.md R221). -/
  | count
  /-- 0x12, huffman_tree_builder (42_encoder_front.md R230). -/
  | build
  /-- 0x13, code_table_generator (42_encoder_front.md R240). -/
  | gencodes
  /-- 0x14, frame_serializer and bit_packer (43_encoder_frame.md R262). -/
  | emit
  /-- 0x20, the whole decoder (44_decoder.md R320). -/
  | decode
  /-- 0x21, tree_reconstructor (44_decoder.md R300). -/
  | rebuild
  /-- 0x22, bit_unpacker and symbol_walker (44_decoder.md R310). -/
  | walk
deriving DecidableEq, Repr

end Sys2Proof
end

