-- ==== Sys2Proof/WellFormed.lean ====
section
/-! DEFINITION. Well-formedness: of an instance's parameters and of an instruction. -/

namespace Sys2Proof

/-- The bounds on the OPEN parameters, 1 ≤ IBUF_BYTES, OBUF_BYTES ≤ 2^20 (00_scope.md R10). -/
def Config.wf (c : Config) : Bool :=
  decide (1 ≤ c.ibufBytes) && decide (c.ibufBytes ≤ Config.maxBytes)
    && decide (1 ≤ c.obufBytes) && decide (c.obufBytes ≤ Config.maxBytes)

/-- Every command is well formed: it has no operand field that could be out of range (30_encoding.md R141, R145). An
illegal command word is no `Instr`; the decoder rejects it. -/
def Instr.wf : Instr → Bool
  | .nop | .clear | .encode | .count | .build | .gencodes | .emit | .decode | .rebuild | .walk => true

end Sys2Proof
end

