-- ==== Sys2Proof/Machine/State.lean ====
section
/-! DEFINITION. The state of the block (10_state.md R33, R60), the agents that act on it (R32), the reasons a step can
stop, and the state after reset (R62). -/

namespace Sys2Proof.Machine

open Sys2Proof

/-- CTRL (10_state.md R36). -/
structure Ctrl where
  /-- [0] TRAILER: true is hardened mode, false is reference mode. -/
  trailer : Bool
  /-- [1] IRQ_EN. -/
  irqEn : Bool
deriving DecidableEq, Repr

/-- STATUS (10_state.md R38); the reserved fields read 0 and have no storage. -/
structure Status where
  /-- [0] BUSY: a command is pending. -/
  busy : Bool
  /-- [1] DONE. -/
  done : Bool
  /-- [2] ERR. -/
  err : Bool
  /-- [3] WBUSY: a write was dropped because BUSY = 1. -/
  wbusy : Bool
  /-- [15:8] ERR_CODE. -/
  errCode : Byte
  /-- [23:16] LAST_OP. -/
  lastOp : Byte
deriving DecidableEq, Repr

/-- One entry of the CodeTable CODE (10_state.md R52). Bit `j` of `bits` is the code bit c_j. -/
structure CodeEntry where
  valid : Bool
  len : BitVec 8
  bits : BitVec 256
deriving DecidableEq, Repr

/-- The entry of a symbol that has no code (10_state.md R52). -/
def CodeEntry.none : CodeEntry := ⟨false, 0, 0⟩

/-- One entry of the encoder's node arena ENODE (10_state.md R54). -/
structure ENode where
  valid : Bool
  leaf : Bool
  sym : Byte
  left : BitVec 9
  right : BitVec 9
  weight : Word
deriving DecidableEq, Repr

/-- A cleared ENODE entry: every field 0 (10_state.md R54). -/
def ENode.cleared : ENode := ⟨false, false, 0, 0, 0, 0⟩

/-- KIND of a DNODE entry (10_state.md R56). The encoding 3 is never produced, so it has no constructor. -/
inductive NodeKind where
  | empty
  | internal
  | leaf
deriving DecidableEq, Repr

/-- One entry of the decoder's node arena DNODE (10_state.md R56). -/
structure DNode where
  kind : NodeKind
  sym : Byte
  left : BitVec 16
  right : BitVec 16
deriving DecidableEq, Repr

/-- NONE, the link of a missing child (10_state.md R56). -/
abbrev DNode.noChild : BitVec 16 := 0xFFFF

/-- A cleared DNODE entry (10_state.md R56). -/
def DNode.cleared : DNode := ⟨.empty, 0, DNode.noChild, DNode.noChild⟩

/-- A buffer: the bytes that have been written, at strictly rising indices, and the number of the draw that the bytes
never written since come from (70_reset_and_hazards.md R452, log entry 1). -/
structure Memory where
  cells : List Host.Cell
  draw : Nat
deriving DecidableEq, Repr

/-- The hidden working registers of a command (10_state.md R60). Each command starts them afresh; no rule reads what an
earlier command left in them (log entry 10). -/
structure Work where
  /-- The live set of BUILD. -/
  live : List Nat
  /-- The bit accumulator of EMIT: the pending bits, the last one in bit 0. -/
  acc : Byte
  /-- How many bits the accumulator holds, 0 to 7. -/
  accBits : Nat
  /-- The walk position of WALK, an index into DNODE. -/
  walkPos : BitVec 16
  /-- The seen set of REBUILD, latest symbol first. -/
  seen : List Byte
deriving DecidableEq, Repr

/-- The working registers holding nothing. -/
def Work.idle : Work := ⟨[], 0, 0, 0, []⟩

/-- The size of a bus access (20_memory.md R102); `illegal` is the pin-level size 3 (R104). -/
inductive AccessSize where
  | byte
  | half
  | word
  | illegal
deriving DecidableEq, Repr

/-- The data of a host write: a literal, or the data a read has named (30_encoding.md R147, R148 `COPYOI`). -/
inductive HostValue where
  | lit (v : Word)
  | named (name : Nat)
deriving DecidableEq, Repr

/-- One line of a host program (30_encoding.md R147). Labels are line numbers. -/
inductive HostOp where
  /-- `W32`, `W16`, `W8`: a Write transaction. -/
  | write (size : AccessSize) (off : Word) (value : HostValue)
  /-- `R32` (and reads of the other sizes, 20_memory.md R102): a Read transaction whose data is then `name`. -/
  | read (size : AccessSize) (off : Word) (name : Nat)
  /-- `BZ name, mask, label`. -/
  | branchZero (name : Nat) (mask : Word) (target : Nat)
  /-- `BNZ name, mask, label`. -/
  | branchNonZero (name : Nat) (mask : Word) (target : Nat)
deriving DecidableEq, Repr

/-- The response to a transaction (20_memory.md R102): the data of a Read (0 for a Write) and the bus-error flag. -/
structure Response where
  data : Word
  err : Bool
deriving DecidableEq, Repr

/-- The host agent (10_state.md R32): its program, the line it is at, the data its reads have named, and the response
to its last transaction (log entry 5). -/
structure HostAgent where
  program : List HostOp
  line : Nat
  names : List (Nat × Word)
  response : Option Response
deriving DecidableEq, Repr

/-- Who moves (10_state.md R32): the host, the core, or the reset input (70_reset_and_hazards.md R450). -/
inductive Turn where
  | host
  | core
  | reset
deriving DecidableEq, Repr

/-- The error codes (60_exceptions.md R402) other than NONE. -/
inductive ErrCode where
  | badCmd
  | srcLen
  | dstOverflow
  | emptyFreq
  | noTree
  | noCode
  | truncTable
  | badNumcodes
  | badCodelen
  | badCodechar
  | dupSymbol
  | prefixConflict
  | nodeOverflow
  | noDecTree
  | badTrailer
  | badPayload
deriving DecidableEq, Repr

/-- A raised error: its code and its ERR_INFO value (60_exceptions.md R403). -/
structure CmdError where
  code : ErrCode
  info : Word
deriving DecidableEq, Repr

/-- Why a step stops with a fault. The spec stops the machine nowhere (60_exceptions.md R410). -/
inductive Fault where
  /-- Raised by the core's step when BUSY = 1 and no command word is pending. No run from reset reaches such a state
  (the two are set and cleared together, 60_exceptions.md R423). Safe: the model stops (log entry 11). -/
  | busyWithoutCommand
deriving DecidableEq, Repr

/-- Why an instruction has no meaning. -/
inductive Refusal where
  /-- Raised by an arm of `exec` whose instruction has no meaning yet; no arm does so. Safe: the model stops. -/
  | notModelled (mnemonic : String)
deriving DecidableEq, Repr

/-- The whole state. From `ctrl` to `obuf` it is the record of 10_state.md R33; `pendingOp` and `work` are the hidden
state of R60; `cfg`, `host`, `agenda` and `draws` are the model's own (log entries 2, 3, 5 and 6). -/
structure State where
  /-- CTRL. -/
  ctrl : Ctrl
  /-- STATUS. -/
  status : Status
  /-- ERR_INFO. -/
  errInfo : Word
  /-- SRC_LEN. -/
  srcLen : Word
  /-- DST_LEN. -/
  dstLen : Word
  /-- PAYLOAD_BITS. -/
  payloadBits : Word
  /-- FREQ. -/
  freq : Table Word 256
  /-- CODE. -/
  code : Table CodeEntry 256
  /-- ENODE. -/
  enode : Table ENode 511
  /-- ENC_NODES. -/
  encNodes : BitVec 10
  /-- ENC_ROOT. -/
  encRoot : BitVec 9
  /-- DNODE. -/
  dnode : Table DNode 511
  /-- DEC_NODES. -/
  decNodes : BitVec 10
  /-- DEC_NCODES. -/
  decNcodes : BitVec 9
  /-- DEC_PAYLOAD_OFF. -/
  decPayloadOff : Word
  /-- DEC_VALID. -/
  decValid : Bool
  /-- IBUF. -/
  ibuf : Memory
  /-- OBUF. -/
  obuf : Memory
  /-- PENDING_OP, the accepted command word that has not completed (hidden). -/
  pendingOp : Option Word
  /-- The other hidden registers. -/
  work : Work
  /-- The instance's parameters; no step changes them. -/
  cfg : Config
  /-- The host agent. -/
  host : HostAgent
  /-- Whose turns come next. -/
  agenda : List Turn
  /-- How many free values have been drawn. -/
  draws : Nat
deriving DecidableEq, Repr

/-- The state after power-up and reset of an instance with parameters `c` (10_state.md R62): IBUF and OBUF hold the
free values of draws 0 and 1, nothing is pending, and no host program is loaded. -/
def State.powerUp (c : Config) : State where
  ctrl := ⟨true, false⟩
  status := ⟨false, false, false, false, 0, 0⟩
  errInfo := 0
  srcLen := 0
  dstLen := 0
  payloadBits := 0
  freq := Table.fill 256 0
  code := Table.fill 256 CodeEntry.none
  enode := Table.fill 511 ENode.cleared
  encNodes := 0
  encRoot := 0
  dnode := Table.fill 511 DNode.cleared
  decNodes := 0
  decNcodes := 0
  decPayloadOff := 0
  decValid := false
  ibuf := ⟨[], 0⟩
  obuf := ⟨[], 1⟩
  pendingOp := none
  work := Work.idle
  cfg := c
  host := ⟨[], 0, [], none⟩
  agenda := []
  draws := 2

/-- The machine right after reset, for the default instance (10_state.md R62, 00_scope.md R10). -/
def State.reset : State := State.powerUp Config.default

end Sys2Proof.Machine
end

