-- ==== Sys2Proof/Machine/Ops.lean ====
section
/-! DEFINITION. The named operations over memory and registers: the buffers, the output primitive `put`, accept and
completion (the block's exception entry, 60_exceptions.md R423), errors and their side effects (R403, R405), reset
(70_reset_and_hazards.md R450), and whose turn is next. -/

namespace Sys2Proof.Machine

open Sys2Proof

/-! ### Buffers (10_state.md R58, R59; 70_reset_and_hazards.md R452) -/

/-- The byte written last at index `k`, if one was. -/
def cellAt (cells : List Host.Cell) (k : Nat) : Option Byte :=
  (cells.find? fun c => c.1 == k).map fun c => c.2

/-- The cells with `b` at index `k`, kept in rising order. -/
def putCell : List Host.Cell → Nat → Byte → List Host.Cell
  | [], k, b => [(k, b)]
  | c :: rest, k, b =>
    if k < c.1 then (k, b) :: c :: rest
    else if k = c.1 then (k, b) :: rest
    else c :: putCell rest k b

/-- Byte `k` of a buffer: the byte written last there, else the arbitrary value that stays fixed until it is written
(70_reset_and_hazards.md R452). -/
def Memory.read (m : Memory) (k : Nat) : Byte := (cellAt m.cells k).getD (Config.freeByte m.draw k)

/-- The buffer with `b` written at index `k`. -/
def Memory.write (m : Memory) (k : Nat) (b : Byte) : Memory := { m with cells := putCell m.cells k b }

/-- The buffer with the bytes `bs` written at `k`, `k + 1`, …. -/
def Memory.writeBytes (m : Memory) : Nat → List Byte → Memory
  | _, [] => m
  | k, b :: bs => (m.write k b).writeBytes (k + 1) bs

/-- The bytes `bs` as cells at `k`, `k + 1`, …. -/
def cellsFrom : Nat → List Byte → List Host.Cell
  | _, [] => []
  | k, b :: bs => (k, b) :: cellsFrom (k + 1) bs

/-- The buffer after a command's output `bs`, written from index 0 upward; bytes at and above the output's length keep
their values (10_state.md R59). -/
def Memory.writeOutput (m : Memory) (bs : List Byte) : Memory :=
  { m with cells := cellsFrom 0 bs ++ m.cells.filter fun c => decide (bs.length ≤ c.1) }

/-- The canonical form of a buffer of `size` bytes: strictly rising indices, all below `size`. An unlisted byte has no
stored value, so no entry can repeat it (log entry 1). -/
abbrev Memory.wf (size : Nat) (m : Memory) : Prop :=
  m.cells.Pairwise (fun a b => a.1 < b.1) ∧ ∀ c ∈ m.cells, c.1 < size

/-! ### Error codes (60_exceptions.md R402) -/

/-- The ERR_CODE value of an error (60_exceptions.md R402). -/
def ErrCode.value : ErrCode → Byte
  | .badCmd => 0x01
  | .srcLen => 0x10
  | .dstOverflow => 0x11
  | .emptyFreq => 0x20
  | .noTree => 0x21
  | .noCode => 0x22
  | .truncTable => 0x30
  | .badNumcodes => 0x31
  | .badCodelen => 0x32
  | .badCodechar => 0x33
  | .dupSymbol => 0x34
  | .prefixConflict => 0x35
  | .nodeOverflow => 0x36
  | .noDecTree => 0x37
  | .badTrailer => 0x38
  | .badPayload => 0x39

/-- An error whose ERR_INFO is the offset, index or length `n` (60_exceptions.md R404). -/
def errorAt (code : ErrCode) (n : Nat) : CmdError := ⟨code, BitVec.ofNat 32 n⟩

/-! ### Accept and completion (60_exceptions.md R423) -/

/-- How a command's body ends: with the state it made, and with the error it raised if it raised one
(60_exceptions.md R400, R403). -/
inductive BodyEnd where
  | ok (s : State)
  | raised (s : State) (e : CmdError)
deriving DecidableEq, Repr

/-- Two bodies in sequence: an error ends the composite command (60_exceptions.md R403, R425). -/
def BodyEnd.andThen : BodyEnd → (State → BodyEnd) → BodyEnd
  | .ok s, f => f s
  | .raised s e, _ => .raised s e

/-- Accept, the host step that takes a command word (60_exceptions.md R423 step 1). -/
def accept (v : Word) (s : State) : State :=
  { s with
    pendingOp := some v
    status := { s.status with
      busy := true, done := false, err := false, errCode := 0x00, lastOp := v.extractLsb' 0 8 }
    errInfo := 0 }

/-- Completion without an error (60_exceptions.md R423 step 2; ERR_CODE is 0x00 on success, 10_state.md R38). -/
def completeOk (s : State) : State :=
  { s with
    status := { s.status with busy := false, done := true, errCode := 0x00 }
    pendingOp := none }

/-- Completion with an error: the taking of an exception, with what it saves for the host in STATUS and ERR_INFO
(60_exceptions.md R423 step 2). -/
def completeError (s : State) (e : CmdError) : State :=
  { s with
    status := { s.status with busy := false, done := true, err := true, errCode := e.code.value }
    errInfo := e.info
    pendingOp := none }

/-- Completion of a command whose body ended so (60_exceptions.md R423 step 2). -/
def complete : BodyEnd → Host.Outcome State Fault Refusal
  | .ok s => .next (completeOk s)
  | .raised s e => .next (completeError s e)

/-- The return from a completion: the host clears DONE, ERR and WBUSY where its mask has a 1 (10_state.md R38,
60_exceptions.md R424). -/
def acknowledge (mask : Word) (s : State) : State :=
  { s with status := { s.status with
      done := s.status.done && !mask.getLsbD 1
      err := s.status.err && !mask.getLsbD 2
      wbusy := s.status.wbusy && !mask.getLsbD 3 } }

/-- The command word that the core's step runs (10_state.md R60). -/
def fetch (s : State) : Option Word := s.pendingOp

/-! ### The output of a command (43_encoder_frame.md R260, R261) -/

/-- The output of a running command: the capacity OBUF_BYTES, the output index o, and the bytes so far, last first. -/
structure Sink where
  room : Nat
  written : Nat
  rev : List Byte
deriving DecidableEq, Repr

/-- An error raised when the output index was `written` (60_exceptions.md R405). -/
structure Stop where
  written : Nat
  error : CmdError
deriving DecidableEq, Repr

/-- The empty output of a command on an instance with OBUF_BYTES = `room` (43_encoder_frame.md R260). -/
def Sink.start (room : Nat) : Sink := ⟨room, 0, []⟩

/-- The bytes of an output, first one first. -/
def Sink.bytes (k : Sink) : List Byte := k.rev.reverse

/-- `put(b)` (43_encoder_frame.md R261). -/
def put (b : Byte) (k : Sink) : Except Stop Sink :=
  if k.room ≤ k.written then .error ⟨k.written, errorAt .dstOverflow k.room⟩
  else .ok { k with written := k.written + 1, rev := b :: k.rev }

/-- A `put` of each byte in turn. -/
def putAll : List Byte → Sink → Except Stop Sink
  | [], k => .ok k
  | b :: bs, k =>
    match put b k with
    | .error e => .error e
    | .ok k' => putAll bs k'

/-- The result registers and OBUF after a successful command with output `k` and `bits` payload bits (10_state.md R41,
R42, R59). -/
def storeOutput (k : Sink) (bits : Nat) (s : State) : State :=
  { s with
    obuf := s.obuf.writeOutput k.bytes
    dstLen := BitVec.ofNat 32 k.written
    payloadBits := BitVec.ofNat 32 bits }

/-- An error of a command that writes OBUF, raised when its output index was `o`: DST_LEN and PAYLOAD_BITS are 0, and
OBUF is unchanged if `o` is 0 and otherwise every byte of it is unspecified (60_exceptions.md R405, log entry 8). -/
def raiseOutput (s : State) (o : Nat) (e : CmdError) : BodyEnd :=
  if o = 0 then .raised { s with dstLen := 0, payloadBits := 0 } e
  else .raised { s with dstLen := 0, payloadBits := 0, obuf := ⟨[], s.draws⟩, draws := s.draws + 1 } e

/-! ### The decoder's tables after an error (60_exceptions.md R405) -/

/-- A DNODE entry from 42 free bits; the KIND encoding 3 is never produced (10_state.md R56). -/
def nodeOfBits (v : BitVec 42) : DNode where
  kind := if v.extractLsb' 0 2 = 1 then .internal else if v.extractLsb' 0 2 = 2 then .leaf else .empty
  sym := v.extractLsb' 2 8
  left := v.extractLsb' 10 16
  right := v.extractLsb' 26 16

/-- An error of the REBUILD stage: DEC_VALID is 0; DNODE, DEC_NODES, DEC_NCODES and DEC_PAYLOAD_OFF are unspecified
(60_exceptions.md R405, log entry 9). -/
def raiseRebuild (s : State) (e : CmdError) : BodyEnd :=
  .raised
    { s with
      decValid := false
      dnode := Table.tabulate 511 fun i => nodeOfBits (Config.freeNode s.draws i)
      decNodes := (Config.freeWord (s.draws + 1)).setWidth 10
      decNcodes := (Config.freeWord (s.draws + 2)).setWidth 9
      decPayloadOff := Config.freeWord (s.draws + 3)
      draws := s.draws + 4 } e

/-! ### Reset and turns -/

/-- Reset with power kept (70_reset_and_hazards.md R450, R452): every component takes its reset value, but the buffers
keep their contents; a pending command is aborted. The host agent, the agenda and the draws are not the block's. -/
def resetBlock (s : State) : State :=
  { State.powerUp s.cfg with
    ibuf := s.ibuf, obuf := s.obuf, host := s.host, agenda := s.agenda, draws := s.draws }

/-- Whose turn is next, and the state with that turn taken from the agenda. When the agenda is used up the core's
completion comes first while it is enabled (70_reset_and_hazards.md R471), then the host (log entry 3). -/
def takeTurn (s : State) : Turn × State :=
  match s.agenda with
  | t :: rest => (t, { s with agenda := rest })
  | [] => (if s.status.busy then .core else .host, s)

end Sys2Proof.Machine
end

