-- ==== Sys2Proof/Machine/Operands.lean ====
section
/-! DEFINITION. The operands of the commands (30_encoding.md R145): the input bytes, the frame's fields (R160 to R168),
code bits as paths, payload bits, and the entries of the arenas. -/

namespace Sys2Proof.Machine

open Sys2Proof

/-! ### Integers and bytes (00_scope.md R14, 30_encoding.md R168) -/

/-- The little-endian value of a byte sequence (00_scope.md R14, `MemRead`). -/
def leNat : List Byte → Nat
  | [] => 0
  | b :: bs => b.toNat + 256 * leNat bs

/-- The `n` low bytes of `v`, least significant first (00_scope.md R14, `MemWrite`, `put64`). -/
def leBytes : (n v : Nat) → List Byte
  | 0, _ => []
  | n + 1, v => BitVec.ofNat 8 v :: leBytes n (v / 256)

/-- `ceil8(v)`, over unbounded integers (00_scope.md R14). -/
def ceil8 (v : Nat) : Nat := (v + 7) / 8

/-- The `n` bytes of `frame` from offset `k`. -/
def slice (frame : List Byte) (k n : Nat) : List Byte := (frame.drop k).take n

/-- `le64(k)` (00_scope.md R14). -/
def le64 (frame : List Byte) (k : Nat) : Nat := leNat (slice frame k 8)

/-! ### The input (10_state.md R40) -/

/-- IBUF[0 … SRC_LEN−1]. -/
def input (s : State) : List Byte := (List.range s.srcLen.toNat).map s.ibuf.read

/-- The check of every command that reads IBUF: SRC_LEN ≤ IBUF_BYTES (10_state.md R40). -/
def srcFits (s : State) : Bool := decide (s.srcLen.toNat ≤ s.cfg.ibufBytes)

/-- The error of a SRC_LEN past IBUF_BYTES; its ERR_INFO is SRC_LEN (60_exceptions.md R404). -/
def srcLenError (s : State) : CmdError := ⟨.srcLen, s.srcLen⟩

/-- The limit L of the table and payload (44_decoder.md R301, R311): in hardened mode the last 8 bytes are the trailer. -/
def frameLimit (s : State) : Except CmdError Nat :=
  if s.ctrl.trailer then
    if s.srcLen.toNat < 8 then .error ⟨.badTrailer, s.srcLen⟩ else .ok (s.srcLen.toNat - 8)
  else .ok s.srcLen.toNat

/-! ### Codes (00_scope.md R13, 10_state.md R52) -/

/-- The code bits c_0 … c_{LEN−1} of an entry (10_state.md R52). -/
def CodeEntry.path (e : CodeEntry) : List Bool := (List.range e.len.toNat).map e.bits.getLsbD

/-- The number whose bit `j` is element `j`. -/
def natOfPath : List Bool → Nat
  | [] => 0
  | b :: bs => b.toNat + 2 * natOfPath bs

/-- The entry of a symbol whose code is the path `p` (42_encoder_front.md R241). -/
def CodeEntry.ofPath (p : List Bool) : CodeEntry := ⟨true, BitVec.ofNat 8 p.length, BitVec.ofNat 256 (natOfPath p)⟩

/-- The frame's byte for a code bit: 0x30 or 0x31 (30_encoding.md R163). -/
def codeChar (b : Bool) : Byte := if b then 0x31 else 0x30

/-- The code bit of a frame byte, if it is '0' or '1' (30_encoding.md R163). -/
def bitOfChar (c : Byte) : Option Bool := if c = 0x30 then some false else if c = 0x31 then some true else none

/-! ### Payload bits (30_encoding.md R164, 44_decoder.md R312) -/

/-- The eight bits of a payload byte, most significant first (30_encoding.md R164). -/
def bitsOfByte (b : Byte) : List Bool := (List.range 8).map fun i => b.getLsbD (7 - i)

/-- Payload bits 0 … nbits−1 (44_decoder.md R312). -/
def payloadBitList (payload : List Byte) (nbits : Nat) : List Bool := (payload.flatMap bitsOfByte).take nbits

/-! ### Arena entries -/

/-- FREQ[s]. -/
def freqAt (freq : Table Word 256) (s : Byte) : Word := freq.get s.toNat 0

/-- CODE[s]. -/
def codeAt (code : Table CodeEntry 256) (s : Byte) : CodeEntry := code.get s.toNat CodeEntry.none

/-- ENODE[i]. -/
def enodeAt (enode : Table ENode 511) (i : Nat) : ENode := enode.get i ENode.cleared

/-- DNODE[i]. -/
def dnodeAt (dnode : Table DNode 511) (i : BitVec 16) : DNode := dnode.get i.toNat DNode.cleared

/-- The child of a node on the side of a code bit: 0 is left, 1 is right (00_scope.md R13). -/
def DNode.child (n : DNode) (right : Bool) : BitVec 16 := if right then n.right else n.left

/-- The node with its child on the side of a code bit set. -/
def DNode.setChild (n : DNode) (right : Bool) (c : BitVec 16) : DNode :=
  if right then { n with right := c } else { n with left := c }

/-- `#{ s : FREQ[s] ≠ 0 }`, the value of ENC_NSYM (10_state.md R43). -/
def encNsym (freq : Table Word 256) : Nat := freq.entries.countP fun w => decide (w ≠ 0)

/-- `#{ s : CODE[s].VALID = 1 }` (43_encoder_frame.md R263). -/
def codeCount (code : Table CodeEntry 256) : Nat := code.entries.countP CodeEntry.valid

end Sys2Proof.Machine
end

