-- ==== Sys2Proof/Machine/Flags.lean ====
section
/-! DEFINITION. The STATUS bits, the only flags of the block (41_control_commands.md R200), as words and as updates,
the CTRL word, and the interrupt output. -/

namespace Sys2Proof.Machine

open Sys2Proof

/-- One bit as a word with that bit at position `i`. -/
def bitWord (b : Bool) (i : Nat) : Word := if b then (1 : Word) <<< i else 0

/-- What a read of CTRL returns (10_state.md R36). -/
def Ctrl.word (c : Ctrl) : Word := bitWord c.trailer 0 ||| bitWord c.irqEn 1

/-- CTRL after a write of `v`: bits [1:0] are kept (10_state.md R36, R47). -/
def Ctrl.ofWord (v : Word) : Ctrl := ⟨v.getLsbD 0, v.getLsbD 1⟩

/-- What a read of STATUS returns (10_state.md R38). -/
def Status.word (t : Status) : Word :=
  bitWord t.busy 0 ||| bitWord t.done 1 ||| bitWord t.err 2 ||| bitWord t.wbusy 3
    ||| (t.errCode.setWidth 32 <<< 8) ||| (t.lastOp.setWidth 32 <<< 16)

/-- A write dropped because BUSY = 1 (70_reset_and_hazards.md R460, 60_exceptions.md R409): WBUSY is set. -/
def dropWrite (s : State) : State := { s with status := { s.status with wbusy := true } }

/-- The interrupt output, `irq = CTRL.IRQ_EN ∧ STATUS.DONE` (10_state.md R61, 60_exceptions.md R420). -/
def State.irq (s : State) : Bool := s.ctrl.irqEn && s.status.done

end Sys2Proof.Machine
end

