-- ==== Sys2Proof/Machine/Control.lean ====
section
/-! DEFINITION. The control commands NOP and CLEAR, and illegal command words (41_control_commands.md). -/

namespace Sys2Proof.Machine

open Sys2Proof

/-- NOP (41_control_commands.md R201): the handshake and nothing else. -/
def execNop (s : State) : Host.Outcome State Fault Refusal := complete (.ok s)

/-- The body of CLEAR (41_control_commands.md R202). CTRL, SRC_LEN, IBUF, OBUF and WBUSY stay. -/
def clearTables (s : State) : State :=
  { s with
    freq := Table.fill 256 0
    code := Table.fill 256 CodeEntry.none
    enode := Table.fill 511 ENode.cleared
    dnode := Table.fill 511 DNode.cleared
    encNodes := 0
    encRoot := 0
    decNodes := 0
    decNcodes := 0
    decPayloadOff := 0
    decValid := false
    dstLen := 0
    payloadBits := 0 }

/-- CLEAR (41_control_commands.md R202). -/
def execClear (s : State) : Host.Outcome State Fault Refusal := complete (.ok (clearTables s))

/-- An illegal command word `v` (41_control_commands.md R203, 30_encoding.md R143): it completes with BAD_CMD and
ERR_INFO = `v`, and changes nothing else. -/
def execIllegal (v : Word) (s : State) : Host.Outcome State Fault Refusal := complete (.raised s ⟨.badCmd, v⟩)

end Sys2Proof.Machine
end

