-- ==== Sys2Proof/Machine/Decoder.lean ====
section
/-! DEFINITION. The decoder: REBUILD, WALK and DECODE (44_decoder.md). -/

namespace Sys2Proof.Machine

open Sys2Proof

/-! ### REBUILD (tree_reconstructor) -/

/-- The tree under construction: the arena and the number of entries in use (44_decoder.md R301, R304). -/
structure Tree where
  dnode : Table DNode 511
  cnt : Nat
deriving DecidableEq, Repr

/-- The empty tree: the root alone, EMPTY (44_decoder.md R301). -/
def Tree.empty : Tree := ⟨Table.fill 511 DNode.cleared, 1⟩

/-- The walk of `insert` along the code bits from node `p`, creating the nodes it lacks; the answer has the terminal
node. `ent` is the offset of the entry's symbol byte (44_decoder.md R304). -/
def descend (ent : Nat) : List Bool → (p : BitVec 16) → Tree → Except CmdError (Tree × BitVec 16)
  | [], p, t => .ok (t, p)
  | b :: bs, p, t =>
    let n := dnodeAt t.dnode p
    if n.kind = .leaf then .error (errorAt .prefixConflict ent)
    else if n.child b = DNode.noChild then
      if t.cnt = Config.dnodeMax then .error (errorAt .nodeOverflow ent)
      else
        let c := BitVec.ofNat 16 t.cnt
        descend ent bs c ⟨t.dnode.set p.toNat { n.setChild b c with kind := .internal }, t.cnt + 1⟩
    else descend ent bs (n.child b) ⟨t.dnode.set p.toNat { n with kind := .internal }, t.cnt⟩

/-- `insert(sym, c, ent)` (44_decoder.md R304). -/
def insertCode (sym : Byte) (bits : List Bool) (ent : Nat) (t : Tree) : Except CmdError Tree := do
  let (t, p) ← descend ent bits 0 t
  let n := dnodeAt t.dnode p
  if n.kind = .empty then .ok { t with dnode := t.dnode.set p.toNat { n with kind := .leaf, sym := sym } }
  else .error (errorAt .prefixConflict ent)

/-- The code bits of an entry, read from its characters; `at_` is the offset of the first. A byte other than '0' and '1'
is BAD_CODECHAR (44_decoder.md R303). -/
def readCodeChars : (at_ : Nat) → List Byte → Except CmdError (List Bool)
  | _, [] => .ok []
  | at_, c :: cs =>
    match bitOfChar c with
    | none => .error (errorAt .badCodechar at_)
    | some b =>
      match readCodeChars (at_ + 1) cs with
      | .error e => .error e
      | .ok bs => .ok (b :: bs)

/-- REBUILD between two entries: the tree, the offset of the next byte, and the symbols seen (44_decoder.md R302, R303). -/
structure Parser where
  tree : Tree
  pos : Nat
  seen : List Byte
deriving DecidableEq, Repr

/-- `need(k, at)`: the `k` bytes from `pos` lie below the limit (44_decoder.md R301). -/
def need (limit pos k at_ : Nat) : Except CmdError Unit :=
  if limit < pos + k then .error (errorAt .truncTable at_) else .ok ()

/-- One entry of the table (44_decoder.md R303). -/
def parseEntry (frame : List Byte) (limit : Nat) (r : Parser) : Except CmdError Parser := do
  let ent := r.pos
  need limit ent 1 ent
  let sym := frame.getD ent 0
  if sym ∈ r.seen then .error (errorAt .dupSymbol ent)
  else
    need limit (ent + 1) 8 (ent + 1)
    let len := le64 frame (ent + 1)
    if Config.maxLen < len then .error (errorAt .badCodelen (ent + 1))
    else
      need limit (ent + 9) len (ent + 1)
      let bits ← readCodeChars (ent + 9) (slice frame (ent + 9) len)
      let tree ← insertCode sym bits ent r.tree
      .ok ⟨tree, ent + 9 + len, sym :: r.seen⟩

/-- Entries e = 0 … n−1 in stream order (44_decoder.md R303). -/
def parseEntries (frame : List Byte) (limit : Nat) : (n : Nat) → Parser → Except CmdError Parser
  | 0, r => .ok r
  | n + 1, r =>
    match parseEntry frame limit r with
    | .error e => .error e
    | .ok r' => parseEntries frame limit n r'

/-- The whole table: numCodes and its entries (44_decoder.md R302, R303). The answer has numCodes. -/
def parseTable (frame : List Byte) (limit : Nat) : Except CmdError (Nat × Parser) := do
  need limit 0 8 0
  let num := le64 frame 0
  if Config.nsym < num then .error (errorAt .badNumcodes 0)
  else
    let r ← parseEntries frame limit num ⟨Tree.empty, 8, []⟩
    .ok (num, r)

/-- The body of REBUILD (44_decoder.md R301 to R305; errors: 60_exceptions.md R405). -/
def rebuildBody (s : State) : BodyEnd :=
  if srcFits s then
    match frameLimit s with
    | .error e => raiseRebuild s e
    | .ok limit =>
      match parseTable (input s) limit with
      | .error e => raiseRebuild s e
      | .ok (num, r) =>
        .ok { s with
          dnode := r.tree.dnode
          decNodes := BitVec.ofNat 10 r.tree.cnt
          decNcodes := BitVec.ofNat 9 num
          decPayloadOff := BitVec.ofNat 32 r.pos
          decValid := true
          work := { s.work with seen := r.seen } }
  else raiseRebuild s (srcLenError s)

/-- REBUILD (44_decoder.md R300). -/
def execRebuild (s : State) : Host.Outcome State Fault Refusal := complete (rebuildBody s)

/-! ### WALK (bit_unpacker, symbol_walker) -/

/-- The symbol walker: the walk position and the output (44_decoder.md R313). -/
structure Walker where
  pos : BitVec 16
  sink : Sink
deriving DecidableEq, Repr

/-- One payload bit, number `i` (44_decoder.md R313, R314). -/
def walkBit (dnode : Table DNode 511) (i : Nat) (b : Bool) (w : Walker) : Except Stop Walker :=
  let root := dnodeAt dnode 0
  if root.kind = .leaf then
    match put root.sym w.sink with
    | .error e => .error e
    | .ok k => .ok { w with sink := k }
  else
    let q := (dnodeAt dnode w.pos).child b
    if q = DNode.noChild then .error ⟨w.sink.written, errorAt .badPayload i⟩
    else
      let n := dnodeAt dnode q
      if n.kind = .leaf then
        match put n.sym w.sink with
        | .error e => .error e
        | .ok k => .ok ⟨0, k⟩
      else .ok { w with pos := q }

/-- The payload bits in turn; `i` is the number of the first of them (44_decoder.md R313). -/
def walkBits (dnode : Table DNode 511) : (i : Nat) → List Bool → Walker → Except Stop Walker
  | _, [], w => .ok w
  | i, b :: bs, w =>
    match walkBit dnode i b w with
    | .error e => .error e
    | .ok w' => walkBits dnode (i + 1) bs w'

/-- The payload region: its first byte, its length in bytes, and the number of payload bits, with the checks of
44_decoder.md R311. -/
def payloadRegion (s : State) : Except CmdError (Nat × Nat × Nat) := do
  let limit ← frameLimit s
  let off := s.decPayloadOff.toNat
  if limit < off then .error ⟨.badPayload, s.decPayloadOff⟩
  else
    let len := limit - off
    if s.ctrl.trailer then
      let vb := le64 (input s) limit
      if ceil8 vb ≠ len then .error (errorAt .badTrailer limit) else .ok (off, len, vb)
    else .ok (off, len, 8 * len)

/-- The walk over `nbits` payload bits and the check at the end of the payload (44_decoder.md R313, R315). -/
def walkPayload (dnode : Table DNode 511) (trailer : Bool) (room : Nat) (payload : List Byte) (nbits : Nat) :
    Except Stop Walker := do
  let w ← walkBits dnode 0 (payloadBitList payload nbits) ⟨0, Sink.start room⟩
  if trailer && decide (w.pos ≠ 0) then .error ⟨w.sink.written, errorAt .badPayload nbits⟩ else .ok w

/-- The body of WALK (44_decoder.md R311 to R315; errors: 60_exceptions.md R405). -/
def walkBody (s : State) : BodyEnd :=
  if srcFits s then
    if s.decValid then
      match payloadRegion s with
      | .error e => raiseOutput s 0 e
      | .ok (off, len, nbits) =>
        match walkPayload s.dnode s.ctrl.trailer s.cfg.obufBytes (slice (input s) off len) nbits with
        | .error e => raiseOutput s e.written e.error
        | .ok w => .ok { storeOutput w.sink nbits s with work := { s.work with walkPos := w.pos } }
    else raiseOutput s 0 (errorAt .noDecTree 0)
  else raiseOutput s 0 (srcLenError s)

/-- WALK (44_decoder.md R310). -/
def execWalk (s : State) : Host.Outcome State Fault Refusal := complete (walkBody s)

/-! ### DECODE -/

/-- The body of DECODE (44_decoder.md R320): REBUILD, then WALK. An error of the REBUILD stage also zeroes DST_LEN and
PAYLOAD_BITS; no output has begun, so OBUF is unchanged (60_exceptions.md R405). -/
def decodeBody (s : State) : BodyEnd :=
  match rebuildBody s with
  | .ok t => walkBody t
  | .raised t e => raiseOutput t 0 e

/-- DECODE (44_decoder.md R320). -/
def execDecode (s : State) : Host.Outcome State Fault Refusal := complete (decodeBody s)

end Sys2Proof.Machine
end

