-- ==== Sys2Proof/Machine/EncoderFront.lean ====
section
/-! DEFINITION. The encoder's front end: COUNT, BUILD and GENCODES (42_encoder_front.md). -/

namespace Sys2Proof.Machine

open Sys2Proof

/-! ### COUNT (frequency_counter) -/

/-- One input byte counted (42_encoder_front.md R221). -/
def countByte (freq : Table Word 256) (b : Byte) : Table Word 256 := freq.set b.toNat (freqAt freq b + 1)

/-- The frequency table of an input (42_encoder_front.md R221). -/
def countBytes (bytes : List Byte) : Table Word 256 := bytes.foldl countByte (Table.fill 256 0)

/-- The body of COUNT (42_encoder_front.md R221). -/
def countBody (s : State) : BodyEnd :=
  if srcFits s then .ok { s with freq := countBytes (input s) } else .raised s (srcLenError s)

/-- COUNT (42_encoder_front.md R221). -/
def execCount (s : State) : Host.Outcome State Fault Refusal := complete (countBody s)

/-! ### BUILD (huffman_tree_builder) -/

/-- The arena and the live set while BUILD runs (42_encoder_front.md R231). -/
structure Builder where
  enode : Table ENode 511
  live : List Nat
deriving DecidableEq, Repr

/-- The Leaf of symbol `s` with frequency `w` (42_encoder_front.md R231). -/
def ENode.mkLeaf (s : Byte) (w : Word) : ENode := ⟨true, true, s, 0, 0, w⟩

/-- The Internal node over the nodes `x` and `y` (42_encoder_front.md R231). -/
def ENode.mkInternal (enode : Table ENode 511) (x y : Nat) : ENode :=
  ⟨true, false, 0, BitVec.ofNat 9 x, BitVec.ofNat 9 y, (enodeAt enode x).weight + (enodeAt enode y).weight⟩

/-- The Leaves, one per symbol of non-zero frequency, in ascending symbol order (42_encoder_front.md R231). -/
def leavesOf (freq : Table Word 256) : List ENode :=
  (List.range 256).filterMap fun s =>
    let w := freqAt freq (BitVec.ofNat 8 s)
    if w ≠ 0 then some (ENode.mkLeaf (BitVec.ofNat 8 s) w) else none

/-- The arena that holds the nodes `ns` from entry 0 on and is cleared above them. -/
def arenaOf (ns : List ENode) : Table ENode 511 := Table.tabulate 511 fun i => ns.getD i ENode.cleared

/-- The order of the priority queue: key (WEIGHT, index), compared lexicographically (42_encoder_front.md R231, R232). -/
def keyLess (enode : Table ENode 511) (x y : Nat) : Bool :=
  let wx := (enodeAt enode x).weight.toNat
  let wy := (enodeAt enode y).weight.toNat
  decide (wx < wy) || (decide (wx = wy) && decide (x < y))

/-- The element of `x :: rest` with the least key. -/
def leastKey (enode : Table ENode 511) : (x : Nat) → (rest : List Nat) → Nat
  | x, [] => x
  | x, y :: rest => leastKey enode (if keyLess enode y x then y else x) rest

/-- The element of the live set with the least key (0 for the empty set, which no merge meets). -/
def extractLeast (enode : Table ENode 511) : List Nat → Nat
  | [] => 0
  | x :: rest => leastKey enode x rest

/-- One merge, which makes node `m` (42_encoder_front.md R231): the first node extracted is the LEFT child. -/
def mergeStep (b : Builder) (m : Nat) : Builder :=
  let x := extractLeast b.enode b.live
  let live1 := b.live.erase x
  let y := extractLeast b.enode live1
  let live2 := live1.erase y
  { enode := b.enode.set m (ENode.mkInternal b.enode x y), live := live2 ++ [m] }

/-- The tree over `n` distinct symbols: the Leaves, then the merges k = 0 … n−2, which make the nodes n + k in sequence
(42_encoder_front.md R231, R235). -/
def buildTree (freq : Table Word 256) : Builder :=
  let leaves := leavesOf freq
  let n := leaves.length
  ((List.range (n - 1)).map fun k => n + k).foldl mergeStep ⟨arenaOf leaves, List.range n⟩

/-- The body of BUILD (42_encoder_front.md R230, R231). -/
def buildBody (s : State) : BodyEnd :=
  let n := encNsym s.freq
  if n = 0 then .raised s (errorAt .emptyFreq 0)
  else
    let b := buildTree s.freq
    .ok { s with
      enode := b.enode
      encNodes := BitVec.ofNat 10 (2 * n - 1)
      encRoot := if n = 1 then 0 else BitVec.ofNat 9 (2 * n - 2)
      work := { s.work with live := b.live } }

/-- BUILD (42_encoder_front.md R230). -/
def execBuild (s : State) : Host.Outcome State Fault Refusal := complete (buildBody s)

/-! ### GENCODES (code_table_generator) -/

/-- The depth-first traversal from node `i` with the path `p` from the root (42_encoder_front.md R241). `fuel` bounds
the depth; a tree in the arena is at most 255 deep (log entry 12). -/
def visit (enode : Table ENode 511) : (fuel : Nat) → (i : Nat) → (p : List Bool) → Table CodeEntry 256 → Table CodeEntry 256
  | 0, _, _, code => code
  | fuel + 1, i, p, code =>
    let e := enodeAt enode i
    if e.leaf then code.set e.sym.toNat (CodeEntry.ofPath p)
    else visit enode fuel e.right.toNat (p ++ [true]) (visit enode fuel e.left.toNat (p ++ [false]) code)

/-- The code table of the tree with root `r` (42_encoder_front.md R241); a tree that is one Leaf gives its symbol the
code "0" (R242). -/
def codesOf (enode : Table ENode 511) (r : Nat) : Table CodeEntry 256 :=
  let none := Table.fill 256 CodeEntry.none
  let root := enodeAt enode r
  if root.leaf then none.set root.sym.toNat (CodeEntry.ofPath [false])
  else visit enode Config.enodeMax r [] none

/-- The body of GENCODES (42_encoder_front.md R240, R241). -/
def gencodesBody (s : State) : BodyEnd :=
  if s.encNodes = 0 then .raised s (errorAt .noTree 0)
  else .ok { s with code := codesOf s.enode s.encRoot.toNat }

/-- GENCODES (42_encoder_front.md R240). -/
def execGencodes (s : State) : Host.Outcome State Fault Refusal := complete (gencodesBody s)

end Sys2Proof.Machine
end

