-- ==== Sys2Proof/Machine/EncoderFrame.lean ====
section
/-! DEFINITION. The encoder's back end: EMIT and ENCODE (43_encoder_frame.md), which write the frame of 30_encoding.md
R160 to R169. -/

namespace Sys2Proof.Machine

open Sys2Proof

/-- One entry of the table header: symbolByte, codeLength, code bits as characters (43_encoder_frame.md R263). -/
def entryBytes (sym : Byte) (e : CodeEntry) : List Byte :=
  sym :: (leBytes 8 e.len.toNat ++ e.path.map codeChar)

/-- The table header: numCodes, then the valid entries in ascending symbol order (43_encoder_frame.md R263). -/
def headerBytes (code : Table CodeEntry 256) : List Byte :=
  leBytes 8 (codeCount code) ++
    (List.range 256).flatMap fun s =>
      let e := codeAt code (BitVec.ofNat 8 s)
      if e.valid then entryBytes (BitVec.ofNat 8 s) e else []

/-- The bit packer: the accumulator, how many bits it holds, the bits packed so far, and the output
(43_encoder_frame.md R264). -/
structure Packer where
  acc : Byte
  cnt : Nat
  total : Nat
  sink : Sink
deriving DecidableEq, Repr

/-- One code bit into the accumulator; a full byte is put out (43_encoder_frame.md R264). -/
def packBit (b : Bool) (p : Packer) : Except Stop Packer :=
  let acc := (p.acc <<< 1) ||| (if b then 1 else 0)
  if p.cnt + 1 = 8 then
    match put acc p.sink with
    | .error e => .error e
    | .ok k => .ok ⟨0, 0, p.total + 1, k⟩
  else .ok ⟨acc, p.cnt + 1, p.total + 1, p.sink⟩

/-- The bits of one code. -/
def packBits : List Bool → Packer → Except Stop Packer
  | [], p => .ok p
  | b :: bs, p =>
    match packBit b p with
    | .error e => .error e
    | .ok p' => packBits bs p'

/-- The code of each input byte in turn; `j` is the index of the first of them. A byte with no code raises NO_CODE with
ERR_INFO = s·2^24 + j (43_encoder_frame.md R264). -/
def packInput (code : Table CodeEntry 256) : (j : Nat) → List Byte → Packer → Except Stop Packer
  | _, [], p => .ok p
  | j, b :: bs, p =>
    let e := codeAt code b
    if e.valid then
      match packBits e.path p with
      | .error x => .error x
      | .ok p' => packInput code (j + 1) bs p'
    else .error ⟨p.sink.written, errorAt .noCode (b.toNat * 2 ^ 24 + j)⟩

/-- The partial byte at the end, zero-padded in the low-order bits (43_encoder_frame.md R264). -/
def flushBits (p : Packer) : Except Stop Packer :=
  if p.cnt = 0 then .ok p
  else
    match put (p.acc <<< (8 - p.cnt)) p.sink with
    | .error e => .error e
    | .ok k => .ok { p with sink := k }

/-- The trailer, in hardened mode only (43_encoder_frame.md R265). -/
def putTrailer (trailer : Bool) (p : Packer) : Except Stop Packer :=
  if trailer then
    match putAll (leBytes 8 p.total) p.sink with
    | .error e => .error e
    | .ok k => .ok { p with sink := k }
  else .ok p

/-- The whole frame of `bytes` with the codes `code`, written to an empty output of `room` bytes: header, payload, trailer,
in that order (43_encoder_frame.md R262 to R265). -/
def emitFrame (code : Table CodeEntry 256) (trailer : Bool) (room : Nat) (bytes : List Byte) : Except Stop Packer := do
  let k ← putAll (headerBytes code) (Sink.start room)
  let p ← packInput code 0 bytes ⟨0, 0, 0, k⟩
  let p ← flushBits p
  putTrailer trailer p

/-- The body of EMIT (43_encoder_frame.md R262 to R265; errors: 60_exceptions.md R405). -/
def emitBody (s : State) : BodyEnd :=
  if srcFits s then
    match emitFrame s.code s.ctrl.trailer s.cfg.obufBytes (input s) with
    | .error e => raiseOutput s e.written e.error
    | .ok p => .ok { storeOutput p.sink p.total s with work := { s.work with acc := p.acc, accBits := p.cnt } }
  else raiseOutput s 0 (srcLenError s)

/-- EMIT (43_encoder_frame.md R262). -/
def execEmit (s : State) : Host.Outcome State Fault Refusal := complete (emitBody s)

/-- The tree and code tables of an empty input: cleared (43_encoder_frame.md R271). -/
def clearEncoder (s : State) : State :=
  { s with
    enode := Table.fill 511 ENode.cleared
    encNodes := 0
    encRoot := 0
    code := Table.fill 256 CodeEntry.none }

/-- The tree stages of ENCODE after COUNT: BUILD and GENCODES, or the cleared tables of an empty input
(43_encoder_frame.md R270, R271). -/
def encodeTables (s : State) : BodyEnd :=
  if encNsym s.freq = 0 then .ok (clearEncoder s) else (buildBody s).andThen gencodesBody

/-- The body of ENCODE (43_encoder_frame.md R270). -/
def encodeBody (s : State) : BodyEnd :=
  if srcFits s then ((countBody s).andThen encodeTables).andThen emitBody
  else raiseOutput s 0 (srcLenError s)

/-- ENCODE (43_encoder_frame.md R270). -/
def execEncode (s : State) : Host.Outcome State Fault Refusal := complete (encodeBody s)

end Sys2Proof.Machine
end

