-- ==== Sys2Proof/Machine/Dispatch.lean ====
section
/-! DEFINITION. One arm per command: the completion step of each (60_exceptions.md R423). -/

namespace Sys2Proof.Machine

open Sys2Proof

def exec (i : Instr) (s : State) : Host.Outcome State Fault Refusal :=
  match i with
  | .nop => Sys2Proof.Machine.execNop s
  | .clear => Sys2Proof.Machine.execClear s
  | .encode => Sys2Proof.Machine.execEncode s
  | .count => Sys2Proof.Machine.execCount s
  | .build => Sys2Proof.Machine.execBuild s
  | .gencodes => Sys2Proof.Machine.execGencodes s
  | .emit => Sys2Proof.Machine.execEmit s
  | .decode => Sys2Proof.Machine.execDecode s
  | .rebuild => Sys2Proof.Machine.execRebuild s
  | .walk => Sys2Proof.Machine.execWalk s

end Sys2Proof.Machine
end

