-- ==== Sys2Proof/Decode.lean ====
section
/-! DEFINITION. The decoder of command words (30_encoding.md R141 to R144), total on any word and on any bytes,
rejecting by name; and the encoder, written from the same opcode map. -/

namespace Sys2Proof

/-- Why a command word is illegal (30_encoding.md R143, R144), or why bytes are no command word. -/
inductive DecodeReject where
  /-- `V[31:8]` is not 0. -/
  | reservedNonZero
  /-- `V[7:0]` is an unassigned opcode. -/
  | unassignedOpcode
  /-- Not exactly four bytes: a command word is one 32-bit write (30_encoding.md R140). -/
  | notOneWord
deriving DecidableEq, Repr

/-- The OP field, bits [7:0] (30_encoding.md R141). -/
def opField (v : Word) : Byte := v.extractLsb' 0 8

/-- The RSVD field, bits [31:8] (30_encoding.md R141). -/
def rsvdField (v : Word) : BitVec 24 := v.extractLsb' 8 24

/-- The opcode map (30_encoding.md R142). -/
def opcodeMap : List (Byte × Instr) :=
  [(0x00, .nop), (0x01, .clear), (0x10, .encode), (0x11, .count), (0x12, .build), (0x13, .gencodes), (0x14, .emit),
   (0x20, .decode), (0x21, .rebuild), (0x22, .walk)]

/-- Decoding a command word (30_encoding.md R143). -/
def decode (v : Word) : Except DecodeReject Instr :=
  if rsvdField v ≠ 0 then .error .reservedNonZero
  else
    match opcodeMap.lookup (opField v) with
    | some i => .ok i
    | none => .error .unassignedOpcode

/-- A little-endian word from its four bytes (20_memory.md R103). -/
def wordOfBytes (b0 b1 b2 b3 : Byte) : Word := b3 ++ b2 ++ b1 ++ b0

/-- Decoding the four bytes of a command word as the host bus carries them. -/
def decodeBytes : List Byte → Except DecodeReject Instr
  | [b0, b1, b2, b3] => decode (wordOfBytes b0 b1 b2 b3)
  | _ => .error .notOneWord

/-- The OP value of each command (30_encoding.md R142). -/
def opcode : Instr → Byte
  | .nop => 0x00
  | .clear => 0x01
  | .encode => 0x10
  | .count => 0x11
  | .build => 0x12
  | .gencodes => 0x13
  | .emit => 0x14
  | .decode => 0x20
  | .rebuild => 0x21
  | .walk => 0x22

/-- The command word of each command: OP in [7:0], RSVD = 0 in [31:8] (30_encoding.md R141). -/
def encode (i : Instr) : Word := (0 : BitVec 24) ++ opcode i

/-- The bytes of a 32-bit word, lowest offset first (20_memory.md R103). -/
def bytesOfWord (v : Word) : List Byte :=
  [v.extractLsb' 0 8, v.extractLsb' 8 8, v.extractLsb' 16 8, v.extractLsb' 24 8]

/-- The instruction the decoder reads from a table word `w` of `nbits` bits: the word is laid out as the four bytes the
host bus carries and given to the decoder. -/
def decodeTableWord (nbits w : Nat) : Option Instr :=
  match decodeBytes (bytesOfWord (BitVec.ofNat 32 (w % 2 ^ nbits))) with
  | .ok i => some i
  | .error _ => none

end Sys2Proof
end

