-- ==== Sys2Proof/Machine/Bus.lean ====
section
/-! DEFINITION. Host bus transactions (20_memory.md): the offset map, reads, writes, bus errors, dropped writes. -/

namespace Sys2Proof.Machine

open Sys2Proof

/-- The registers of the block (10_state.md R34). -/
inductive Reg where
  | id
  | version
  | ctrl
  | cmd
  | status
  | errInfo
  | srcLen
  | dstLen
  | payloadBits
  | encNsym
  | encNodes
  | encRoot
  | decNcodes
  | decNodes
  | decPayloadOff
  | decStatus
  | paramIbuf
  | paramObuf
  | paramDnodes
deriving DecidableEq, Repr

/-- What a mapped offset holds (20_memory.md R101): a register, a word of a window, or bytes of a buffer from an index
on. -/
inductive Place where
  | reg (r : Reg)
  | freq (s : Nat)
  | codeLen (s : Nat)
  | codeBits (s w : Nat)
  | enode (i w : Nat)
  | dnode (i w : Nat)
  | ibuf (k : Nat)
  | obuf (k : Nat)
deriving DecidableEq, Repr

/-- The register map (10_state.md R34). -/
def registerMap : List (Nat × Reg) :=
  [(0x000, .id), (0x004, .version), (0x008, .ctrl), (0x00C, .cmd), (0x010, .status), (0x014, .errInfo),
   (0x018, .srcLen), (0x01C, .dstLen), (0x020, .payloadBits), (0x024, .encNsym), (0x028, .encNodes),
   (0x02C, .encRoot), (0x030, .decNcodes), (0x034, .decNodes), (0x038, .decPayloadOff), (0x03C, .decStatus),
   (0x040, .paramIbuf), (0x044, .paramObuf), (0x048, .paramDnodes)]

/-- The word-sized places below 0x0010_0000 (20_memory.md R101): registers and windows. -/
def wordPlace (off : Nat) : Option Place :=
  if off < 0x1000 then (registerMap.lookup off).map .reg
  else if off < 0x1400 then some (.freq ((off - 0x1000) / 4))
  else if off < 0x1800 then some (.codeLen ((off - 0x1400) / 4))
  else if off < 0x2000 then none
  else if off < 0x4000 then some (.codeBits ((off - 0x2000) / 32) ((off - 0x2000) / 4 % 8))
  else if off < 0x5FF0 then some (.enode ((off - 0x4000) / 16) ((off - 0x4000) / 4 % 4))
  else if off < 0x6000 then none
  else if off < 0x6FF8 then some (.dnode ((off - 0x6000) / 8) ((off - 0x6000) / 4 % 2))
  else none

/-- The bytes of an access size; the pin-level size 3 has none (20_memory.md R102). -/
def AccessSize.bytes : AccessSize → Option Nat
  | .byte => some 1
  | .half => some 2
  | .word => some 4
  | .illegal => none

/-- What an access of `n` bytes at `off` reaches, or none for a bus error (20_memory.md R101, R104, R105, R106). -/
def placeAt (c : Config) (n off : Nat) : Option Place :=
  if off % n ≠ 0 then none
  else if off < 0x100000 then if n = 4 then wordPlace off else none
  else if off < 0x200000 then
    if off - 0x100000 + n ≤ c.ibufBytes then some (.ibuf (off - 0x100000)) else none
  else if off < 0x300000 then
    if off - 0x200000 + n ≤ c.obufBytes then some (.obuf (off - 0x200000)) else none
  else none

/-- The bytes and the place of an access, or none for a bus error (60_exceptions.md R408). -/
def access (c : Config) (size : AccessSize) (off : Word) : Option (Nat × Place) :=
  match size.bytes with
  | none => none
  | some n => (placeAt c n off.toNat).map fun p => (n, p)

/-- The platform address of an offset: offsets are relative to BASE (20_memory.md R100, R101). -/
def platformAddress (c : Config) (off : Word) : Nat := c.base + off.toNat

/-! ### Reads -/

/-- A one-bit value as a word. -/
def flagWord (b : Bool) : Word := bitWord b 0

/-- What an idle read of a register returns (10_state.md R34 to R46). -/
def readReg (s : State) : Reg → Word
  | .id => 0x48554646
  | .version => 0x00000007
  | .ctrl => s.ctrl.word
  | .cmd => 0
  | .status => s.status.word
  | .errInfo => s.errInfo
  | .srcLen => s.srcLen
  | .dstLen => s.dstLen
  | .payloadBits => s.payloadBits
  | .encNsym => BitVec.ofNat 32 (encNsym s.freq)
  | .encNodes => s.encNodes.setWidth 32
  | .encRoot => s.encRoot.setWidth 32
  | .decNcodes => s.decNcodes.setWidth 32
  | .decNodes => s.decNodes.setWidth 32
  | .decPayloadOff => s.decPayloadOff
  | .decStatus => flagWord s.decValid
  | .paramIbuf => BitVec.ofNat 32 s.cfg.ibufBytes
  | .paramObuf => BitVec.ofNat 32 s.cfg.obufBytes
  | .paramDnodes => BitVec.ofNat 32 Config.dnodeMax

/-- The word {VALID, LEN} of a CODE entry (10_state.md R52). -/
def codeLenWord (e : CodeEntry) : Word := e.len.setWidth 32 ||| bitWord e.valid 31

/-- Word `w` of the BITS of a CODE entry (10_state.md R53). -/
def codeBitsWord (e : CodeEntry) (w : Nat) : Word := e.bits.extractLsb' (32 * w) 32

/-- Word `w` of an ENODE entry (10_state.md R54). -/
def enodeWord (e : ENode) : (w : Nat) → Word
  | 0 => bitWord e.valid 0 ||| bitWord e.leaf 1 ||| (e.sym.setWidth 32 <<< 8)
  | 1 => e.left.setWidth 32 ||| (e.right.setWidth 32 <<< 16)
  | 2 => e.weight
  | _ => 0

/-- The KIND field of a DNODE entry (10_state.md R56). -/
def NodeKind.field : NodeKind → BitVec 2
  | .empty => 0
  | .internal => 1
  | .leaf => 2

/-- Word `w` of a DNODE entry (10_state.md R56). -/
def dnodeWord (e : DNode) : (w : Nat) → Word
  | 0 => e.kind.field.setWidth 32 ||| (e.sym.setWidth 32 <<< 8)
  | _ => e.left.setWidth 32 ||| (e.right.setWidth 32 <<< 16)

/-- The `n` bytes of a buffer from index `k`, right-justified and little-endian (20_memory.md R103). -/
def readBytes (m : Memory) (k n : Nat) : Word := BitVec.ofNat 32 (leNat ((List.range n).map fun j => m.read (k + j)))

/-- The defined value of a read of `n` bytes at a place (20_memory.md R107 to R109). -/
def readPlace (s : State) (n : Nat) : Place → Word
  | .reg r => readReg s r
  | .freq i => s.freq.get i 0
  | .codeLen i => codeLenWord (s.code.get i CodeEntry.none)
  | .codeBits i w => codeBitsWord (s.code.get i CodeEntry.none) w
  | .enode i w => enodeWord (enodeAt s.enode i) w
  | .dnode i w => dnodeWord (s.dnode.get i DNode.cleared) w
  | .ibuf k => readBytes s.ibuf k n
  | .obuf k => readBytes s.obuf k n

/-- The state whose reads are unspecified while a command is pending (10_state.md R63, 20_memory.md R109). -/
def Place.unspecifiedWhileBusy : Place → Bool
  | .reg .dstLen | .reg .payloadBits | .reg .encNsym | .reg .encNodes | .reg .encRoot | .reg .decNcodes
  | .reg .decNodes | .reg .decPayloadOff | .reg .decStatus => true
  | .reg .id | .reg .version | .reg .ctrl | .reg .cmd | .reg .status | .reg .errInfo | .reg .srcLen
  | .reg .paramIbuf | .reg .paramObuf | .reg .paramDnodes => false
  | .freq _ | .codeLen _ | .codeBits _ _ | .enode _ _ | .dnode _ _ | .obuf _ => true
  | .ibuf _ => false

/-- The low `n` bytes of a word, the rest 0 (20_memory.md R103). -/
def lowBytes (n : Nat) (v : Word) : Word := BitVec.ofNat 32 (v.toNat % 256 ^ n)

/-- `Read(off, size)` (20_memory.md R102): the response, and the state, in which only the count of free values drawn
can differ. -/
def busRead (size : AccessSize) (off : Word) (s : State) : Response × State :=
  match access s.cfg size off with
  | none => (⟨0, true⟩, s)
  | some (n, p) =>
    if s.status.busy && p.unspecifiedWhileBusy then
      (⟨lowBytes n (Config.freeWord s.draws), false⟩, { s with draws := s.draws + 1 })
    else (⟨readPlace s n p, false⟩, s)

/-! ### Writes -/

/-- A write that is dropped while BUSY = 1 (70_reset_and_hazards.md R460) and otherwise does `f`. -/
def unlessBusy (f : State → State) (s : State) : State := if s.status.busy then dropWrite s else f s

/-- A write of the `n` low bytes of `v` at a place (20_memory.md R108, R109, R111; 10_state.md R47). -/
def writePlace (n : Nat) (v : Word) : Place → State → State
  | .reg .ctrl => unlessBusy fun s => { s with ctrl := Ctrl.ofWord v }
  | .reg .cmd => unlessBusy (accept v)
  | .reg .status => acknowledge v
  | .reg .srcLen => unlessBusy fun s => { s with srcLen := v }
  | .ibuf k => unlessBusy fun s => { s with ibuf := s.ibuf.writeBytes k (leBytes n v.toNat) }
  | .reg .id | .reg .version | .reg .errInfo | .reg .dstLen | .reg .payloadBits | .reg .encNsym | .reg .encNodes
  | .reg .encRoot | .reg .decNcodes | .reg .decNodes | .reg .decPayloadOff | .reg .decStatus | .reg .paramIbuf
  | .reg .paramObuf | .reg .paramDnodes => fun s => s
  | .freq _ | .codeLen _ | .codeBits _ _ | .enode _ _ | .dnode _ _ | .obuf _ => fun s => s

/-- `Write(off, size, data)` (20_memory.md R102): the response and the state after it. -/
def busWrite (size : AccessSize) (off v : Word) (s : State) : Response × State :=
  match access s.cfg size off with
  | none => (⟨0, true⟩, s)
  | some (n, p) => (⟨0, false⟩, writePlace n v p s)

end Sys2Proof.Machine
end

