-- ==== Sys2Proof/Machine/HostProgram.lean ====
section
/-! DEFINITION. The host agent: one line of its program is one host step (30_encoding.md R147), and the expansions of the
pseudo-instructions (R148). -/

namespace Sys2Proof.Machine

open Sys2Proof

/-- The data named `x`; 0 for a name no read has given (log entry 5). -/
def nameValue (names : List (Nat × Word)) (x : Nat) : Word := (names.lookup x).getD 0

/-- The names with `x` given the data `v`. -/
def setName : List (Nat × Word) → Nat → Word → List (Nat × Word)
  | [], x, v => [(x, v)]
  | p :: rest, x, v => if p.1 = x then (x, v) :: rest else p :: setName rest x v

/-- The data of a write. -/
def HostValue.value (names : List (Nat × Word)) : HostValue → Word
  | .lit v => v
  | .named x => nameValue names x

/-- The host at its next line. -/
def HostAgent.next (h : HostAgent) : HostAgent := { h with line := h.line + 1 }

/-- The host at the line of a label. -/
def HostAgent.goto (h : HostAgent) (target : Nat) : HostAgent := { h with line := target }

/-- A Write line: the transaction, then the next line. -/
def hostWrite (size : AccessSize) (off v : Word) (s : State) : State :=
  let r := busWrite size off v s
  { r.2 with host := { s.host.next with response := some r.1 } }

/-- A Read line: the transaction, its data named `x`, then the next line. -/
def hostRead (size : AccessSize) (off : Word) (x : Nat) (s : State) : State :=
  let r := busRead size off s
  { r.2 with host := { s.host.next with response := some r.1, names := setName s.host.names x r.1.data } }

/-- A branch line: host behaviour, no operation of the block (30_encoding.md R147). -/
def hostBranch (taken : Bool) (target : Nat) (s : State) : State :=
  { s with host := if taken then s.host.goto target else s.host.next }

/-- One line of the host program (30_encoding.md R147). -/
def hostLine (op : HostOp) (s : State) : State :=
  match op with
  | .write size off v => hostWrite size off (v.value s.host.names) s
  | .read size off x => hostRead size off x s
  | .branchZero x mask target => hostBranch (decide (nameValue s.host.names x &&& mask = 0)) target s
  | .branchNonZero x mask target => hostBranch (decide (nameValue s.host.names x &&& mask ≠ 0)) target s

/-- The host's step: its next line, or nothing when its program has ended. -/
def hostStep (s : State) : State :=
  match s.host.program[s.host.line]? with
  | none => s
  | some op => hostLine op s

/-! ### Pseudo-instructions (30_encoding.md R148) -/

/-- `W32 off, v`. -/
def w32 (off v : Word) : HostOp := .write .word off (.lit v)

/-- `R32 off -> x`. -/
def r32 (off : Word) (x : Nat) : HostOp := .read .word off x

/-- `CMD mnemonic`. -/
def cmd (i : Instr) : List HostOp := [w32 0x00C (encode i)]

/-- `WAIT` as lines `line` and `line + 1`, with its data named `st`. -/
def wait (line st : Nat) : List HostOp := [r32 0x010 st, .branchNonZero st 0x1 line]

/-- `ACK`. -/
def acknowledgeLine : List HostOp := [w32 0x010 0x0000000E]

/-- `SETLEN n`. -/
def setLen (n : Nat) : List HostOp := [w32 0x018 (BitVec.ofNat 32 n)]

/-- `MODE REF`. -/
def modeRef : List HostOp := [w32 0x008 0x0]

/-- `MODE HARD`. -/
def modeHard : List HostOp := [w32 0x008 0x1]

/-- `LOADI k, "bytes"`: one `W8` per byte. -/
def loadI : (k : Nat) → List Byte → List HostOp
  | _, [] => []
  | k, b :: bs => .write .byte (BitVec.ofNat 32 (0x100000 + k)) (.lit (b.setWidth 32)) :: loadI (k + 1) bs

/-- `COPYOI n`: word copies OBUF → IBUF, `n` rounded up to whole words, through the name `t`. -/
def copyOI (n t : Nat) : List HostOp :=
  (List.range ((n + 3) / 4)).flatMap fun k =>
    [r32 (BitVec.ofNat 32 (0x200000 + 4 * k)) t, .write .word (BitVec.ofNat 32 (0x100000 + 4 * k)) (.named t)]

end Sys2Proof.Machine
end

