-- ==== Sys2Proof/Machine/Turns.lean ====
section
/-! DEFINITION. What each turn does: the host's next line, the core's completion, reset (10_state.md R32). -/

namespace Sys2Proof.Machine

open Sys2Proof

/-- The core's only step, the completion of the pending command (60_exceptions.md R423 step 2): the word is decoded here
(30_encoding.md R143) and its command runs whole. -/
def coreStep (s : State) : Host.Outcome State Fault Refusal :=
  match fetch s with
  | none => .fault .busyWithoutCommand
  | some v =>
    match decode v with
    | .ok i => exec i s
    | .error _ => execIllegal v s

/-- One turn. The core has a step only while BUSY = 1 (10_state.md R32, 70_reset_and_hazards.md R471). -/
def runTurn : Turn → State → Host.Outcome State Fault Refusal
  | .host, s => .next (hostStep s)
  | .core, s => if s.status.busy then coreStep s else .next s
  | .reset, s => .next (resetBlock s)

end Sys2Proof.Machine
end

