-- ==== Sys2Proof/Machine/Step.lean ====
section
/-! DEFINITION. One step of the whole system: the host's next line, the core's completion, or reset (10_state.md R32). -/

namespace Sys2Proof.Machine

open Sys2Proof

/-- One step: the next turn of the agenda. -/
def step (s : State) : Host.Outcome State Fault Refusal :=
  runTurn (takeTurn s).1 (takeTurn s).2

/-- The state in which the command word `w` has been accepted (60_exceptions.md R423 step 1) and the core's turn is
next, so that the very next step runs it (log entry 4). -/
def State.withFetchWord (s : State) (nbits w : Nat) : State :=
  { accept (BitVec.ofNat 32 (w % 2 ^ nbits)) s with agenda := .core :: s.agenda }

end Sys2Proof.Machine
end

