-- ==== Sys2Proof/Safety.lean ====
section
/-! DEFINITION. The terms that claims use: how a command completed, what a command leaves unchanged, the invariants of the
machine, trees and codes as paths, and the frame of a table and a message (30_encoding.md R160 to R169). Nothing here
is part of the machine. -/

namespace Sys2Proof.Machine

open Sys2Proof

/-! ### Completions (60_exceptions.md R423 step 2) -/

/-- `t` is `s` completed without an error, as far as STATUS, ERR_INFO and PENDING_OP go. -/
abbrev CompletedOk (s t : State) : Prop :=
  t.status = { s.status with busy := false, done := true, errCode := 0x00 } ∧ t.errInfo = s.errInfo ∧ t.pendingOp = none

/-- `t` is `s` completed with the error `code`, `info`, as far as STATUS, ERR_INFO and PENDING_OP go. -/
abbrev CompletedError (s t : State) (code : Byte) (info : Word) : Prop :=
  t.status = { s.status with busy := false, done := true, err := true, errCode := code } ∧ t.errInfo = info ∧
    t.pendingOp = none

/-! ### Frames -/

/-- CTRL, SRC_LEN, every byte of IBUF, the instance, the host and the agenda are unchanged. -/
abbrev SameOperands (s t : State) : Prop :=
  t.ctrl = s.ctrl ∧ t.srcLen = s.srcLen ∧ (∀ k, t.ibuf.read k = s.ibuf.read k) ∧ t.cfg = s.cfg ∧ t.host = s.host ∧
    t.agenda = s.agenda

/-- ENODE, ENC_NODES and ENC_ROOT are unchanged. -/
abbrev SameEncTree (s t : State) : Prop := t.enode = s.enode ∧ t.encNodes = s.encNodes ∧ t.encRoot = s.encRoot

/-- DNODE and the DEC_* registers are unchanged. -/
abbrev SameDecoder (s t : State) : Prop :=
  t.dnode = s.dnode ∧ t.decNodes = s.decNodes ∧ t.decNcodes = s.decNcodes ∧ t.decPayloadOff = s.decPayloadOff ∧
    t.decValid = s.decValid

/-- DST_LEN, PAYLOAD_BITS and every byte of OBUF are unchanged. -/
abbrev SameOutput (s t : State) : Prop :=
  t.dstLen = s.dstLen ∧ t.payloadBits = s.payloadBits ∧ ∀ k, t.obuf.read k = s.obuf.read k

/-- DST_LEN is the length of `bytes`, OBUF begins with `bytes`, and every OBUF byte from there on is unchanged. -/
abbrev HasOutput (s t : State) (bytes : List Byte) : Prop :=
  t.dstLen.toNat = bytes.length ∧ (∀ k, k < bytes.length → some (t.obuf.read k) = bytes[k]?) ∧
    ∀ k, bytes.length ≤ k → t.obuf.read k = s.obuf.read k

/-- The bytes OBUF[0 … DST_LEN−1]. -/
def output (s : State) : List Byte := (List.range s.dstLen.toNat).map s.obuf.read

/-! ### The encoder's tree and codes as paths (00_scope.md R13) -/

/-- `enode` holds a tree over `n` distinct symbols in the layout of 10_state.md R55: Leaves 0 … n−1 in ascending symbol
order, Internal nodes n … 2n−2, each with two different children of smaller index; every node but the root 2n−2 is a
child of exactly one node; the rest is cleared (42_encoder_front.md R234). -/
def IsEncTree (enode : Table ENode 511) (n : Nat) : Prop :=
  1 ≤ n ∧ n ≤ 256 ∧
    (∀ i, i < n → (enodeAt enode i).valid = true ∧ (enodeAt enode i).leaf = true ∧ (enodeAt enode i).left = 0 ∧
      (enodeAt enode i).right = 0) ∧
    (∀ i j, i < j → j < n → (enodeAt enode i).sym.toNat < (enodeAt enode j).sym.toNat) ∧
    (∀ m, n ≤ m → m < 2 * n - 1 → (enodeAt enode m).valid = true ∧ (enodeAt enode m).leaf = false ∧
      (enodeAt enode m).sym = 0 ∧ (enodeAt enode m).left.toNat < m ∧ (enodeAt enode m).right.toNat < m ∧
      (enodeAt enode m).left ≠ (enodeAt enode m).right) ∧
    (∀ i, i < 2 * n - 2 → ∃! m, n ≤ m ∧ m < 2 * n - 1 ∧
      ((enodeAt enode m).left.toNat = i ∨ (enodeAt enode m).right.toNat = i)) ∧
    ∀ i, 2 * n - 1 ≤ i → i < 511 → enodeAt enode i = ENode.cleared

/-- The node of `enode` that the path `p` leads to from node `i`, if the path stays in the tree. -/
def nodeOnPath (enode : Table ENode 511) : (i : Nat) → (p : List Bool) → Option Nat
  | i, [] => some i
  | i, b :: bs =>
    let e := enodeAt enode i
    if e.leaf then none else nodeOnPath enode (if b then e.right.toNat else e.left.toNat) bs

/-- No valid code is a prefix of another (42_encoder_front.md R243). -/
def PrefixFree (code : Table CodeEntry 256) : Prop :=
  ∀ a b, a ≠ b → (codeAt code a).valid = true → (codeAt code b).valid = true →
    ¬ (codeAt code a).path <+: (codeAt code b).path

/-- The sum of 2^(255 − LEN) over the valid codes: 2^255 times the sum of 2^(−LEN) (42_encoder_front.md R243). -/
def kraftSum (code : Table CodeEntry 256) : Nat :=
  (code.entries.map fun e => if e.valid then 2 ^ (255 - e.len.toNat) else 0).sum

/-! ### Invariants -/

/-- The handshake (60_exceptions.md R423, R425): a word is pending exactly while BUSY = 1; while it is, DONE, ERR, ERR_CODE
and ERR_INFO are 0 and LAST_OP is its opcode; and while idle, ERR_CODE = 0 comes with ERR = 0 and ERR_INFO = 0. -/
def HandshakeOk (s : State) : Prop :=
  s.status.busy = s.pendingOp.isSome ∧
    (∀ v, s.pendingOp = some v → s.status.done = false ∧ s.status.lastOp = opField v) ∧
    (s.status.busy = true → s.status.errCode = 0) ∧
    (s.status.errCode = 0 → s.status.err = false ∧ s.errInfo = 0)

/-- The parameters are in range, both buffers are in canonical form, and DST_LEN lies in OBUF (00_scope.md R10,
10_state.md R41). -/
def BuffersOk (s : State) : Prop :=
  s.cfg.wf = true ∧ s.ibuf.wf s.cfg.ibufBytes ∧ s.obuf.wf s.cfg.obufBytes ∧ s.dstLen.toNat ≤ s.cfg.obufBytes

/-- An entry of CODE is well formed (10_state.md R52): LEN is 0 exactly when VALID is 0, and BITS is 0 from LEN on. -/
def CodeEntryOk (e : CodeEntry) : Prop :=
  (e.valid = true ↔ e.len ≠ 0) ∧ ∀ j, e.len.toNat ≤ j → e.bits.getLsbD j = false

/-- The encoder's tables (10_state.md R44, R52, R55; 42_encoder_front.md R243): there is no tree, or ENODE holds one whose
size and root are in ENC_NODES and ENC_ROOT; and CODE is a prefix-free code table. -/
def EncoderOk (s : State) : Prop :=
  (s.encNodes = 0 ∨ ∃ n, IsEncTree s.enode n ∧ s.encNodes.toNat = 2 * n - 1 ∧ s.encRoot.toNat = 2 * n - 2) ∧
    (∀ b, CodeEntryOk (codeAt s.code b)) ∧ PrefixFree s.code

/-- The frequencies add up to at most IBUF_BYTES, and no weight is greater than that (00_scope.md R11). -/
def WeightsOk (s : State) : Prop :=
  (s.freq.entries.map BitVec.toNat).sum ≤ s.cfg.ibufBytes ∧ ∀ i, (enodeAt s.enode i).weight.toNat ≤ s.cfg.ibufBytes

/-- A link of DNODE entry `i` is NONE or names a later entry in use (44_decoder.md R304). -/
def LinkOk (cnt i : Nat) (c : BitVec 16) : Prop := c = DNode.noChild ∨ (i < c.toNat ∧ c.toNat < cnt)

/-- The first `cnt` entries of DNODE are in use and linked as 44_decoder.md R304 makes them: links go to later entries in use; a
LEAF has no child, an INTERNAL node has one, only the root may be EMPTY and then it is alone; the rest is cleared. -/
def DecLinksOk (dnode : Table DNode 511) (cnt : Nat) : Prop :=
  1 ≤ cnt ∧ cnt ≤ 511 ∧
    (∀ i, i < cnt →
      let e := dnode.get i DNode.cleared
      LinkOk cnt i e.left ∧ LinkOk cnt i e.right ∧
        (e.kind = .internal ↔ (e.left ≠ DNode.noChild ∨ e.right ≠ DNode.noChild)) ∧
        (e.kind = .empty → i = 0 ∧ cnt = 1)) ∧
    ∀ i, cnt ≤ i → dnode.get i DNode.cleared = DNode.cleared

/-- DNODE holds a tree of `cnt` entries (10_state.md R57): linked so, every entry in use but the root is the child of exactly
one entry, and on one side of it only. -/
def IsDecTree (dnode : Table DNode 511) (cnt : Nat) : Prop :=
  DecLinksOk dnode cnt ∧
    (∀ i, i < cnt → (dnode.get i DNode.cleared).left = (dnode.get i DNode.cleared).right →
      (dnode.get i DNode.cleared).left = DNode.noChild) ∧
    ∀ j, 1 ≤ j → j < cnt → ∃! i, i < cnt ∧
      ((dnode.get i DNode.cleared).left.toNat = j ∨ (dnode.get i DNode.cleared).right.toNat = j)

/-- The decoder's tables (10_state.md R45, R57): while DEC_VALID = 1, DNODE holds a tree of DEC_NODES entries, its root is
EMPTY exactly when no code was read and a LEAF only when one was, at most 256 codes were read, and the payload offset lies
in IBUF. -/
def DecoderOk (s : State) : Prop :=
  s.decValid = true →
    IsDecTree s.dnode s.decNodes.toNat ∧ ((dnodeAt s.dnode 0).kind = .empty ↔ s.decNcodes = 0) ∧
      ((dnodeAt s.dnode 0).kind = .leaf → s.decNcodes = 1) ∧ s.decNcodes.toNat ≤ 256 ∧ 8 ≤ s.decPayloadOff.toNat ∧
      s.decPayloadOff.toNat ≤ s.cfg.ibufBytes

/-! ### The decoder's tree as paths -/

/-- The symbol of the LEAF that the path leads to from node `p`, if every bit of it has a child and no earlier node is a
LEAF (44_decoder.md R313). -/
def leafOnPath (dnode : Table DNode 511) : (p : BitVec 16) → List Bool → Option Byte
  | p, [] => if (dnodeAt dnode p).kind = .leaf then some (dnodeAt dnode p).sym else none
  | p, b :: bs =>
    let n := dnodeAt dnode p
    if n.kind = .leaf ∨ n.child b = DNode.noChild then none else leafOnPath dnode (n.child b) bs

/-- The path leads from node `p` through nodes that are no LEAF and have the child it takes, and ends at one that is no
LEAF: a partial path (44_decoder.md R315). -/
def staysInside (dnode : Table DNode 511) : (p : BitVec 16) → List Bool → Bool
  | p, [] => decide ((dnodeAt dnode p).kind ≠ .leaf)
  | p, b :: bs =>
    let n := dnodeAt dnode p
    decide (n.kind ≠ .leaf) && decide (n.child b ≠ DNode.noChild) && staysInside dnode (n.child b) bs

/-! ### Frames as data (30_encoding.md R160 to R169) -/

/-- One table entry: a symbol and its code bits in path order. -/
abbrev Entry := Byte × List Bool

/-- The bytes of a table: numCodes, then each entry (30_encoding.md R160 to R163). -/
def tableBytes (entries : List Entry) : List Byte :=
  leBytes 8 entries.length ++
    entries.flatMap fun e => e.1 :: (leBytes 8 e.2.length ++ e.2.map fun b => if b then (0x31 : Byte) else 0x30)

/-- Payload byte `j` of a bit string: bit `i` of the string is bit 7 − (i mod 8) of byte i div 8, and the padding is 0
(30_encoding.md R164, R165). -/
def payloadByte (bits : List Bool) (j : Nat) : Byte :=
  BitVec.ofNat 8 (((List.range 8).map fun i => if bits.getD (8 * j + i) false then 2 ^ (7 - i) else 0).sum)

/-- The payload of a bit string (30_encoding.md R164, R165). -/
def payloadBytes (bits : List Bool) : List Byte := (List.range ((bits.length + 7) / 8)).map (payloadByte bits)

/-- The frame of a table and a bit string (30_encoding.md R160, R166). -/
def frameBytes (entries : List Entry) (bits : List Bool) (trailer : Bool) : List Byte :=
  tableBytes entries ++ payloadBytes bits ++ if trailer then leBytes 8 bits.length else []

/-- The valid entries of CODE in ascending symbol order (43_encoder_frame.md R263). -/
def codeEntries (code : Table CodeEntry 256) : List Entry :=
  (List.range 256).filterMap fun s =>
    let e := codeAt code (BitVec.ofNat 8 s)
    if e.valid then some (BitVec.ofNat 8 s, e.path) else none

/-- The code bits of a message under CODE (30_encoding.md R164). -/
def messageBits (code : Table CodeEntry 256) (bytes : List Byte) : List Bool :=
  bytes.flatMap fun b => (codeAt code b).path

/-- The nodes a decoding tree needs: the root and the distinct prefixes of the codes (44_decoder.md R304). -/
def nodeCount (entries : List Entry) : Nat := ([] :: entries.flatMap fun e => e.2.inits).dedup.length

/-- A legal table (30_encoding.md R172, R173): distinct symbols, codes of at most 255 bits none of which is a prefix of
another, and at most 511 tree nodes. -/
abbrev LegalTable (entries : List Entry) : Prop :=
  (entries.map Prod.fst).Nodup ∧ (∀ e ∈ entries, e.2.length ≤ 255) ∧
    entries.Pairwise (fun a b => ¬ a.2 <+: b.2 ∧ ¬ b.2 <+: a.2) ∧ nodeCount entries ≤ 511

/-- The code of a symbol in a table. -/
def entryBits (entries : List Entry) (b : Byte) : List Bool := (entries.lookup b).getD []

/-- The bits of a message under a table. -/
def entryMessage (entries : List Entry) (bytes : List Byte) : List Bool := bytes.flatMap (entryBits entries)

/-- The code table ENCODE makes for an input: BUILD and GENCODES of its frequencies, or none for the empty input
(43_encoder_frame.md R270, R271). -/
def encoderCode (bytes : List Byte) : Table CodeEntry 256 :=
  if bytes = [] then Table.fill 256 CodeEntry.none
  else codesOf (buildTree (countBytes bytes)).enode (2 * encNsym (countBytes bytes) - 2)

/-! ### The host offset map as bytes (20_memory.md R101) -/

/-- The byte at offset `a` is mapped (20_memory.md R101). -/
abbrev MappedByte (c : Config) (a : Nat) : Prop :=
  a ≤ 0x4B ∨ (0x1000 ≤ a ∧ a ≤ 0x17FF) ∨ (0x2000 ≤ a ∧ a ≤ 0x5FEF) ∨ (0x6000 ≤ a ∧ a ≤ 0x6FF7) ∨
    (0x100000 ≤ a ∧ a < 0x100000 + c.ibufBytes) ∨ (0x200000 ≤ a ∧ a < 0x200000 + c.obufBytes)

/-- An access of `n` bytes at `off` is no bus error (20_memory.md R104, R105, R106). -/
abbrev LegalAccess (c : Config) (n off : Nat) : Prop :=
  off % n = 0 ∧ (off < 0x100000 → n = 4) ∧ ∀ j, j < n → MappedByte c (off + j)

end Sys2Proof.Machine
end

