-- ==== Sys2Proof/Certificates/Slice0/Obligations.lean ====
section
/-! DEFINITION. The statements for the provers: each formalises or derives from the numbered rules of spec/ that its
docstring names. -/

open Sys2Proof Sys2Proof.Machine

/-! ### Command words (30_encoding.md) -/

/-- R142, opcode_table.json: the ten assigned words, written out, decode to their commands. -/
def Obligations.AssignedWordsDecode : Prop :=
  decode 0x00000000 = .ok .nop ∧ decode 0x00000001 = .ok .clear ∧ decode 0x00000010 = .ok .encode ∧
    decode 0x00000011 = .ok .count ∧ decode 0x00000012 = .ok .build ∧ decode 0x00000013 = .ok .gencodes ∧
    decode 0x00000014 = .ok .emit ∧ decode 0x00000020 = .ok .decode ∧ decode 0x00000021 = .ok .rebuild ∧
    decode 0x00000022 = .ok .walk

/-- R141, R143: a word decodes to a command exactly when it is that command's whole 32-bit word; in particular the
decoding of every encoding is the command itself. -/
def Obligations.DecodeMatchesWholeWord : Prop := ∀ (i : Instr) (v : Word), decode v = .ok i ↔ v = encode i

/-- R203: an accepted word with a non-zero RSVD field or an unassigned opcode completes with BAD_CMD: ERR_CODE 0x01,
ERR_INFO = V, LAST_OP = V[7:0], and nothing else of the block changes. That the core's completion is the next step, from the
agenda or when it is used up, is the model's choice (log entry 3). -/
def Obligations.IllegalWordCompletesWithBadCmd : Prop :=
  ∀ (s : State) (v : Word) (rest : List Turn), (s.agenda = [] ∧ rest = []) ∨ s.agenda = .core :: rest →
    (v.extractLsb' 8 24 ≠ 0 ∨
      v.extractLsb' 0 8 ∉ ([0x00, 0x01, 0x10, 0x11, 0x12, 0x13, 0x14, 0x20, 0x21, 0x22] : List Byte)) →
    step (accept v s) = .next
      { s with
        status := ⟨false, true, true, s.status.wbusy, 0x01, v.extractLsb' 0 8⟩
        errInfo := v
        pendingOp := none
        agenda := rest }

/-- R423 step 2, R143, R471: while BUSY = 1, the core's turn runs the command that the pending word decodes to; it comes
from the agenda, or when the agenda is used up. A word placed by `withFetchWord` runs in the very next step. -/
def Obligations.StepRunsDecodedCommand : Prop :=
  (∀ (s : State) (v : Word) (i : Instr), s.status.busy = true → s.pendingOp = some v → decode v = .ok i →
    (s.agenda = [] → step s = exec i s) ∧
      ∀ rest, s.agenda = .core :: rest → step s = exec i { s with agenda := rest }) ∧
    ∀ (s : State) (w : Nat) (i : Instr), decode (BitVec.ofNat 32 w) = .ok i →
      step (s.withFetchWord 32 w) = exec i (accept (BitVec.ofNat 32 w) s)

/-! ### The host bus (20_memory.md) -/

/-- R37, R423 step 1: a 32-bit write to CMD while idle accepts the word; a read of CMD returns 0 and has no effect; a
write while BUSY = 1 is dropped and sets WBUSY. -/
def Obligations.CmdWriteAcceptsOrIsDropped : Prop :=
  ∀ (s : State) (v : Word),
    (s.status.busy = false →
      busWrite .word 0x00C v s = (⟨0, false⟩,
        { s with
          pendingOp := some v
          status := ⟨true, false, false, s.status.wbusy, 0x00, v.extractLsb' 0 8⟩
          errInfo := 0 })) ∧
      busRead .word 0x00C s = (⟨0, false⟩, s) ∧
      (s.status.busy = true →
        busWrite .word 0x00C v s = (⟨0, false⟩, { s with status := { s.status with wbusy := true } }))

/-- R460: while BUSY = 1, legal writes to CTRL, CMD, SRC_LEN and IBUF (of any size) change nothing but WBUSY; STATUS
writes still apply; every other legal write is ignored. -/
def Obligations.WritesWhileBusy : Prop :=
  ∀ (s : State) (size : AccessSize) (n : Nat) (off v : Word), s.cfg.wf = true → s.status.busy = true →
    size.bytes = some n → LegalAccess s.cfg n off.toNat →
    ((off = 0x008 ∨ off = 0x00C ∨ off = 0x018 ∨ (0x100000 ≤ off.toNat ∧ off.toNat < 0x200000)) →
      busWrite size off v s = (⟨0, false⟩, { s with status := { s.status with wbusy := true } })) ∧
    (off = 0x010 → busWrite size off v s = (⟨0, false⟩, acknowledge v s)) ∧
    (off ≠ 0x008 → off ≠ 0x00C → off ≠ 0x010 → off ≠ 0x018 → (off.toNat < 0x100000 ∨ 0x200000 ≤ off.toNat) →
      busWrite size off v s = (⟨0, false⟩, s))

/-- R408, R104, R105, R106, R110: an access that is misaligned, of the illegal size, narrower than a word below
0x0010_0000, or that touches an unmapped byte answers err = 1, data = 0 and changes no state; every other access answers
err = 0. That the pin-level size 3 is a size of the transaction level is the model's choice (log entry 17). -/
def Obligations.BusErrorsExactly : Prop :=
  ∀ (s : State) (size : AccessSize) (off v : Word), s.cfg.wf = true →
    ((¬ ∃ n, size.bytes = some n ∧ LegalAccess s.cfg n off.toNat) →
      busRead size off s = (⟨0, true⟩, s) ∧ busWrite size off v s = (⟨0, true⟩, s)) ∧
    ((∃ n, size.bytes = some n ∧ LegalAccess s.cfg n off.toNat) →
      (busRead size off s).1.err = false ∧ (busWrite size off v s).1.err = false)

/-- R47 (its write half): a legal write that reaches neither CTRL, CMD, STATUS, SRC_LEN nor IBUF is ignored without a
bus error, busy or not. -/
def Obligations.ReadOnlyPlacesIgnoreWrites : Prop :=
  ∀ (s : State) (size : AccessSize) (n : Nat) (off v : Word), s.cfg.wf = true → size.bytes = some n →
    LegalAccess s.cfg n off.toNat → off ≠ 0x008 → off ≠ 0x00C → off ≠ 0x010 → off ≠ 0x018 →
    (off.toNat < 0x100000 ∨ 0x200000 ≤ off.toNat) → busWrite size off v s = (⟨0, false⟩, s)

/-- R107, R114: a read changes no state of the block (`draws`, the model's count of free values, is not the block's). -/
def Obligations.ReadsHaveNoSideEffect : Prop :=
  ∀ (s : State) (size : AccessSize) (off : Word), { (busRead size off s).2 with draws := s.draws } = s

/-- R38: a STATUS write clears DONE, ERR and WBUSY where its bit is 1, changes nothing else, and applies busy or not; and
a STATUS read shows the fields at their bits with the reserved bits 0. -/
def Obligations.StatusWordAndWrite : Prop :=
  ∀ (s : State) (v : Word),
    busWrite .word 0x010 v s = (⟨0, false⟩,
      { s with status := { s.status with
          done := s.status.done && !v.getLsbD 1
          err := s.status.err && !v.getLsbD 2
          wbusy := s.status.wbusy && !v.getLsbD 3 } }) ∧
    ∃ w, busRead .word 0x010 s = (⟨w, false⟩, s) ∧ w.getLsbD 0 = s.status.busy ∧ w.getLsbD 1 = s.status.done ∧
      w.getLsbD 2 = s.status.err ∧ w.getLsbD 3 = s.status.wbusy ∧ w.extractLsb' 4 4 = 0 ∧
      w.extractLsb' 8 8 = s.status.errCode ∧ w.extractLsb' 16 8 = s.status.lastOp ∧ w.extractLsb' 24 8 = 0

/-- R36, R40, R111: a CTRL write while idle keeps bits [1:0], which a read returns with the rest 0; a SRC_LEN write while
idle keeps all 32 bits, which a read returns; neither changes anything else; while BUSY = 1 both are dropped. -/
def Obligations.CtrlKeepsTwoBits : Prop :=
  ∀ (s : State) (v : Word),
    (s.status.busy = false →
      busWrite .word 0x008 v s = (⟨0, false⟩, { s with ctrl := ⟨v.getLsbD 0, v.getLsbD 1⟩ }) ∧
        (busRead .word 0x008 (busWrite .word 0x008 v s).2).1 = ⟨v &&& 3, false⟩ ∧
        busWrite .word 0x018 v s = (⟨0, false⟩, { s with srcLen := v }) ∧
        (busRead .word 0x018 (busWrite .word 0x018 v s).2).1 = ⟨v, false⟩) ∧
    (s.status.busy = true →
      busWrite .word 0x008 v s = (⟨0, false⟩, { s with status := { s.status with wbusy := true } }) ∧
        busWrite .word 0x018 v s = (⟨0, false⟩, { s with status := { s.status with wbusy := true } }))

/-- R35, R46: ID, VERSION and the PARAM registers are constants of the instance and ignore writes. -/
def Obligations.IdentityAndParameterRegisters : Prop :=
  ∀ (s : State) (v : Word), s.cfg.wf = true →
    busRead .word 0x000 s = (⟨0x48554646, false⟩, s) ∧ busRead .word 0x004 s = (⟨0x00000007, false⟩, s) ∧
    (∃ w, busRead .word 0x040 s = (⟨w, false⟩, s) ∧ w.toNat = s.cfg.ibufBytes) ∧
    (∃ w, busRead .word 0x044 s = (⟨w, false⟩, s) ∧ w.toNat = s.cfg.obufBytes) ∧
    busRead .word 0x048 s = (⟨511, false⟩, s) ∧
    ∀ off ∈ ([0x000, 0x004, 0x040, 0x044, 0x048] : List Word), busWrite .word off v s = (⟨0, false⟩, s)

/-- R108, R103: while idle, an aligned write of `n` bytes inside IBUF stores its low bytes little-endian and changes
nothing else, and a read returns them; while BUSY = 1 it changes no byte and sets WBUSY; a read returns the bytes of
IBUF at any time. -/
def Obligations.IbufWriteAndReadBack : Prop :=
  ∀ (s : State) (size : AccessSize) (n k : Nat) (v : Word), s.cfg.wf = true → size.bytes = some n → k % n = 0 →
    k + n ≤ s.cfg.ibufBytes →
    let off := BitVec.ofNat 32 (0x100000 + k)
    (s.status.busy = false →
      ∃ t, busWrite size off v s = (⟨0, false⟩, t) ∧ { t with ibuf := s.ibuf } = s ∧
        (∀ j, j < n → t.ibuf.read (k + j) = v.extractLsb' (8 * j) 8) ∧
        (∀ a, a < k ∨ k + n ≤ a → t.ibuf.read a = s.ibuf.read a) ∧
        (busRead size off t).1 = ⟨BitVec.ofNat 32 (v.toNat % 256 ^ n), false⟩) ∧
    (s.status.busy = true →
      busWrite size off v s = (⟨0, false⟩, { s with status := { s.status with wbusy := true } })) ∧
    ∃ w, busRead size off s = (⟨w, false⟩, s) ∧ (∀ j, j < n → w.extractLsb' (8 * j) 8 = s.ibuf.read (k + j)) ∧
      w.toNat < 256 ^ n

/-- R50, R52, R53, R54, R56 (their windows), R34, R39 to R45, R109, R103, R63: ERR_INFO and SRC_LEN show their values busy
or not; while idle, each result register shows its field, an aligned read inside OBUF its bytes little-endian, and the
windows FREQ, CODE, ENODE and DNODE in the layouts of those rules. -/
def Obligations.WindowsShowTheTables : Prop :=
  ∀ (s : State),
    busRead .word 0x014 s = (⟨s.errInfo, false⟩, s) ∧ busRead .word 0x018 s = (⟨s.srcLen, false⟩, s) ∧
    (s.status.busy = false →
      busRead .word 0x01C s = (⟨s.dstLen, false⟩, s) ∧ busRead .word 0x020 s = (⟨s.payloadBits, false⟩, s) ∧
      (∀ (off : Word) (n : Nat),
        (off, n) ∈ [((0x024 : Word), (List.range 256).countP fun b => decide (freqAt s.freq (BitVec.ofNat 8 b) ≠ 0)),
          (0x028, s.encNodes.toNat), (0x02C, s.encRoot.toNat), (0x030, s.decNcodes.toNat), (0x034, s.decNodes.toNat),
          (0x038, s.decPayloadOff.toNat), (0x03C, s.decValid.toNat)] →
        ∃ w, busRead .word off s = (⟨w, false⟩, s) ∧ w.toNat = n) ∧
      (∀ (size : AccessSize) (n k : Nat), s.cfg.wf = true → size.bytes = some n → k % n = 0 → k + n ≤ s.cfg.obufBytes →
        ∃ w, busRead size (BitVec.ofNat 32 (0x200000 + k)) s = (⟨w, false⟩, s) ∧
          (∀ j, j < n → w.extractLsb' (8 * j) 8 = s.obuf.read (k + j)) ∧ w.toNat < 256 ^ n) ∧
      (∀ b : Byte, (busRead .word (BitVec.ofNat 32 (0x1000 + 4 * b.toNat)) s).1 = ⟨freqAt s.freq b, false⟩) ∧
      (∀ b : Byte, ∃ w, (busRead .word (BitVec.ofNat 32 (0x1400 + 4 * b.toNat)) s).1 = ⟨w, false⟩ ∧
        w.extractLsb' 0 8 = (codeAt s.code b).len ∧ w.extractLsb' 8 23 = 0 ∧ w.getLsbD 31 = (codeAt s.code b).valid) ∧
      (∀ (b : Byte) (x : Nat), x < 8 →
        ∃ w, (busRead .word (BitVec.ofNat 32 (0x2000 + 32 * b.toNat + 4 * x)) s).1 = ⟨w, false⟩ ∧
          ∀ j, j < 32 → w.getLsbD j = (codeAt s.code b).bits.getLsbD (32 * x + j)) ∧
      (∀ i, i < 511 →
        let e := enodeAt s.enode i
        (∃ w, (busRead .word (BitVec.ofNat 32 (0x4000 + 16 * i)) s).1 = ⟨w, false⟩ ∧ w.getLsbD 0 = e.valid ∧
          w.getLsbD 1 = e.leaf ∧ w.extractLsb' 2 6 = 0 ∧ w.extractLsb' 8 8 = e.sym ∧ w.extractLsb' 16 16 = 0) ∧
        (∃ w, (busRead .word (BitVec.ofNat 32 (0x4000 + 16 * i + 4)) s).1 = ⟨w, false⟩ ∧ w.extractLsb' 0 9 = e.left ∧
          w.extractLsb' 9 7 = 0 ∧ w.extractLsb' 16 9 = e.right ∧ w.extractLsb' 25 7 = 0) ∧
        (busRead .word (BitVec.ofNat 32 (0x4000 + 16 * i + 8)) s).1 = ⟨e.weight, false⟩ ∧
        (busRead .word (BitVec.ofNat 32 (0x4000 + 16 * i + 12)) s).1 = ⟨0, false⟩) ∧
      ∀ i, i < 511 →
        let e := s.dnode.get i DNode.cleared
        (∃ w, (busRead .word (BitVec.ofNat 32 (0x6000 + 8 * i)) s).1 = ⟨w, false⟩ ∧
          w.extractLsb' 0 2 = (match e.kind with | .empty => 0 | .internal => 1 | .leaf => 2) ∧ w.extractLsb' 2 6 = 0 ∧
          w.extractLsb' 8 8 = e.sym ∧ w.extractLsb' 16 16 = 0) ∧
        ∃ w, (busRead .word (BitVec.ofNat 32 (0x6000 + 8 * i + 4)) s).1 = ⟨w, false⟩ ∧ w.extractLsb' 0 16 = e.left ∧
          w.extractLsb' 16 16 = e.right)

/-- R63 (log entry 7): while BUSY = 1, what a read of a result register, a window or OBUF answers does not depend on the
tables, the results or OBUF: two busy states of one instance with the same count of draws answer alike. -/
def Obligations.BusyReadsRevealNothing : Prop :=
  ∀ (s t : State) (size : AccessSize) (off : Word), s.status.busy = true → t.status.busy = true → t.cfg = s.cfg →
    t.draws = s.draws →
    ((0x01C ≤ off.toNat ∧ off.toNat < 0x040) ∨ (0x1000 ≤ off.toNat ∧ off.toNat < 0x100000) ∨ 0x200000 ≤ off.toNat) →
    (busRead size off t).1 = (busRead size off s).1

/-- R119, R111: a host step while BUSY = 1 changes nothing that the pending command reads or writes, nor the pending
word. -/
def Obligations.HostStepsKeepPendingCommand : Prop :=
  ∀ (s : State), s.status.busy = true →
    ∃ st h d, hostStep s = { s with status := st, host := h, draws := d } ∧ st.busy = true ∧
      st.errCode = s.status.errCode ∧ st.lastOp = s.status.lastOp

/-- R147: one step of the host is one line of its program: a transaction with its response and named data, or a branch,
which touches no state of the block. -/
def Obligations.HostStepIsOneLine : Prop :=
  ∀ (s : State) (h : HostAgent), s.host = h →
    (∀ size off v, h.program[h.line]? = some (.write size off (.lit v)) →
      hostStep s = { (busWrite size off v s).2 with
        host := { h with line := h.line + 1, response := some (busWrite size off v s).1 } }) ∧
    (∀ size off x, h.program[h.line]? = some (.read size off x) →
      ∃ ns, ns.lookup x = some (busRead size off s).1.data ∧ (∀ y, y ≠ x → ns.lookup y = h.names.lookup y) ∧
        hostStep s = { (busRead size off s).2 with
          host := { h with line := h.line + 1, names := ns, response := some (busRead size off s).1 } }) ∧
    (∀ x mask target w, h.names.lookup x = some w → h.program[h.line]? = some (.branchZero x mask target) →
      hostStep s = { s with host := { h with line := if w &&& mask = 0 then target else h.line + 1 } }) ∧
    ∀ x mask target w, h.names.lookup x = some w → h.program[h.line]? = some (.branchNonZero x mask target) →
      hostStep s = { s with host := { h with line := if w &&& mask ≠ 0 then target else h.line + 1 } }

/-! ### Reset (10_state.md R62, 70_reset_and_hazards.md R450) -/

/-- R62: the state after reset, for every instance. IBUF and OBUF are unspecified, so nothing is said of their bytes. -/
def Obligations.ResetValues : Prop :=
  ∀ (c : Config),
    let s := State.powerUp c
    s.ctrl = ⟨true, false⟩ ∧ s.status = ⟨false, false, false, false, 0, 0⟩ ∧ s.errInfo = 0 ∧ s.srcLen = 0 ∧
      s.dstLen = 0 ∧ s.payloadBits = 0 ∧ (∀ b, freqAt s.freq b = 0) ∧ (∀ b, codeAt s.code b = ⟨false, 0, 0⟩) ∧
      (∀ i, enodeAt s.enode i = ⟨false, false, 0, 0, 0, 0⟩) ∧ s.encNodes = 0 ∧ s.encRoot = 0 ∧
      (∀ i, dnodeAt s.dnode i = ⟨.empty, 0, 0xFFFF, 0xFFFF⟩) ∧ s.decNodes = 0 ∧ s.decNcodes = 0 ∧
      s.decPayloadOff = 0 ∧ s.decValid = false ∧ s.pendingOp = none ∧ s.irq = false

/-- R450, R452: a reset step gives every component its reset value, whatever was pending, and keeps the bytes of IBUF and
OBUF. The value it gives the hidden working registers, which R62 calls not meaningful while idle, is the model's choice (log
entry 10); that the agenda has the reset turn, and that the host, the agenda and the draws are set aside, are the model's too
(log entries 3 and 14). -/
def Obligations.ResetStepAbortsAndKeepsBuffers : Prop :=
  ∀ (s : State) (rest : List Turn), s.agenda = .reset :: rest →
    ∃ t, step s = .next t ∧ (∀ k, t.ibuf.read k = s.ibuf.read k) ∧ (∀ k, t.obuf.read k = s.obuf.read k) ∧
      t.cfg = s.cfg ∧
      { t with ibuf := ⟨[], 0⟩, obuf := ⟨[], 1⟩, host := ⟨[], 0, [], none⟩, agenda := [], draws := 2 } =
        State.powerUp s.cfg

/-! ### Every command -/

/-- R410, R423, R402: every command completes from every state: BUSY falls, DONE is set, no word is pending, LAST_OP and
WBUSY stay, and it reports either no error or one of the codes of R402. -/
def Obligations.EveryCommandCompletes : Prop :=
  ∀ (i : Instr) (s : State), ∃ t, exec i s = .next t ∧
    (CompletedOk s t ∨
      ∃ code ∈ ([0x10, 0x11, 0x20, 0x21, 0x22, 0x30, 0x31, 0x32, 0x33, 0x34, 0x35, 0x36, 0x37, 0x38, 0x39] : List Byte),
        ∃ info, CompletedError s t code info)

/-- R113, R146: no command changes CTRL, SRC_LEN or a byte of IBUF (nor the instance, the host or the agenda). -/
def Obligations.CommandsKeepTheirOperands : Prop :=
  ∀ (i : Instr) (s t : State), exec i s = .next t → SameOperands s t

/-- R146 (its write columns): FREQ is written by COUNT, ENCODE and CLEAR only; the encoder tree by BUILD, ENCODE and CLEAR
only; CODE by GENCODES, ENCODE and CLEAR only; the decoder's tables by REBUILD, DECODE and CLEAR only; OBUF by EMIT,
ENCODE, WALK and DECODE only, and DST_LEN and PAYLOAD_BITS by those and CLEAR only. -/
def Obligations.CommandsWriteOnlyTheirTables : Prop :=
  ∀ (i : Instr) (s t : State), exec i s = .next t →
    (i ≠ .count → i ≠ .encode → i ≠ .clear → t.freq = s.freq) ∧
    (i ≠ .build → i ≠ .encode → i ≠ .clear → SameEncTree s t) ∧
    (i ≠ .gencodes → i ≠ .encode → i ≠ .clear → t.code = s.code) ∧
    (i ≠ .rebuild → i ≠ .decode → i ≠ .clear → SameDecoder s t) ∧
    (i ≠ .emit → i ≠ .encode → i ≠ .walk → i ≠ .decode → ∀ k, t.obuf.read k = s.obuf.read k) ∧
    (i ≠ .emit → i ≠ .encode → i ≠ .walk → i ≠ .decode → i ≠ .clear →
      t.dstLen = s.dstLen ∧ t.payloadBits = s.payloadBits)

/-- R420, R421: irq is IRQ_EN after every completion, with or without error; it falls with a STATUS write that clears DONE
and with an accept; enabling it while DONE = 1 raises it at once and leaves DONE. -/
def Obligations.CompletionInterrupt : Prop :=
  (∀ (i : Instr) (s t : State), exec i s = .next t → t.irq = s.ctrl.irqEn ∧ t.status.done = true) ∧
    (∀ (s : State) (v : Word), v.getLsbD 1 = true → (busWrite .word 0x010 v s).2.irq = false) ∧
    (∀ (s : State) (v : Word), s.status.busy = false → (busWrite .word 0x00C v s).2.irq = false) ∧
    ∀ (s : State) (v : Word), s.status.busy = false →
      (busWrite .word 0x008 v s).2.status.done = s.status.done ∧
        (s.status.done = true → (busWrite .word 0x008 v s).2.irq = v.getLsbD 1)

/-- R60: no command reads the live set, the bit accumulator, the walk position or the seen set that an earlier command
left. -/
def Obligations.HiddenWorkIsNeverRead : Prop :=
  ∀ (i : Instr) (s : State) (w : Work), ∃ t u, exec i s = .next t ∧ exec i { s with work := w } = .next u ∧
    { u with work := t.work } = t

/-! ### Invariants -/

/-- The invariants hold after reset, on every instance whose parameters are in range. -/
def Obligations.ResetMeetsTheInvariants : Prop :=
  ∀ (c : Config), c.wf = true → HandshakeOk (State.powerUp c) ∧ BuffersOk (State.powerUp c) ∧
    EncoderOk (State.powerUp c) ∧ WeightsOk (State.powerUp c) ∧ DecoderOk (State.powerUp c)

/-- R410: from a state whose handshake is in order, every step answers a next state. -/
def Obligations.MachineNeverStops : Prop := ∀ (s : State), HandshakeOk s → ∃ t, step s = .next t

/-- R423, R425, R407: every step keeps the handshake in order. -/
def Obligations.StepKeepsHandshake : Prop := ∀ (s t : State), HandshakeOk s → step s = .next t → HandshakeOk t

/-- R41, R58, R59: every step keeps the buffers in canonical form inside their capacities, and DST_LEN inside OBUF. The
canonical form, written bytes at strictly rising indices, is the model's representation (log entry 1). -/
def Obligations.StepKeepsBuffers : Prop := ∀ (s t : State), BuffersOk s → step s = .next t → BuffersOk t

/-- R44, R52, R55, R243: every step keeps the encoder's tree a tree and CODE a prefix-free code table. -/
def Obligations.StepKeepsEncoderTables : Prop := ∀ (s t : State), EncoderOk s → step s = .next t → EncoderOk t

/-- R11: every step keeps the sum of the frequencies and every weight within IBUF_BYTES. -/
def Obligations.StepKeepsWeights : Prop := ∀ (s t : State), WeightsOk s → step s = .next t → WeightsOk t

/-- R57: every step keeps the decoder's tree a tree whose links stay in use, each entry but the root the child of exactly
one, with an EMPTY root exactly when DEC_NCODES = 0, while DEC_VALID = 1. -/
def Obligations.StepKeepsDecoderTree : Prop := ∀ (s t : State), DecoderOk s → step s = .next t → DecoderOk t

/-! ### NOP, CLEAR (41_control_commands.md) -/

/-- R201: NOP completes without an error and changes nothing else; after its own accept ERR, ERR_CODE, LAST_OP and ERR_INFO are
0 and DONE is 1. -/
def Obligations.NopOnlyCompletes : Prop :=
  ∀ (s : State),
    exec .nop s = .next
      { s with status := { s.status with busy := false, done := true, errCode := 0x00 }, pendingOp := none } ∧
    exec .nop (accept 0x00000000 s) = .next
      { s with status := ⟨false, true, false, s.status.wbusy, 0x00, 0x00⟩, errInfo := 0, pendingOp := none }

/-- R202: CLEAR gives every table and result register its reset value and keeps CTRL, SRC_LEN, IBUF, OBUF and WBUSY. -/
def Obligations.ClearResetsTheTables : Prop :=
  ∀ (s : State), ∃ t, exec .clear s = .next t ∧ CompletedOk s t ∧ SameOperands s t ∧
    (∀ k, t.obuf.read k = s.obuf.read k) ∧ t.work = s.work ∧ (∀ b, freqAt t.freq b = 0) ∧
    (∀ b, codeAt t.code b = ⟨false, 0, 0⟩) ∧ (∀ i, enodeAt t.enode i = ⟨false, false, 0, 0, 0, 0⟩) ∧
    (∀ i, dnodeAt t.dnode i = ⟨.empty, 0, 0xFFFF, 0xFFFF⟩) ∧ t.encNodes = 0 ∧ t.encRoot = 0 ∧ t.decNodes = 0 ∧
    t.decNcodes = 0 ∧ t.decPayloadOff = 0 ∧ t.decValid = false ∧ t.dstLen = 0 ∧ t.payloadBits = 0

/-! ### COUNT, BUILD, GENCODES (42_encoder_front.md) -/

/-- R221, R222: COUNT gives FREQ[b] the number of times b occurs in IBUF[0 … SRC_LEN−1]; when SRC_LEN > IBUF_BYTES it
completes with error SRC_LEN and FREQ keeps its old value; nothing else changes. -/
def Obligations.CountCountsTheInput : Prop :=
  ∀ (s : State),
    (s.srcLen.toNat ≤ s.cfg.ibufBytes →
      ∃ t, exec .count s = .next t ∧ CompletedOk s t ∧ (∀ b, (freqAt t.freq b).toNat = (input s).count b) ∧
        SameOperands s t ∧ SameEncTree s t ∧ t.code = s.code ∧ SameDecoder s t ∧ SameOutput s t ∧ t.work = s.work) ∧
    (s.cfg.ibufBytes < s.srcLen.toNat →
      ∃ t, exec .count s = .next t ∧ CompletedError s t 0x10 s.srcLen ∧ t.freq = s.freq ∧ SameOperands s t ∧
        SameEncTree s t ∧ t.code = s.code ∧ SameDecoder s t ∧ SameOutput s t ∧ t.work = s.work)

/-- R51: after a successful COUNT or ENCODE the frequencies add up to SRC_LEN. -/
def Obligations.FrequenciesSumToSrcLen : Prop :=
  ∀ (s t : State) (i : Instr), i = .count ∨ i = .encode → exec i s = .next t → t.status.errCode = 0 →
    (t.freq.entries.map BitVec.toNat).sum = s.srcLen.toNat ∧ (s.srcLen = 0 → ∀ b, freqAt t.freq b = 0)

/-- R230, R44: BUILD over n ≥ 1 distinct symbols completes; ENC_NODES = 2n − 1, ENC_ROOT is 0 for n = 1 and else 2n − 2;
each symbol that occurs has its Leaf with its frequency; nothing but the tree changes. -/
def Obligations.BuildCompletes : Prop :=
  ∀ (s : State),
    let n := encNsym s.freq
    n ≠ 0 →
    ∃ t, exec .build s = .next t ∧ CompletedOk s t ∧ t.encNodes.toNat = 2 * n - 1 ∧
      t.encRoot.toNat = (if n = 1 then 0 else 2 * n - 2) ∧
      (∀ b, freqAt s.freq b ≠ 0 → ∃ i, i < n ∧ enodeAt t.enode i = ⟨true, true, b, 0, 0, freqAt s.freq b⟩) ∧
      SameOperands s t ∧ t.freq = s.freq ∧ t.code = s.code ∧ SameDecoder s t ∧ SameOutput s t ∧
      { t.work with live := s.work.live } = s.work

/-- R234: what BUILD makes from frequencies that add up below 2^32 is a tree in the layout of R55; every Internal node's
weight is the sum of its children's, the left child's is not greater than the right one's, and the root's is the sum of
all frequencies. -/
def Obligations.BuildMakesTree : Prop :=
  ∀ (s t : State),
    let n := encNsym s.freq
    n ≠ 0 → (s.freq.entries.map BitVec.toNat).sum < 2 ^ 32 → exec .build s = .next t →
    IsEncTree t.enode n ∧
      (∀ m, n ≤ m → m < 2 * n - 1 →
        let e := enodeAt t.enode m
        let l := enodeAt t.enode e.left.toNat
        let r := enodeAt t.enode e.right.toNat
        e.weight.toNat = l.weight.toNat + r.weight.toNat ∧ l.weight.toNat ≤ r.weight.toNat) ∧
      (enodeAt t.enode (2 * n - 2)).weight.toNat = (s.freq.entries.map BitVec.toNat).sum

/-- R231, R232: merge m takes the two nodes with the least keys (WEIGHT, index) among the nodes made before it that no
earlier merge has taken, two different ones; the least is its LEFT child. -/
def Obligations.BuildMergesTheLeastKeys : Prop :=
  ∀ (s t : State),
    let n := encNsym s.freq
    let left := fun m => (enodeAt t.enode m).left.toNat
    let right := fun m => (enodeAt t.enode m).right.toNat
    let weight := fun i => (enodeAt t.enode i).weight.toNat
    let less := fun i j => weight i < weight j ∨ (weight i = weight j ∧ i < j)
    let free := fun m i => i < m ∧ ∀ k, n ≤ k → k < m → left k ≠ i ∧ right k ≠ i
    n ≠ 0 → exec .build s = .next t →
    ∀ m, n ≤ m → m < 2 * n - 1 →
      free m (left m) ∧ free m (right m) ∧ left m ≠ right m ∧ (∀ i, free m i → i = left m ∨ less (left m) i) ∧
        ∀ i, free m i → i = left m ∨ i = right m ∨ less (right m) i

/-- R235, R244: BUILD is a function of FREQ alone, and GENCODES of ENODE, ENC_NODES and ENC_ROOT alone. -/
def Obligations.BuildAndGencodesAreFunctions : Prop :=
  (∀ (s s' t t' : State), s'.freq = s.freq → encNsym s.freq ≠ 0 → exec .build s = .next t → exec .build s' = .next t' →
    SameEncTree t t') ∧
  ∀ (s s' t t' : State), SameEncTree s s' → s.encNodes ≠ 0 → exec .gencodes s = .next t → exec .gencodes s' = .next t' →
    t'.code = t.code

/-- R241, R242: over a tree of n ≥ 1 Leaves GENCODES completes; CODE has a code for exactly the symbols of the Leaves; for
n ≥ 2 it is the path from the root to that Leaf, for n = 1 it is "0"; nothing but CODE changes. -/
def Obligations.GencodesRecordsRootPaths : Prop :=
  ∀ (s : State) (n : Nat), IsEncTree s.enode n → s.encNodes.toNat = 2 * n - 1 → s.encRoot.toNat = 2 * n - 2 →
    ∃ t, exec .gencodes s = .next t ∧ CompletedOk s t ∧
      (∀ b, (codeAt t.code b).valid = true ↔ ∃ i, i < n ∧ (enodeAt s.enode i).sym = b) ∧
      (∀ b, (codeAt t.code b).valid = false → codeAt t.code b = ⟨false, 0, 0⟩) ∧
      (∀ b, (codeAt t.code b).valid = true → CodeEntryOk (codeAt t.code b) ∧
        (n = 1 → (codeAt t.code b).path = [false]) ∧
        (2 ≤ n → ∃ i, i < n ∧ (enodeAt s.enode i).sym = b ∧
          nodeOnPath s.enode (2 * n - 2) (codeAt t.code b).path = some i)) ∧
      SameOperands s t ∧ t.freq = s.freq ∧ SameEncTree s t ∧ SameDecoder s t ∧ SameOutput s t ∧ t.work = s.work

/-- R243 (all but its last point): the code table of a tree with n Leaves has n codes, each of 1 to n − 1 bits (1 bit for
n = 1), is prefix-free, and for n ≥ 2 is complete: its Kraft sum is 1; for n = 1 the sum is 1/2. -/
def Obligations.GencodesIsACompletePrefixCode : Prop :=
  ∀ (s t : State) (n : Nat), IsEncTree s.enode n → s.encNodes.toNat = 2 * n - 1 → s.encRoot.toNat = 2 * n - 2 →
    exec .gencodes s = .next t →
    codeCount t.code = n ∧ PrefixFree t.code ∧
      (∀ b, (codeAt t.code b).valid = true →
        1 ≤ (codeAt t.code b).len.toNat ∧ (codeAt t.code b).len.toNat ≤ (if n = 1 then 1 else n - 1)) ∧
      kraftSum t.code = (if n = 1 then 2 ^ 254 else 2 ^ 255)

/-- R456, R230, R240, R311, R405: BUILD with no frequency, GENCODES with no tree and WALK with no decoder tree complete with
EMPTY_FREQ, NO_TREE and NO_DEC_TREE, ERR_INFO = 0, and keep every table and OBUF; WALK also zeroes DST_LEN and
PAYLOAD_BITS. -/
def Obligations.OutOfOrderCommandsReport : Prop :=
  ∀ (s : State),
    ((∀ b, freqAt s.freq b = 0) →
      ∃ t, exec .build s = .next t ∧ CompletedError s t 0x20 0 ∧ t.freq = s.freq ∧ SameEncTree s t ∧ t.code = s.code ∧
        SameDecoder s t ∧ SameOutput s t ∧ SameOperands s t) ∧
    (s.encNodes = 0 →
      ∃ t, exec .gencodes s = .next t ∧ CompletedError s t 0x21 0 ∧ t.freq = s.freq ∧ SameEncTree s t ∧
        t.code = s.code ∧ SameDecoder s t ∧ SameOutput s t ∧ SameOperands s t) ∧
    (s.srcLen.toNat ≤ s.cfg.ibufBytes → s.decValid = false →
      ∃ t, exec .walk s = .next t ∧ CompletedError s t 0x37 0 ∧ t.dstLen = 0 ∧ t.payloadBits = 0 ∧
        (∀ k, t.obuf.read k = s.obuf.read k) ∧ t.freq = s.freq ∧ SameEncTree s t ∧ t.code = s.code ∧ SameDecoder s t ∧
        SameOperands s t)

/-! ### EMIT, ENCODE (43_encoder_frame.md) -/

/-- R262 to R266, R160 to R169: with a code for every input byte and room for the frame, EMIT writes the frame of the valid
codes and the input's code bits; DST_LEN is its length, 8 + Σ(9 + LEN) + ceil8(total) + 8·TRAILER, and PAYLOAD_BITS is the
number of code bits; OBUF above it and everything else is unchanged. -/
def Obligations.EmitWritesTheFrame : Prop :=
  ∀ (s : State),
    let entries := codeEntries s.code
    let bits := messageBits s.code (input s)
    let frame := frameBytes entries bits s.ctrl.trailer
    s.cfg.wf = true → s.srcLen.toNat ≤ s.cfg.ibufBytes → (∀ b ∈ input s, (codeAt s.code b).valid = true) →
    frame.length ≤ s.cfg.obufBytes →
    ∃ t, exec .emit s = .next t ∧ CompletedOk s t ∧ HasOutput s t frame ∧ t.payloadBits.toNat = bits.length ∧
      frame.length = 8 + (entries.map fun e => 9 + e.2.length).sum + (bits.length + 7) / 8 +
        (if s.ctrl.trailer then 8 else 0) ∧
      SameOperands s t ∧ t.freq = s.freq ∧ SameEncTree s t ∧ t.code = s.code ∧ SameDecoder s t

/-- R262, R264, R261, R405, R406: EMIT's errors. SRC_LEN comes before any output, so OBUF is unchanged. A byte b = IBUF[j]
without a code, met when the header and the full payload bytes before it fit, is NO_CODE with ERR_INFO = b·2^24 + j; when
they do not fit, the overflow comes first and is DST_OVERFLOW with ERR_INFO = OBUF_BYTES. A frame longer than OBUF, all of whose
bytes have codes, is DST_OVERFLOW too. Each leaves DST_LEN and PAYLOAD_BITS 0 and the tables unchanged. -/
def Obligations.EmitErrors : Prop :=
  ∀ (s : State),
    let entries := codeEntries s.code
    let same := fun (t : State) => t.dstLen = 0 ∧ t.payloadBits = 0 ∧ SameOperands s t ∧ t.freq = s.freq ∧
      SameEncTree s t ∧ t.code = s.code ∧ SameDecoder s t
    (s.cfg.ibufBytes < s.srcLen.toNat →
      ∃ t, exec .emit s = .next t ∧ CompletedError s t 0x10 s.srcLen ∧ same t ∧
        ∀ k, t.obuf.read k = s.obuf.read k) ∧
    (∀ pre b post, s.srcLen.toNat ≤ s.cfg.ibufBytes → input s = pre ++ b :: post →
      (∀ c ∈ pre, (codeAt s.code c).valid = true) → (codeAt s.code b).valid = false →
      let before := (tableBytes entries).length + (messageBits s.code pre).length / 8
      (before ≤ s.cfg.obufBytes →
        ∃ t, exec .emit s = .next t ∧
          CompletedError s t 0x22 (BitVec.ofNat 32 (b.toNat * 2 ^ 24 + pre.length)) ∧ same t) ∧
      (s.cfg.obufBytes < before →
        ∃ t, exec .emit s = .next t ∧ CompletedError s t 0x11 (BitVec.ofNat 32 s.cfg.obufBytes) ∧ same t)) ∧
    (s.srcLen.toNat ≤ s.cfg.ibufBytes → (∀ b ∈ input s, (codeAt s.code b).valid = true) →
      s.cfg.obufBytes < (frameBytes entries (messageBits s.code (input s)) s.ctrl.trailer).length →
      ∃ t, exec .emit s = .next t ∧ CompletedError s t 0x11 (BitVec.ofNat 32 s.cfg.obufBytes) ∧ same t)

/-- R270: on a non-empty input that fits, ENCODE ends exactly where COUNT, BUILD, GENCODES and EMIT run one after the other
end, and the first three of them succeed. -/
def Obligations.EncodeIsItsStages : Prop :=
  ∀ (s : State), s.srcLen.toNat ≤ s.cfg.ibufBytes → s.srcLen ≠ 0 →
    ∃ t1 t2 t3, exec .count s = .next t1 ∧ CompletedOk s t1 ∧ exec .build t1 = .next t2 ∧ CompletedOk t1 t2 ∧
      exec .gencodes t2 = .next t3 ∧ CompletedOk t2 t3 ∧ exec .encode s = exec .emit t3

/-- R270, R271, R272: when the frame of the input under the code of BUILD and GENCODES fits OBUF, ENCODE completes with that
frame in OBUF, its code in CODE, and as many codes as distinct input bytes; for the empty input the tables are cleared and
the frame has no entry and no payload. -/
def Obligations.EncodeWritesTheFrame : Prop :=
  ∀ (s : State),
    let code := encoderCode (input s)
    let bits := messageBits code (input s)
    let frame := frameBytes (codeEntries code) bits s.ctrl.trailer
    s.cfg.wf = true → s.srcLen.toNat ≤ s.cfg.ibufBytes → frame.length ≤ s.cfg.obufBytes →
    ∃ t, exec .encode s = .next t ∧ CompletedOk s t ∧ HasOutput s t frame ∧ t.payloadBits.toNat = bits.length ∧
      t.code = code ∧ (∀ b, (freqAt t.freq b).toNat = (input s).count b) ∧ codeCount t.code = encNsym t.freq ∧
      (s.srcLen ≠ 0 → t.encNodes.toNat = 2 * encNsym t.freq - 1) ∧
      (s.srcLen = 0 → t.encNodes = 0 ∧ t.encRoot = 0 ∧ (∀ i, enodeAt t.enode i = ENode.cleared) ∧
        frame = if s.ctrl.trailer then List.replicate 16 0 else List.replicate 8 0) ∧
      SameOperands s t ∧ SameDecoder s t

/-- R270, R405 (the ENCODE row): after SRC_LEN nothing changes but DST_LEN and PAYLOAD_BITS, which are 0; after DST_OVERFLOW
FREQ and CODE hold the values of this input, the tree is the one COUNT and BUILD make of it (cleared for the empty input),
and DST_LEN and PAYLOAD_BITS are 0. -/
def Obligations.EncodeErrors : Prop :=
  ∀ (s : State),
    (s.cfg.ibufBytes < s.srcLen.toNat →
      ∃ t, exec .encode s = .next t ∧ CompletedError s t 0x10 s.srcLen ∧ t.dstLen = 0 ∧ t.payloadBits = 0 ∧
        (∀ k, t.obuf.read k = s.obuf.read k) ∧ SameOperands s t ∧ t.freq = s.freq ∧ SameEncTree s t ∧
        t.code = s.code ∧ SameDecoder s t) ∧
    (let code := encoderCode (input s)
     s.srcLen.toNat ≤ s.cfg.ibufBytes →
     s.cfg.obufBytes < (frameBytes (codeEntries code) (messageBits code (input s)) s.ctrl.trailer).length →
      ∃ t, exec .encode s = .next t ∧ CompletedError s t 0x11 (BitVec.ofNat 32 s.cfg.obufBytes) ∧ t.dstLen = 0 ∧
        t.payloadBits = 0 ∧ t.code = code ∧ (∀ b, (freqAt t.freq b).toNat = (input s).count b) ∧
        (s.srcLen ≠ 0 → ∃ t1 t2, exec .count s = .next t1 ∧ exec .build t1 = .next t2 ∧ SameEncTree t2 t) ∧
        (s.srcLen = 0 → t.encNodes = 0 ∧ t.encRoot = 0 ∧ ∀ i, enodeAt t.enode i = ENode.cleared) ∧
        SameOperands s t ∧ SameDecoder s t)

/-! ### REBUILD, WALK, DECODE (44_decoder.md) -/

/-- R301 to R305, R173, R304: REBUILD accepts every legal table that fits below the limit L: DEC_NCODES is its number of
entries, DEC_PAYLOAD_OFF its length, DEC_NODES the number of distinct prefixes of its codes, and in DNODE the path of each
code leads to the LEAF of its symbol; nothing but the decoder's tables changes. -/
def Obligations.RebuildAcceptsLegalTables : Prop :=
  ∀ (s : State) (entries : List Entry) (rest : List Byte), LegalTable entries → s.srcLen.toNat ≤ s.cfg.ibufBytes →
    input s = tableBytes entries ++ rest → (s.ctrl.trailer = true → 8 ≤ rest.length) →
    ∃ t, exec .rebuild s = .next t ∧ CompletedOk s t ∧ t.decValid = true ∧ t.decNcodes.toNat = entries.length ∧
      t.decPayloadOff.toNat = (tableBytes entries).length ∧ t.decNodes.toNat = nodeCount entries ∧
      (∀ e ∈ entries, leafOnPath t.dnode 0 e.2 = some e.1) ∧ IsDecTree t.dnode (nodeCount entries) ∧
      SameOperands s t ∧ t.freq = s.freq ∧ SameEncTree s t ∧ t.code = s.code ∧ SameOutput s t

/-- R301, R302, R404, R405 (the REBUILD row): the errors before the first entry, in the order of their checks: SRC_LEN,
BAD_TRAILER with SRC_LEN < 8 in hardened mode, TRUNC_TABLE for numCodes, BAD_NUMCODES. -/
def Obligations.RebuildHeaderErrors : Prop :=
  ∀ (s : State),
    let limit := if s.ctrl.trailer then s.srcLen.toNat - 8 else s.srcLen.toNat
    let fails := fun (code : Byte) (info : Word) => ∃ t, exec .rebuild s = .next t ∧ CompletedError s t code info ∧
      t.decValid = false ∧ SameOutput s t ∧ SameOperands s t ∧ t.freq = s.freq ∧ SameEncTree s t ∧ t.code = s.code
    (s.cfg.ibufBytes < s.srcLen.toNat → fails 0x10 s.srcLen) ∧
    (s.srcLen.toNat ≤ s.cfg.ibufBytes →
      (s.ctrl.trailer = true → s.srcLen.toNat < 8 → fails 0x38 s.srcLen) ∧
      ((s.ctrl.trailer = true → 8 ≤ s.srcLen.toNat) →
        (limit < 8 → fails 0x30 0) ∧
        (8 ≤ limit → 256 < leNat ((input s).take 8) → fails 0x31 0)))

/-- R303, R406: after entries that form a legal table, the errors of the next entry's fields in the order of their checks:
TRUNC_TABLE at the symbol byte, DUP_SYMBOL, TRUNC_TABLE at the length field, BAD_CODELEN, TRUNC_TABLE for the code bytes,
BAD_CODECHAR. -/
def Obligations.RebuildFieldErrors : Prop :=
  ∀ (s : State) (num : Nat) (entries : List Entry) (rest : List Byte), LegalTable entries → entries.length < num →
    num ≤ 256 → s.srcLen.toNat ≤ s.cfg.ibufBytes →
    input s = leBytes 8 num ++ (tableBytes entries).drop 8 ++ rest →
    (s.ctrl.trailer = true → (tableBytes entries).length + 8 ≤ s.srcLen.toNat) →
    let limit := if s.ctrl.trailer then s.srcLen.toNat - 8 else s.srcLen.toNat
    let pos := (tableBytes entries).length
    let fails := fun (code : Byte) (info : Nat) => ∃ t, exec .rebuild s = .next t ∧
      CompletedError s t code (BitVec.ofNat 32 info) ∧ t.decValid = false
    (limit = pos → fails 0x30 pos) ∧
    ∀ sym more, rest = sym :: more → pos < limit →
      (sym ∈ entries.map Prod.fst → fails 0x34 pos) ∧
      (sym ∉ entries.map Prod.fst →
        (limit < pos + 9 → fails 0x30 (pos + 1)) ∧
        (pos + 9 ≤ limit →
          let len := leNat (more.take 8)
          (255 < len → fails 0x32 (pos + 1)) ∧
          (len ≤ 255 → limit < pos + 9 + len → fails 0x30 (pos + 1)) ∧
          (len ≤ 255 → pos + 9 + len ≤ limit →
            ∀ i, i < len → (∀ c ∈ (more.drop 8).take i, c = 0x30 ∨ c = 0x31) →
              (∀ c, more[8 + i]? = some c → c ≠ 0x30 ∧ c ≠ 0x31) → fails 0x33 (pos + 9 + i))))

/-- R304: after entries that form a legal table, an entry of a new symbol whose code is a prefix of an earlier code, or has
an earlier code as a prefix, is PREFIX_CONFLICT; one that is no such conflict but needs more than 511 tree nodes is
NODE_OVERFLOW; ERR_INFO is the offset of its symbol byte. -/
def Obligations.RebuildConflictErrors : Prop :=
  ∀ (s : State) (num : Nat) (entries : List Entry) (e : Entry) (rest : List Byte), LegalTable entries →
    entries.length < num → num ≤ 256 → s.srcLen.toNat ≤ s.cfg.ibufBytes →
    input s = leBytes 8 num ++ (tableBytes (entries ++ [e])).drop 8 ++ rest →
    (s.ctrl.trailer = true → 8 ≤ rest.length) → e.1 ∉ entries.map Prod.fst → e.2.length ≤ 255 →
    let fails := fun (code : Byte) => ∃ t, exec .rebuild s = .next t ∧
      CompletedError s t code (BitVec.ofNat 32 (tableBytes entries).length) ∧ t.decValid = false
    ((∃ a ∈ entries, a.2 <+: e.2 ∨ e.2 <+: a.2) → fails 0x35) ∧
    ((∀ a ∈ entries, ¬ a.2 <+: e.2 ∧ ¬ e.2 <+: a.2) → 511 < nodeCount (entries ++ [e]) → fails 0x36)

/-- R311 to R313, R315: with a decoder tree whose root is no LEAF, when the payload bits are paths to LEAFs followed by a
partial path (none in hardened mode) and the symbols fit OBUF, WALK writes those symbols in order; DST_LEN is their number,
PAYLOAD_BITS the number of payload bits; OBUF above and everything else is unchanged. -/
def Obligations.WalkDecodesThePaths : Prop :=
  ∀ (s : State) (nbits : Nat) (codes : List Entry) (tail : List Bool),
    let limit := if s.ctrl.trailer then s.srcLen.toNat - 8 else s.srcLen.toNat
    let off := s.decPayloadOff.toNat
    let bits := (codes.map Prod.snd).flatten ++ tail
    s.cfg.wf = true → s.srcLen.toNat ≤ s.cfg.ibufBytes → s.decValid = true →
    (s.ctrl.trailer = true → 8 ≤ s.srcLen.toNat) → off ≤ limit →
    (s.ctrl.trailer = true → nbits = le64 (input s) limit ∧ (nbits + 7) / 8 = limit - off ∧ tail = []) →
    (s.ctrl.trailer = false → nbits = 8 * (limit - off)) →
    bits.length = nbits →
    (∀ i, i < nbits → bits[i]? = some ((s.ibuf.read (off + i / 8)).getLsbD (7 - i % 8))) →
    (dnodeAt s.dnode 0).kind ≠ .leaf → (∀ c ∈ codes, leafOnPath s.dnode 0 c.2 = some c.1) →
    staysInside s.dnode 0 tail = true → codes.length ≤ s.cfg.obufBytes →
    ∃ t, exec .walk s = .next t ∧ CompletedOk s t ∧ HasOutput s t (codes.map Prod.fst) ∧ t.payloadBits.toNat = nbits ∧
      SameOperands s t ∧ t.freq = s.freq ∧ SameEncTree s t ∧ t.code = s.code ∧ SameDecoder s t

/-- R314, R261, R405: when the root is a LEAF, WALK emits its symbol once for every payload bit; with more payload bits than
OBUF has bytes it is DST_OVERFLOW, with DST_LEN and PAYLOAD_BITS 0 and the decoder's tables unchanged. -/
def Obligations.WalkOfRootLeaf : Prop :=
  ∀ (s : State) (nbits : Nat),
    let limit := if s.ctrl.trailer then s.srcLen.toNat - 8 else s.srcLen.toNat
    let off := s.decPayloadOff.toNat
    s.cfg.wf = true → s.srcLen.toNat ≤ s.cfg.ibufBytes → s.decValid = true →
    (s.ctrl.trailer = true → 8 ≤ s.srcLen.toNat) → off ≤ limit →
    (s.ctrl.trailer = true → nbits = le64 (input s) limit ∧ (nbits + 7) / 8 = limit - off) →
    (s.ctrl.trailer = false → nbits = 8 * (limit - off)) →
    (dnodeAt s.dnode 0).kind = .leaf →
    (nbits ≤ s.cfg.obufBytes →
      ∃ t, exec .walk s = .next t ∧ CompletedOk s t ∧ HasOutput s t (List.replicate nbits (dnodeAt s.dnode 0).sym) ∧
        t.payloadBits.toNat = nbits ∧ SameDecoder s t) ∧
    (s.cfg.obufBytes < nbits →
      ∃ t, exec .walk s = .next t ∧ CompletedError s t 0x11 (BitVec.ofNat 32 s.cfg.obufBytes) ∧ t.dstLen = 0 ∧
        t.payloadBits = 0 ∧ SameDecoder s t)

/-- R311, R404, R405: WALK's errors before the first payload bit, in the order of their checks after NO_DEC_TREE: BAD_TRAILER
with SRC_LEN < 8, BAD_PAYLOAD for an offset past L, BAD_TRAILER for a bit count that does not match. OBUF and the decoder's
tables are unchanged, DST_LEN and PAYLOAD_BITS are 0. -/
def Obligations.WalkRegionErrors : Prop :=
  ∀ (s : State),
    let limit := if s.ctrl.trailer then s.srcLen.toNat - 8 else s.srcLen.toNat
    let off := s.decPayloadOff.toNat
    let fails := fun (code : Byte) (info : Word) => ∃ t, exec .walk s = .next t ∧ CompletedError s t code info ∧
      t.dstLen = 0 ∧ t.payloadBits = 0 ∧ (∀ k, t.obuf.read k = s.obuf.read k) ∧ SameDecoder s t ∧ SameOperands s t
    (s.cfg.ibufBytes < s.srcLen.toNat → fails 0x10 s.srcLen) ∧
    (s.srcLen.toNat ≤ s.cfg.ibufBytes → s.decValid = true →
      (s.ctrl.trailer = true → s.srcLen.toNat < 8 → fails 0x38 s.srcLen) ∧
      ((s.ctrl.trailer = true → 8 ≤ s.srcLen.toNat) →
        (limit < off → fails 0x39 s.decPayloadOff) ∧
        (off ≤ limit → s.ctrl.trailer = true → (le64 (input s) limit + 7) / 8 ≠ limit - off →
          fails 0x38 (BitVec.ofNat 32 limit))))

/-- R313, R315, R405: WALK's errors in the payload, after `codes` has been decoded: a bit whose child is missing is
BAD_PAYLOAD with its index; in hardened mode bits that end inside a code are BAD_PAYLOAD with their number; one symbol more
than fits OBUF is DST_OVERFLOW. OBUF is unchanged when no symbol came before; the decoder's tables are unchanged. -/
def Obligations.WalkPayloadErrors : Prop :=
  ∀ (s : State) (off nbits : Nat) (codes : List Entry) (tail rest : List Bool),
    let limit := if s.ctrl.trailer then s.srcLen.toNat - 8 else s.srcLen.toNat
    let done := (codes.map Prod.snd).flatten
    let fails := fun (code : Byte) (info : Nat) => ∃ t, exec .walk s = .next t ∧
      CompletedError s t code (BitVec.ofNat 32 info) ∧ t.dstLen = 0 ∧ t.payloadBits = 0 ∧ SameDecoder s t ∧
      (codes = [] → ∀ k, t.obuf.read k = s.obuf.read k)
    s.cfg.wf = true → s.srcLen.toNat ≤ s.cfg.ibufBytes → s.decValid = true →
    (s.ctrl.trailer = true → 8 ≤ s.srcLen.toNat) → off = s.decPayloadOff.toNat → off ≤ limit →
    (s.ctrl.trailer = true → nbits = le64 (input s) limit ∧ (nbits + 7) / 8 = limit - off) →
    (s.ctrl.trailer = false → nbits = 8 * (limit - off)) →
    (done ++ tail ++ rest).length = nbits →
    (∀ i, i < nbits →
      (done ++ tail ++ rest)[i]? = some ((s.ibuf.read (off + i / 8)).getLsbD (7 - i % 8))) →
    DecLinksOk s.dnode s.decNodes.toNat → (dnodeAt s.dnode 0).kind ≠ .leaf →
    (∀ c ∈ codes, leafOnPath s.dnode 0 c.2 = some c.1) → codes.length ≤ s.cfg.obufBytes →
    (staysInside s.dnode 0 tail = true →
      (∀ b more, rest = b :: more → staysInside s.dnode 0 (tail ++ [b]) = false →
        leafOnPath s.dnode 0 (tail ++ [b]) = none → fails 0x39 (done.length + tail.length)) ∧
      (rest = [] → tail ≠ [] → s.ctrl.trailer = true → fails 0x39 nbits)) ∧
    (∀ sym, leafOnPath s.dnode 0 tail = some sym → codes.length = s.cfg.obufBytes → fails 0x11 s.cfg.obufBytes)

/-- R320, R405 (the DECODE row): DECODE is REBUILD and then WALK; when REBUILD raises an error DECODE reports the same error
with DEC_VALID, DST_LEN and PAYLOAD_BITS 0 and OBUF unchanged. -/
def Obligations.DecodeIsRebuildThenWalk : Prop :=
  ∀ (s t : State), exec .rebuild s = .next t →
    (t.status.errCode = 0 → exec .decode s = exec .walk t) ∧
    (t.status.errCode ≠ 0 →
      ∃ u, exec .decode s = .next u ∧ u.status = t.status ∧ u.errInfo = t.errInfo ∧ u.decValid = false ∧ u.dstLen = 0 ∧
        u.payloadBits = 0 ∧ ∀ k, u.obuf.read k = s.obuf.read k)

/-- R160, R320, R170: DECODE of the hardened frame of any legal table with non-empty codes and any message over its symbols
gives back the message; DEC_NCODES and PAYLOAD_BITS are the frame's; OBUF above the message and everything but the decoder's
tables is unchanged. -/
def Obligations.DecodeReadsLegalFrames : Prop :=
  ∀ (s : State) (entries : List Entry) (message : List Byte),
    let bits := entryMessage entries message
    s.cfg.wf = true → LegalTable entries → (∀ e ∈ entries, e.2 ≠ []) → (∀ b ∈ message, b ∈ entries.map Prod.fst) →
    s.ctrl.trailer = true → s.srcLen.toNat ≤ s.cfg.ibufBytes → input s = frameBytes entries bits true →
    message.length ≤ s.cfg.obufBytes →
    ∃ t, exec .decode s = .next t ∧ CompletedOk s t ∧ HasOutput s t message ∧ t.payloadBits.toNat = bits.length ∧
      t.decValid = true ∧ t.decNcodes.toNat = entries.length ∧ SameOperands s t ∧ t.freq = s.freq ∧ SameEncTree s t ∧
      t.code = s.code

/-- R321: DECODE is a function of CTRL.TRAILER, SRC_LEN and the input bytes alone: from two states of one instance that
agree on them it reports the same error or none, and on success the same output, decoder tables and results. -/
def Obligations.DecodeReadsOnlyTheFrame : Prop :=
  ∀ (s s' t t' : State), s'.cfg = s.cfg → s'.ctrl.trailer = s.ctrl.trailer → s'.srcLen = s.srcLen → input s' = input s →
    exec .decode s = .next t → exec .decode s' = .next t' →
    t'.status.errCode = t.status.errCode ∧ (t.status.errCode ≠ 0 → t'.errInfo = t.errInfo) ∧ t'.dstLen = t.dstLen ∧
      t'.payloadBits = t.payloadBits ∧ t'.decValid = t.decValid ∧ output t' = output t ∧
      (t.decValid = true → SameDecoder t t')

/-! ### The round trip (43_encoder_frame.md R274) -/

/-- R274, hardened mode: the frame that ENCODE makes of any input, placed in the IBUF of any state in hardened mode with room
for the output, decodes to exactly that input. -/
def Obligations.RoundTripHardened : Prop :=
  ∀ (s t u : State), s.cfg.wf = true → s.ctrl.trailer = true → exec .encode s = .next t → t.status.errCode = 0 →
    u.cfg.wf = true → u.ctrl.trailer = true → u.srcLen = t.dstLen → u.srcLen.toNat ≤ u.cfg.ibufBytes →
    input u = output t → (input s).length ≤ u.cfg.obufBytes →
    ∃ v, exec .decode u = .next v ∧ CompletedOk u v ∧ output v = input s ∧ v.dstLen = s.srcLen ∧
      v.payloadBits = t.payloadBits

/-- R274, reference mode: the output is the input followed by floor(p / d0) copies of the symbol z whose code is d0 zeros,
where p is the number of padding bits; for a non-empty input there is such a z, and the empty input decodes to nothing. -/
def Obligations.RoundTripReference : Prop :=
  ∀ (s t u : State), s.cfg.wf = true → s.ctrl.trailer = false → exec .encode s = .next t → t.status.errCode = 0 →
    u.cfg.wf = true → u.ctrl.trailer = false → u.srcLen = t.dstLen → u.srcLen.toNat ≤ u.cfg.ibufBytes →
    input u = output t → (input s).length + 7 ≤ u.cfg.obufBytes →
    ∃ v, exec .decode u = .next v ∧ CompletedOk u v ∧ (input s = [] → output v = []) ∧
      (input s ≠ [] → ∃ z d0, 1 ≤ d0 ∧ (codeAt t.code z).valid = true ∧
        (codeAt t.code z).path = List.replicate d0 false ∧
        output v = input s ++ List.replicate ((8 - t.payloadBits.toNat % 8) % 8 / d0) z)
end

