-- ==== Sys2Proof/Laws/Bus.lean ====
section
/-! SUPPORT. What a bus transaction can do, said once. -/

namespace Sys2Proof.Machine

open Sys2Proof

/-- What an access reaches does not depend on BASE (93_implementation_defined.md section 2). -/
@[simp] theorem access_base (c : Config) (b : Nat) (size : AccessSize) (off : Word) :
    access { c with base := b } size off = access c size off := rfl

/-- BASE is the platform address of offset 0. -/
@[simp] theorem platformAddress_zero (c : Config) : platformAddress c 0 = c.base := rfl

/-- Different offsets have different platform addresses. -/
theorem platformAddress_inj {c : Config} {off off' : Word} (h : platformAddress c off = platformAddress c off') :
    off = off' := BitVec.eq_of_toNat_eq (Nat.add_left_cancel h)

/-- A read is a bus error, a free value, or the defined value of its place; it leaves the state but for the count of
draws. -/
theorem busRead_cases (size : AccessSize) (off : Word) (s : State) :
    (access s.cfg size off = none ∧ busRead size off s = (⟨0, true⟩, s)) ∨
      ∃ n p, access s.cfg size off = some (n, p) ∧
        ((s.status.busy = true ∧ p.unspecifiedWhileBusy = true ∧
            busRead size off s = (⟨lowBytes n (Config.freeWord s.draws), false⟩, { s with draws := s.draws + 1 })) ∨
          ((s.status.busy = false ∨ p.unspecifiedWhileBusy = false) ∧
            busRead size off s = (⟨readPlace s n p, false⟩, s))) := by
  unfold busRead
  cases h : access s.cfg size off with
  | none => exact .inl ⟨rfl, rfl⟩
  | some np =>
    refine .inr ⟨np.1, np.2, rfl, ?_⟩
    cases hb : s.status.busy <;> cases hp : np.2.unspecifiedWhileBusy <;> simp [hp]

/-- A write is a bus error, which leaves the state, or the write of its place. -/
theorem busWrite_cases (size : AccessSize) (off v : Word) (s : State) :
    (access s.cfg size off = none ∧ busWrite size off v s = (⟨0, true⟩, s)) ∨
      ∃ n p, access s.cfg size off = some (n, p) ∧ busWrite size off v s = (⟨0, false⟩, writePlace n v p s) := by
  unfold busWrite
  cases h : access s.cfg size off with
  | none => exact .inl ⟨rfl, rfl⟩
  | some np => exact .inr ⟨np.1, np.2, rfl, rfl⟩

/-- While BUSY = 1 a write reaches STATUS, sets WBUSY, or is ignored. -/
theorem writePlace_busy {s : State} (h : s.status.busy = true) (n : Nat) (v : Word) (p : Place) :
    writePlace n v p s = acknowledge v s ∨ writePlace n v p s = dropWrite s ∨ writePlace n v p s = s := by
  cases p with
  | reg r => cases r <;> simp [writePlace, unlessBusy, h]
  | ibuf k => simp [writePlace, unlessBusy, h]
  | _ => exact .inr (.inr rfl)

/-- While idle a write stores CTRL, SRC_LEN or bytes of IBUF, accepts a command, clears STATUS bits, or is ignored. -/
theorem writePlace_idle {s : State} (h : s.status.busy = false) (n : Nat) (v : Word) (p : Place) :
    writePlace n v p s = { s with ctrl := Ctrl.ofWord v } ∨ writePlace n v p s = { s with srcLen := v } ∨
      (∃ k, p = .ibuf k ∧ writePlace n v p s = { s with ibuf := s.ibuf.writeBytes k (leBytes n v.toNat) }) ∨
      writePlace n v p s = accept v s ∨ writePlace n v p s = acknowledge v s ∨ writePlace n v p s = s := by
  cases p with
  | reg r => cases r <;> simp [writePlace, unlessBusy, h]
  | ibuf k => simp [writePlace, unlessBusy, h]
  | _ => simp [writePlace]

end Sys2Proof.Machine
end

