-- ==== Sys2Proof/Laws/Memory.lean ====
section
/-! SUPPORT. The laws of the buffers: a read after a write, what a write leaves alone, and that every operation keeps the
canonical form; and the laws of the fixed-size tables. -/

namespace Sys2Proof

/-! ### Tables -/

@[simp] theorem Table.get_fill {α : Type} (n : Nat) (v : α) (i : Nat) : (Table.fill n v).get i v = v := by
  simp only [Table.get, Table.fill, List.getD_eq_getElem?_getD, List.getElem?_replicate]
  split <;> rfl

theorem Table.get_tabulate {α : Type} (n : Nat) (f : Nat → α) (i : Nat) (d : α) :
    (Table.tabulate n f).get i d = if i < n then f i else d := by
  by_cases h : i < n
  · simp [Table.get, Table.tabulate, h]
  · simp [Table.get, Table.tabulate, h]

theorem Table.get_set_self {α : Type} {n : Nat} (t : Table α n) (i : Nat) (v d : α) (h : i < n) :
    (t.set i v).get i d = v := by
  have hi : i < t.entries.length := by rw [t.size_eq]; exact h
  simp [Table.get, Table.set, hi]

theorem Table.get_set_ne {α : Type} {n : Nat} (t : Table α n) (i j : Nat) (v d : α) (h : i ≠ j) :
    (t.set i v).get j d = t.get j d := by
  simp [Table.get, Table.set, List.getElem?_set_ne h]

theorem Table.get_past_end {α : Type} {n : Nat} (t : Table α n) (i : Nat) (d : α) (h : n ≤ i) : t.get i d = d := by
  have hi : t.entries.length ≤ i := by rw [t.size_eq]; exact h
  simp [Table.get, hi]

/-- Two tables with the same entries are the same table. -/
theorem Table.ext_get {α : Type} {n : Nat} (t u : Table α n) (d : α) (h : ∀ i, i < n → t.get i d = u.get i d) : t = u := by
  obtain ⟨a, ha⟩ := t
  obtain ⟨b, hb⟩ := u
  have : a = b := by
    apply List.ext_getElem (ha.trans hb.symm)
    intro i h1 h2
    have := h i (ha ▸ h1)
    simpa [Table.get, h1, h2] using this
  subst this
  rfl

end Sys2Proof

namespace Sys2Proof.Machine

open Sys2Proof

/-! ### Cells -/

theorem cellAt_cons (c : Host.Cell) (cells : List Host.Cell) (k : Nat) :
    cellAt (c :: cells) k = if c.1 = k then some c.2 else cellAt cells k := by
  by_cases h : c.1 = k <;> simp [cellAt, h]

/-- A byte put at an index is found there. -/
theorem cellAt_putCell_self (cells : List Host.Cell) (k : Nat) (b : Byte) : cellAt (putCell cells k b) k = some b := by
  induction cells with
  | nil => simp [putCell, cellAt]
  | cons c rest ih =>
    simp only [putCell]
    split
    · simp [cellAt_cons]
    · split
      · simp [cellAt_cons]
      · next h1 h2 =>
        rw [cellAt_cons, if_neg (fun h => h2 h.symm), ih]

/-- A byte put at an index leaves every other index alone. -/
theorem cellAt_putCell_ne (cells : List Host.Cell) (k j : Nat) (b : Byte) (h : j ≠ k) :
    cellAt (putCell cells k b) j = cellAt cells j := by
  induction cells with
  | nil => simp [putCell, cellAt, Ne.symm h]
  | cons c rest ih =>
    simp only [putCell]
    split
    · rw [cellAt_cons, if_neg (Ne.symm h)]
    · split
      · next h2 => rw [cellAt_cons, if_neg (Ne.symm h), cellAt_cons, if_neg (by rw [← h2]; exact Ne.symm h)]
      · rw [cellAt_cons, cellAt_cons, ih]

theorem mem_putCell {cells : List Host.Cell} {k : Nat} {b : Byte} {c : Host.Cell} (h : c ∈ putCell cells k b) :
    c = (k, b) ∨ c ∈ cells := by
  induction cells with
  | nil => simpa [putCell] using h
  | cons d rest ih =>
    simp only [putCell] at h
    split at h
    · simpa using h
    · split at h
      · rcases List.mem_cons.mp h with h | h
        · exact .inl h
        · exact .inr (List.mem_cons_of_mem _ h)
      · rcases List.mem_cons.mp h with h | h
        · exact .inr (h ▸ List.mem_cons_self)
        · exact (ih h).imp id (List.mem_cons_of_mem _)

/-- A put keeps the indices strictly rising. -/
theorem putCell_rising {cells : List Host.Cell} (k : Nat) (b : Byte)
    (h : cells.Pairwise fun a b => a.1 < b.1) : (putCell cells k b).Pairwise fun a b => a.1 < b.1 := by
  induction cells with
  | nil => simp [putCell]
  | cons c rest ih =>
    obtain ⟨hc, hr⟩ := List.pairwise_cons.mp h
    simp only [putCell]
    split
    · next hk =>
      refine List.pairwise_cons.mpr ⟨fun d hd => ?_, h⟩
      rcases List.mem_cons.mp hd with hd | hd
      · exact hd ▸ hk
      · exact Nat.lt_trans hk (hc d hd)
    · split
      · next hk => exact List.pairwise_cons.mpr ⟨fun d hd => by simpa [hk] using hc d hd, hr⟩
      · next h1 h2 =>
        refine List.pairwise_cons.mpr ⟨fun d hd => ?_, ih hr⟩
        rcases mem_putCell hd with hd | hd
        · subst hd; exact Nat.lt_of_le_of_ne (Nat.le_of_not_lt h1) (fun e => h2 e.symm)
        · exact hc d hd

/-! ### Buffers -/

@[simp] theorem Memory.read_write_self (m : Memory) (k : Nat) (b : Byte) : (m.write k b).read k = b := by
  simp [Memory.read, Memory.write, cellAt_putCell_self]

theorem Memory.read_write_ne (m : Memory) (k j : Nat) (b : Byte) (h : j ≠ k) : (m.write k b).read j = m.read j := by
  simp [Memory.read, Memory.write, cellAt_putCell_ne _ _ _ _ h]

/-- A write inside the buffer keeps the canonical form. -/
theorem Memory.write_wf {size : Nat} {m : Memory} (k : Nat) (b : Byte) (h : m.wf size) (hk : k < size) :
    (m.write k b).wf size :=
  ⟨putCell_rising k b h.1, fun c hc => by
    rcases mem_putCell hc with hc | hc
    · subst hc; exact hk
    · exact h.2 c hc⟩

/-- A write of several bytes inside the buffer keeps the canonical form. -/
theorem Memory.writeBytes_wf {size : Nat} (bs : List Byte) {m : Memory} (k : Nat) (h : m.wf size)
    (hk : k + bs.length ≤ size) : (m.writeBytes k bs).wf size := by
  induction bs generalizing m k with
  | nil => exact h
  | cons b bs ih =>
    simp only [List.length_cons] at hk
    exact ih (k + 1) (m.write_wf k b h (by omega)) (by omega)

theorem Memory.read_writeBytes_outside (bs : List Byte) (m : Memory) (k j : Nat) (h : j < k ∨ k + bs.length ≤ j) :
    (m.writeBytes k bs).read j = m.read j := by
  induction bs generalizing m k with
  | nil => rfl
  | cons b bs ih =>
    simp only [List.length_cons] at h
    rw [Memory.writeBytes, ih _ _ (by omega), Memory.read_write_ne _ _ _ _ (by omega)]

theorem Memory.read_writeBytes_inside (bs : List Byte) (m : Memory) (k j : Nat) (h : j < bs.length) :
    (m.writeBytes k bs).read (k + j) = bs[j] := by
  induction bs generalizing m k j with
  | nil => simp at h
  | cons b bs ih =>
    cases j with
    | zero => rw [Memory.writeBytes, Memory.read_writeBytes_outside _ _ _ _ (by omega)]; simp
    | succ j =>
      have := ih (m.write k b) (k + 1) j (by simpa using h)
      rw [Memory.writeBytes, show k + (j + 1) = k + 1 + j by omega, this]
      simp

/-! ### The output of a command -/

theorem mem_cellsFrom {k : Nat} {bs : List Byte} {c : Host.Cell} (h : c ∈ cellsFrom k bs) :
    k ≤ c.1 ∧ c.1 < k + bs.length := by
  induction bs generalizing k with
  | nil => simp [cellsFrom] at h
  | cons b bs ih =>
    rcases List.mem_cons.mp h with h | h
    · subst h; simp
    · have := ih h
      simp only [List.length_cons]
      omega

theorem cellsFrom_rising (k : Nat) (bs : List Byte) : (cellsFrom k bs).Pairwise fun a b => a.1 < b.1 := by
  induction bs generalizing k with
  | nil => simp [cellsFrom]
  | cons b bs ih =>
    refine List.pairwise_cons.mpr ⟨fun c hc => ?_, ih (k + 1)⟩
    have := mem_cellsFrom hc
    exact Nat.lt_of_succ_le this.1

theorem cellAt_cellsFrom_append (k j : Nat) (bs : List Byte) (rest : List Host.Cell) :
    cellAt (cellsFrom k bs ++ rest) j =
      if h : k ≤ j ∧ j < k + bs.length then some (bs[j - k]'(by omega)) else cellAt rest j := by
  induction bs generalizing k with
  | nil => simp [cellsFrom]
  | cons b bs ih =>
    rw [cellsFrom, List.cons_append, cellAt_cons]
    by_cases hk : k = j
    · subst hk; simp
    · rw [if_neg hk, ih]
      by_cases hj : k ≤ j ∧ j < k + (b :: bs).length
      · have h1 : k + 1 ≤ j ∧ j < k + 1 + bs.length := by simp only [List.length_cons] at hj; omega
        rw [dif_pos hj, dif_pos h1]
        have h2 : j - k = j - (k + 1) + 1 := by omega
        simp [h2]
      · have h1 : ¬ (k + 1 ≤ j ∧ j < k + 1 + bs.length) := by simp only [List.length_cons] at hj; omega
        rw [dif_neg hj, dif_neg h1]

/-- The output is stored from index 0 upward. -/
theorem Memory.read_writeOutput_inside (m : Memory) (bs : List Byte) (k : Nat) (h : k < bs.length) :
    (m.writeOutput bs).read k = bs[k] := by
  simp [Memory.read, Memory.writeOutput, cellAt_cellsFrom_append, h]

theorem cellAt_filter_ge (cells : List Host.Cell) (n k : Nat) (h : n ≤ k) :
    cellAt (cells.filter fun c => decide (n ≤ c.1)) k = cellAt cells k := by
  induction cells with
  | nil => rfl
  | cons c rest ih =>
    by_cases hc : n ≤ c.1
    · rw [List.filter_cons_of_pos (by simpa using hc), cellAt_cons, cellAt_cons, ih]
    · rw [List.filter_cons_of_neg (by simpa using hc), cellAt_cons, if_neg (by omega), ih]

/-- Bytes at and above the output's length keep their values. -/
theorem Memory.read_writeOutput_above (m : Memory) (bs : List Byte) (k : Nat) (h : bs.length ≤ k) :
    (m.writeOutput bs).read k = m.read k := by
  have hk : ¬ (0 ≤ k ∧ k < 0 + bs.length) := by omega
  simp only [Memory.read, Memory.writeOutput, cellAt_cellsFrom_append, dif_neg hk, cellAt_filter_ge _ _ _ h]

/-- An output that fits the buffer keeps the canonical form. -/
theorem Memory.writeOutput_wf {size : Nat} {m : Memory} (bs : List Byte) (h : m.wf size) (hb : bs.length ≤ size) :
    (m.writeOutput bs).wf size := by
  constructor
  · refine List.pairwise_append.mpr ⟨cellsFrom_rising 0 bs, h.1.sublist List.filter_sublist, fun a ha c hc => ?_⟩
    have h1 := (mem_cellsFrom ha).2
    have h2 : bs.length ≤ c.1 := by simpa using (List.mem_filter.mp hc).2
    omega
  · intro c hc
    rcases List.mem_append.mp hc with hc | hc
    · have := (mem_cellsFrom hc).2
      omega
    · exact h.2 c (List.mem_of_mem_filter hc)

/-- A buffer whose bytes are all unspecified is in canonical form. -/
theorem Memory.unspecified_wf (size draw : Nat) : Memory.wf size ⟨[], draw⟩ := by simp [Memory.wf]

/-- The buffers of every instance are in canonical form after power-up. -/
theorem State.powerUp_buffers_wf (c : Config) :
    (State.powerUp c).ibuf.wf c.ibufBytes ∧ (State.powerUp c).obuf.wf c.obufBytes :=
  ⟨Memory.unspecified_wf _ _, Memory.unspecified_wf _ _⟩

end Sys2Proof.Machine
end

