-- ==== Sys2Proof/Laws/Ops.lean ====
section
/-! SUPPORT. What each shared operation can do, said once: the output primitive, errors, completion, turns, and the
integers and bytes of frames. -/

namespace Sys2Proof.Machine

open Sys2Proof

/-! ### Integers and bytes -/

@[simp] theorem leBytes_length (n v : Nat) : (leBytes n v).length = n := by
  induction n generalizing v with
  | zero => rfl
  | succ n ih => simp [leBytes, ih]

/-- The bytes of `v` read back as `v` modulo what `n` bytes hold. -/
theorem leNat_leBytes (n v : Nat) : leNat (leBytes n v) = v % 256 ^ n := by
  induction n generalizing v with
  | zero => simp [leBytes, leNat, Nat.mod_one]
  | succ n ih =>
    rw [leBytes, leNat, ih, BitVec.toNat_ofNat, show (256 : Nat) ^ (n + 1) = 2 ^ 8 * 256 ^ n by rw [Nat.pow_succ]; omega,
      Nat.mod_mul, show (2 : Nat) ^ 8 = 256 from rfl]

/-- A byte sequence is a number below 256 to its length. -/
theorem leNat_lt (bs : List Byte) : leNat bs < 256 ^ bs.length := by
  induction bs with
  | nil => simp [leNat]
  | cons b bs ih =>
    have hb := b.isLt
    simp only [leNat, List.length_cons, Nat.pow_succ]
    omega

/-! ### The input -/

@[simp] theorem input_length (s : State) : (input s).length = s.srcLen.toNat := by simp [input]

theorem input_getElem (s : State) (k : Nat) (h : k < (input s).length) : (input s)[k] = s.ibuf.read k := by
  simp [input]

/-- The input depends on SRC_LEN and IBUF alone. -/
theorem input_congr {s t : State} (hl : t.srcLen = s.srcLen) (hb : ∀ k, t.ibuf.read k = s.ibuf.read k) :
    input t = input s := by
  have : t.ibuf.read = s.ibuf.read := funext hb
  rw [input, input, hl, this]

/-! ### The output primitive -/

/-- An output whose index counts its bytes and does not pass its room. -/
def SinkOk (k : Sink) : Prop := k.written = k.rev.length ∧ k.written ≤ k.room

theorem sinkOk_start (room : Nat) : SinkOk (Sink.start room) := ⟨rfl, Nat.zero_le _⟩

theorem SinkOk.bytes_length {k : Sink} (h : SinkOk k) : k.bytes.length = k.written := by simp [Sink.bytes, h.1]

/-- `put` appends when there is room, and otherwise raises DST_OVERFLOW at the index it stands at. -/
theorem put_eq (b : Byte) (k : Sink) :
    put b k = if k.written < k.room then .ok { k with written := k.written + 1, rev := b :: k.rev }
      else .error ⟨k.written, errorAt .dstOverflow k.room⟩ := by
  unfold put
  by_cases h : k.room ≤ k.written
  · rw [if_pos h, if_neg (by omega)]
  · rw [if_neg h, if_pos (by omega)]

theorem put_ok {b : Byte} {k k' : Sink} (h : put b k = .ok k') (hk : SinkOk k) :
    SinkOk k' ∧ k'.room = k.room ∧ k'.bytes = k.bytes ++ [b] := by
  rw [put_eq] at h
  split at h
  · next hr =>
    cases h
    exact ⟨⟨by simp [hk.1], hr⟩, rfl, by simp [Sink.bytes]⟩
  · cases h

/-- A `put` of each byte appends them all when they fit, and otherwise raises DST_OVERFLOW at the full output. -/
theorem putAll_eq (bs : List Byte) (k : Sink) (h : k.written ≤ k.room) :
    putAll bs k = if k.written + bs.length ≤ k.room
      then .ok { k with written := k.written + bs.length, rev := bs.reverse ++ k.rev }
      else .error ⟨k.room, errorAt .dstOverflow k.room⟩ := by
  induction bs generalizing k with
  | nil => simp [putAll, h]
  | cons b bs ih =>
    rw [putAll, put_eq]
    by_cases hr : k.written < k.room
    · rw [if_pos hr]
      simp only
      rw [ih _ (by simpa using hr)]
      simp only [List.length_cons, List.reverse_cons, List.append_assoc, List.singleton_append]
      by_cases hf : k.written + 1 + bs.length ≤ k.room
      · rw [if_pos hf, if_pos (by omega)]
        simp only [Except.ok.injEq, Sink.mk.injEq, true_and, and_true]
        omega
      · rw [if_neg hf, if_neg (by omega)]
    · rw [if_neg hr, if_neg (by simp only [List.length_cons]; omega)]
      have : k.written = k.room := by omega
      simp [this]

/-! ### Errors and completion -/

/-- Completion always answers a next state. -/
theorem complete_next (r : BodyEnd) : ∃ t, complete r = .next t := by
  cases r with
  | ok s => exact ⟨_, rfl⟩
  | raised s e => exact ⟨_, rfl⟩

/-- What completion can have come from. -/
theorem complete_cases {r : BodyEnd} {t : State} (h : complete r = .next t) :
    (∃ s, r = .ok s ∧ t = completeOk s) ∨ ∃ s e, r = .raised s e ∧ t = completeError s e := by
  cases r with
  | ok s => cases h; exact .inl ⟨s, rfl, rfl⟩
  | raised s e => cases h; exact .inr ⟨s, e, rfl, rfl⟩

/-- A sequence of bodies succeeds only when both do. -/
theorem andThen_ok {r : BodyEnd} {f : State → BodyEnd} {t : State} (h : r.andThen f = .ok t) :
    ∃ s, r = .ok s ∧ f s = .ok t := by
  cases r with
  | ok s => exact ⟨s, rfl, h⟩
  | raised s e => cases h

/-- Every error code has a value other than 0x00, the code of success. -/
theorem ErrCode.value_ne_zero (c : ErrCode) : c.value ≠ 0 := by cases c <;> decide

/-- An error of a command that writes OBUF zeroes the result registers and touches nothing else but OBUF, and that only
when output had begun. -/
theorem raiseOutput_eq (s : State) (o : Nat) (e : CmdError) :
    ∃ b d, raiseOutput s o e = .raised { s with dstLen := 0, payloadBits := 0, obuf := b, draws := d } e ∧
      (o = 0 → b = s.obuf ∧ d = s.draws) ∧ (o ≠ 0 → b = ⟨[], s.draws⟩ ∧ d = s.draws + 1) := by
  by_cases h : o = 0
  · exact ⟨s.obuf, s.draws, by simp [raiseOutput, h], fun _ => ⟨rfl, rfl⟩, fun h' => absurd h h'⟩
  · exact ⟨_, _, by simp [raiseOutput, h], fun h' => absurd h' h, fun _ => ⟨rfl, rfl⟩⟩

/-- An error of the REBUILD stage clears DEC_VALID and touches nothing but the decoder's tables. -/
theorem raiseRebuild_eq (s : State) (e : CmdError) :
    ∃ d n c o k, raiseRebuild s e = .raised
      { s with decValid := false, dnode := d, decNodes := n, decNcodes := c, decPayloadOff := o, draws := k } e :=
  ⟨_, _, _, _, _, rfl⟩

/-! ### Turns -/

/-- Taking a turn touches only the agenda. -/
theorem takeTurn_state (s : State) : ∃ a, (takeTurn s).2 = { s with agenda := a } := by
  unfold takeTurn
  split
  · exact ⟨_, rfl⟩
  · exact ⟨s.agenda, rfl⟩

/-- With an empty agenda the core completes while it is busy, and else the host moves. -/
theorem takeTurn_nil {s : State} (h : s.agenda = []) :
    takeTurn s = (if s.status.busy then .core else .host, s) := by
  simp [takeTurn, h]

theorem takeTurn_cons {s : State} {t : Turn} {rest : List Turn} (h : s.agenda = t :: rest) :
    takeTurn s = (t, { s with agenda := rest }) := by
  simp [takeTurn, h]

end Sys2Proof.Machine
end

