-- ==== Sys2Proof/Laws/PerInstr.lean ====
section
/-! SUPPORT. Per-instruction families over the command set. -/

/-- The command word of an instruction has its opcode in [7:0] and 0 in [31:8] (30_encoding.md R141, R142). -/
def Sys2Proof.Laws.CommandWord.Statement (i : Sys2Proof.Instr) : Prop :=
  Sys2Proof.opField (Sys2Proof.encode i) = Sys2Proof.opcode i ∧ Sys2Proof.rsvdField (Sys2Proof.encode i) = 0 ∧
    (Sys2Proof.opcode i, i) ∈ Sys2Proof.opcodeMap ∧ i.wf = true

theorem Sys2Proof.Laws.CommandWord.nop : Sys2Proof.Laws.CommandWord.Statement .nop := by
  unfold Sys2Proof.Laws.CommandWord.Statement; decide

theorem Sys2Proof.Laws.CommandWord.clear : Sys2Proof.Laws.CommandWord.Statement .clear := by
  unfold Sys2Proof.Laws.CommandWord.Statement; decide

theorem Sys2Proof.Laws.CommandWord.encode : Sys2Proof.Laws.CommandWord.Statement .encode := by
  unfold Sys2Proof.Laws.CommandWord.Statement; decide

theorem Sys2Proof.Laws.CommandWord.count : Sys2Proof.Laws.CommandWord.Statement .count := by
  unfold Sys2Proof.Laws.CommandWord.Statement; decide

theorem Sys2Proof.Laws.CommandWord.build : Sys2Proof.Laws.CommandWord.Statement .build := by
  unfold Sys2Proof.Laws.CommandWord.Statement; decide

theorem Sys2Proof.Laws.CommandWord.gencodes : Sys2Proof.Laws.CommandWord.Statement .gencodes := by
  unfold Sys2Proof.Laws.CommandWord.Statement; decide

theorem Sys2Proof.Laws.CommandWord.emit : Sys2Proof.Laws.CommandWord.Statement .emit := by
  unfold Sys2Proof.Laws.CommandWord.Statement; decide

theorem Sys2Proof.Laws.CommandWord.decode : Sys2Proof.Laws.CommandWord.Statement .decode := by
  unfold Sys2Proof.Laws.CommandWord.Statement; decide

theorem Sys2Proof.Laws.CommandWord.rebuild : Sys2Proof.Laws.CommandWord.Statement .rebuild := by
  unfold Sys2Proof.Laws.CommandWord.Statement; decide

theorem Sys2Proof.Laws.CommandWord.walk : Sys2Proof.Laws.CommandWord.Statement .walk := by
  unfold Sys2Proof.Laws.CommandWord.Statement; decide
end

