-- ==== Sys2Proof/Laws/State.lean ====
section
/-! SUPPORT. One lemma per field per update of the state, each true by rfl, so that no later proof unfolds an update. -/

namespace Sys2Proof.Machine

open Sys2Proof

/-! ### accept -/

@[simp] theorem accept_ctrl (v : Word) (s : State) : (accept v s).ctrl = s.ctrl := rfl
@[simp] theorem accept_status (v : Word) (s : State) :
    (accept v s).status =
      { s.status with busy := true, done := false, err := false, errCode := 0x00, lastOp := v.extractLsb' 0 8 } := rfl
@[simp] theorem accept_errInfo (v : Word) (s : State) : (accept v s).errInfo = 0 := rfl
@[simp] theorem accept_srcLen (v : Word) (s : State) : (accept v s).srcLen = s.srcLen := rfl
@[simp] theorem accept_dstLen (v : Word) (s : State) : (accept v s).dstLen = s.dstLen := rfl
@[simp] theorem accept_payloadBits (v : Word) (s : State) : (accept v s).payloadBits = s.payloadBits := rfl
@[simp] theorem accept_freq (v : Word) (s : State) : (accept v s).freq = s.freq := rfl
@[simp] theorem accept_code (v : Word) (s : State) : (accept v s).code = s.code := rfl
@[simp] theorem accept_enode (v : Word) (s : State) : (accept v s).enode = s.enode := rfl
@[simp] theorem accept_encNodes (v : Word) (s : State) : (accept v s).encNodes = s.encNodes := rfl
@[simp] theorem accept_encRoot (v : Word) (s : State) : (accept v s).encRoot = s.encRoot := rfl
@[simp] theorem accept_dnode (v : Word) (s : State) : (accept v s).dnode = s.dnode := rfl
@[simp] theorem accept_decNodes (v : Word) (s : State) : (accept v s).decNodes = s.decNodes := rfl
@[simp] theorem accept_decNcodes (v : Word) (s : State) : (accept v s).decNcodes = s.decNcodes := rfl
@[simp] theorem accept_decPayloadOff (v : Word) (s : State) : (accept v s).decPayloadOff = s.decPayloadOff := rfl
@[simp] theorem accept_decValid (v : Word) (s : State) : (accept v s).decValid = s.decValid := rfl
@[simp] theorem accept_ibuf (v : Word) (s : State) : (accept v s).ibuf = s.ibuf := rfl
@[simp] theorem accept_obuf (v : Word) (s : State) : (accept v s).obuf = s.obuf := rfl
@[simp] theorem accept_pendingOp (v : Word) (s : State) : (accept v s).pendingOp = some v := rfl
@[simp] theorem accept_work (v : Word) (s : State) : (accept v s).work = s.work := rfl
@[simp] theorem accept_cfg (v : Word) (s : State) : (accept v s).cfg = s.cfg := rfl
@[simp] theorem accept_host (v : Word) (s : State) : (accept v s).host = s.host := rfl
@[simp] theorem accept_agenda (v : Word) (s : State) : (accept v s).agenda = s.agenda := rfl
@[simp] theorem accept_draws (v : Word) (s : State) : (accept v s).draws = s.draws := rfl

/-! ### completeOk -/

@[simp] theorem completeOk_ctrl (s : State) : (completeOk s).ctrl = s.ctrl := rfl
@[simp] theorem completeOk_status (s : State) :
    (completeOk s).status =
      { s.status with busy := false, done := true, errCode := 0x00 } := rfl
@[simp] theorem completeOk_errInfo (s : State) : (completeOk s).errInfo = s.errInfo := rfl
@[simp] theorem completeOk_srcLen (s : State) : (completeOk s).srcLen = s.srcLen := rfl
@[simp] theorem completeOk_dstLen (s : State) : (completeOk s).dstLen = s.dstLen := rfl
@[simp] theorem completeOk_payloadBits (s : State) : (completeOk s).payloadBits = s.payloadBits := rfl
@[simp] theorem completeOk_freq (s : State) : (completeOk s).freq = s.freq := rfl
@[simp] theorem completeOk_code (s : State) : (completeOk s).code = s.code := rfl
@[simp] theorem completeOk_enode (s : State) : (completeOk s).enode = s.enode := rfl
@[simp] theorem completeOk_encNodes (s : State) : (completeOk s).encNodes = s.encNodes := rfl
@[simp] theorem completeOk_encRoot (s : State) : (completeOk s).encRoot = s.encRoot := rfl
@[simp] theorem completeOk_dnode (s : State) : (completeOk s).dnode = s.dnode := rfl
@[simp] theorem completeOk_decNodes (s : State) : (completeOk s).decNodes = s.decNodes := rfl
@[simp] theorem completeOk_decNcodes (s : State) : (completeOk s).decNcodes = s.decNcodes := rfl
@[simp] theorem completeOk_decPayloadOff (s : State) : (completeOk s).decPayloadOff = s.decPayloadOff := rfl
@[simp] theorem completeOk_decValid (s : State) : (completeOk s).decValid = s.decValid := rfl
@[simp] theorem completeOk_ibuf (s : State) : (completeOk s).ibuf = s.ibuf := rfl
@[simp] theorem completeOk_obuf (s : State) : (completeOk s).obuf = s.obuf := rfl
@[simp] theorem completeOk_pendingOp (s : State) : (completeOk s).pendingOp = none := rfl
@[simp] theorem completeOk_work (s : State) : (completeOk s).work = s.work := rfl
@[simp] theorem completeOk_cfg (s : State) : (completeOk s).cfg = s.cfg := rfl
@[simp] theorem completeOk_host (s : State) : (completeOk s).host = s.host := rfl
@[simp] theorem completeOk_agenda (s : State) : (completeOk s).agenda = s.agenda := rfl
@[simp] theorem completeOk_draws (s : State) : (completeOk s).draws = s.draws := rfl

/-! ### completeError -/

@[simp] theorem completeError_ctrl (s : State) (e : CmdError) : (completeError s e).ctrl = s.ctrl := rfl
@[simp] theorem completeError_status (s : State) (e : CmdError) :
    (completeError s e).status =
      { s.status with busy := false, done := true, err := true, errCode := e.code.value } := rfl
@[simp] theorem completeError_errInfo (s : State) (e : CmdError) : (completeError s e).errInfo = e.info := rfl
@[simp] theorem completeError_srcLen (s : State) (e : CmdError) : (completeError s e).srcLen = s.srcLen := rfl
@[simp] theorem completeError_dstLen (s : State) (e : CmdError) : (completeError s e).dstLen = s.dstLen := rfl
@[simp] theorem completeError_payloadBits (s : State) (e : CmdError) :
    (completeError s e).payloadBits =
      s.payloadBits := rfl
@[simp] theorem completeError_freq (s : State) (e : CmdError) : (completeError s e).freq = s.freq := rfl
@[simp] theorem completeError_code (s : State) (e : CmdError) : (completeError s e).code = s.code := rfl
@[simp] theorem completeError_enode (s : State) (e : CmdError) : (completeError s e).enode = s.enode := rfl
@[simp] theorem completeError_encNodes (s : State) (e : CmdError) : (completeError s e).encNodes = s.encNodes := rfl
@[simp] theorem completeError_encRoot (s : State) (e : CmdError) : (completeError s e).encRoot = s.encRoot := rfl
@[simp] theorem completeError_dnode (s : State) (e : CmdError) : (completeError s e).dnode = s.dnode := rfl
@[simp] theorem completeError_decNodes (s : State) (e : CmdError) : (completeError s e).decNodes = s.decNodes := rfl
@[simp] theorem completeError_decNcodes (s : State) (e : CmdError) : (completeError s e).decNcodes = s.decNcodes := rfl
@[simp] theorem completeError_decPayloadOff (s : State) (e : CmdError) :
    (completeError s e).decPayloadOff =
      s.decPayloadOff := rfl
@[simp] theorem completeError_decValid (s : State) (e : CmdError) : (completeError s e).decValid = s.decValid := rfl
@[simp] theorem completeError_ibuf (s : State) (e : CmdError) : (completeError s e).ibuf = s.ibuf := rfl
@[simp] theorem completeError_obuf (s : State) (e : CmdError) : (completeError s e).obuf = s.obuf := rfl
@[simp] theorem completeError_pendingOp (s : State) (e : CmdError) : (completeError s e).pendingOp = none := rfl
@[simp] theorem completeError_work (s : State) (e : CmdError) : (completeError s e).work = s.work := rfl
@[simp] theorem completeError_cfg (s : State) (e : CmdError) : (completeError s e).cfg = s.cfg := rfl
@[simp] theorem completeError_host (s : State) (e : CmdError) : (completeError s e).host = s.host := rfl
@[simp] theorem completeError_agenda (s : State) (e : CmdError) : (completeError s e).agenda = s.agenda := rfl
@[simp] theorem completeError_draws (s : State) (e : CmdError) : (completeError s e).draws = s.draws := rfl

/-! ### acknowledge -/

@[simp] theorem acknowledge_ctrl (m : Word) (s : State) : (acknowledge m s).ctrl = s.ctrl := rfl
@[simp] theorem acknowledge_status (m : Word) (s : State) :
    (acknowledge m s).status =
      { s.status with done := s.status.done && !m.getLsbD 1, err := s.status.err && !m.getLsbD 2, wbusy := s.status.wbusy && !m.getLsbD 3 } := rfl
@[simp] theorem acknowledge_errInfo (m : Word) (s : State) : (acknowledge m s).errInfo = s.errInfo := rfl
@[simp] theorem acknowledge_srcLen (m : Word) (s : State) : (acknowledge m s).srcLen = s.srcLen := rfl
@[simp] theorem acknowledge_dstLen (m : Word) (s : State) : (acknowledge m s).dstLen = s.dstLen := rfl
@[simp] theorem acknowledge_payloadBits (m : Word) (s : State) : (acknowledge m s).payloadBits = s.payloadBits := rfl
@[simp] theorem acknowledge_freq (m : Word) (s : State) : (acknowledge m s).freq = s.freq := rfl
@[simp] theorem acknowledge_code (m : Word) (s : State) : (acknowledge m s).code = s.code := rfl
@[simp] theorem acknowledge_enode (m : Word) (s : State) : (acknowledge m s).enode = s.enode := rfl
@[simp] theorem acknowledge_encNodes (m : Word) (s : State) : (acknowledge m s).encNodes = s.encNodes := rfl
@[simp] theorem acknowledge_encRoot (m : Word) (s : State) : (acknowledge m s).encRoot = s.encRoot := rfl
@[simp] theorem acknowledge_dnode (m : Word) (s : State) : (acknowledge m s).dnode = s.dnode := rfl
@[simp] theorem acknowledge_decNodes (m : Word) (s : State) : (acknowledge m s).decNodes = s.decNodes := rfl
@[simp] theorem acknowledge_decNcodes (m : Word) (s : State) : (acknowledge m s).decNcodes = s.decNcodes := rfl
@[simp] theorem acknowledge_decPayloadOff (m : Word) (s : State) :
    (acknowledge m s).decPayloadOff =
      s.decPayloadOff := rfl
@[simp] theorem acknowledge_decValid (m : Word) (s : State) : (acknowledge m s).decValid = s.decValid := rfl
@[simp] theorem acknowledge_ibuf (m : Word) (s : State) : (acknowledge m s).ibuf = s.ibuf := rfl
@[simp] theorem acknowledge_obuf (m : Word) (s : State) : (acknowledge m s).obuf = s.obuf := rfl
@[simp] theorem acknowledge_pendingOp (m : Word) (s : State) : (acknowledge m s).pendingOp = s.pendingOp := rfl
@[simp] theorem acknowledge_work (m : Word) (s : State) : (acknowledge m s).work = s.work := rfl
@[simp] theorem acknowledge_cfg (m : Word) (s : State) : (acknowledge m s).cfg = s.cfg := rfl
@[simp] theorem acknowledge_host (m : Word) (s : State) : (acknowledge m s).host = s.host := rfl
@[simp] theorem acknowledge_agenda (m : Word) (s : State) : (acknowledge m s).agenda = s.agenda := rfl
@[simp] theorem acknowledge_draws (m : Word) (s : State) : (acknowledge m s).draws = s.draws := rfl

/-! ### dropWrite -/

@[simp] theorem dropWrite_ctrl (s : State) : (dropWrite s).ctrl = s.ctrl := rfl
@[simp] theorem dropWrite_status (s : State) : (dropWrite s).status = { s.status with wbusy := true } := rfl
@[simp] theorem dropWrite_errInfo (s : State) : (dropWrite s).errInfo = s.errInfo := rfl
@[simp] theorem dropWrite_srcLen (s : State) : (dropWrite s).srcLen = s.srcLen := rfl
@[simp] theorem dropWrite_dstLen (s : State) : (dropWrite s).dstLen = s.dstLen := rfl
@[simp] theorem dropWrite_payloadBits (s : State) : (dropWrite s).payloadBits = s.payloadBits := rfl
@[simp] theorem dropWrite_freq (s : State) : (dropWrite s).freq = s.freq := rfl
@[simp] theorem dropWrite_code (s : State) : (dropWrite s).code = s.code := rfl
@[simp] theorem dropWrite_enode (s : State) : (dropWrite s).enode = s.enode := rfl
@[simp] theorem dropWrite_encNodes (s : State) : (dropWrite s).encNodes = s.encNodes := rfl
@[simp] theorem dropWrite_encRoot (s : State) : (dropWrite s).encRoot = s.encRoot := rfl
@[simp] theorem dropWrite_dnode (s : State) : (dropWrite s).dnode = s.dnode := rfl
@[simp] theorem dropWrite_decNodes (s : State) : (dropWrite s).decNodes = s.decNodes := rfl
@[simp] theorem dropWrite_decNcodes (s : State) : (dropWrite s).decNcodes = s.decNcodes := rfl
@[simp] theorem dropWrite_decPayloadOff (s : State) : (dropWrite s).decPayloadOff = s.decPayloadOff := rfl
@[simp] theorem dropWrite_decValid (s : State) : (dropWrite s).decValid = s.decValid := rfl
@[simp] theorem dropWrite_ibuf (s : State) : (dropWrite s).ibuf = s.ibuf := rfl
@[simp] theorem dropWrite_obuf (s : State) : (dropWrite s).obuf = s.obuf := rfl
@[simp] theorem dropWrite_pendingOp (s : State) : (dropWrite s).pendingOp = s.pendingOp := rfl
@[simp] theorem dropWrite_work (s : State) : (dropWrite s).work = s.work := rfl
@[simp] theorem dropWrite_cfg (s : State) : (dropWrite s).cfg = s.cfg := rfl
@[simp] theorem dropWrite_host (s : State) : (dropWrite s).host = s.host := rfl
@[simp] theorem dropWrite_agenda (s : State) : (dropWrite s).agenda = s.agenda := rfl
@[simp] theorem dropWrite_draws (s : State) : (dropWrite s).draws = s.draws := rfl

/-! ### storeOutput -/

@[simp] theorem storeOutput_ctrl (k : Sink) (n : Nat) (s : State) : (storeOutput k n s).ctrl = s.ctrl := rfl
@[simp] theorem storeOutput_status (k : Sink) (n : Nat) (s : State) : (storeOutput k n s).status = s.status := rfl
@[simp] theorem storeOutput_errInfo (k : Sink) (n : Nat) (s : State) : (storeOutput k n s).errInfo = s.errInfo := rfl
@[simp] theorem storeOutput_srcLen (k : Sink) (n : Nat) (s : State) : (storeOutput k n s).srcLen = s.srcLen := rfl
@[simp] theorem storeOutput_dstLen (k : Sink) (n : Nat) (s : State) :
    (storeOutput k n s).dstLen =
      BitVec.ofNat 32 k.written := rfl
@[simp] theorem storeOutput_payloadBits (k : Sink) (n : Nat) (s : State) :
    (storeOutput k n s).payloadBits =
      BitVec.ofNat 32 n := rfl
@[simp] theorem storeOutput_freq (k : Sink) (n : Nat) (s : State) : (storeOutput k n s).freq = s.freq := rfl
@[simp] theorem storeOutput_code (k : Sink) (n : Nat) (s : State) : (storeOutput k n s).code = s.code := rfl
@[simp] theorem storeOutput_enode (k : Sink) (n : Nat) (s : State) : (storeOutput k n s).enode = s.enode := rfl
@[simp] theorem storeOutput_encNodes (k : Sink) (n : Nat) (s : State) : (storeOutput k n s).encNodes = s.encNodes := rfl
@[simp] theorem storeOutput_encRoot (k : Sink) (n : Nat) (s : State) : (storeOutput k n s).encRoot = s.encRoot := rfl
@[simp] theorem storeOutput_dnode (k : Sink) (n : Nat) (s : State) : (storeOutput k n s).dnode = s.dnode := rfl
@[simp] theorem storeOutput_decNodes (k : Sink) (n : Nat) (s : State) : (storeOutput k n s).decNodes = s.decNodes := rfl
@[simp] theorem storeOutput_decNcodes (k : Sink) (n : Nat) (s : State) :
    (storeOutput k n s).decNcodes =
      s.decNcodes := rfl
@[simp] theorem storeOutput_decPayloadOff (k : Sink) (n : Nat) (s : State) :
    (storeOutput k n s).decPayloadOff =
      s.decPayloadOff := rfl
@[simp] theorem storeOutput_decValid (k : Sink) (n : Nat) (s : State) : (storeOutput k n s).decValid = s.decValid := rfl
@[simp] theorem storeOutput_ibuf (k : Sink) (n : Nat) (s : State) : (storeOutput k n s).ibuf = s.ibuf := rfl
@[simp] theorem storeOutput_obuf (k : Sink) (n : Nat) (s : State) :
    (storeOutput k n s).obuf =
      s.obuf.writeOutput k.bytes := rfl
@[simp] theorem storeOutput_pendingOp (k : Sink) (n : Nat) (s : State) :
    (storeOutput k n s).pendingOp =
      s.pendingOp := rfl
@[simp] theorem storeOutput_work (k : Sink) (n : Nat) (s : State) : (storeOutput k n s).work = s.work := rfl
@[simp] theorem storeOutput_cfg (k : Sink) (n : Nat) (s : State) : (storeOutput k n s).cfg = s.cfg := rfl
@[simp] theorem storeOutput_host (k : Sink) (n : Nat) (s : State) : (storeOutput k n s).host = s.host := rfl
@[simp] theorem storeOutput_agenda (k : Sink) (n : Nat) (s : State) : (storeOutput k n s).agenda = s.agenda := rfl
@[simp] theorem storeOutput_draws (k : Sink) (n : Nat) (s : State) : (storeOutput k n s).draws = s.draws := rfl

/-! ### clearTables -/

@[simp] theorem clearTables_ctrl (s : State) : (clearTables s).ctrl = s.ctrl := rfl
@[simp] theorem clearTables_status (s : State) : (clearTables s).status = s.status := rfl
@[simp] theorem clearTables_errInfo (s : State) : (clearTables s).errInfo = s.errInfo := rfl
@[simp] theorem clearTables_srcLen (s : State) : (clearTables s).srcLen = s.srcLen := rfl
@[simp] theorem clearTables_dstLen (s : State) : (clearTables s).dstLen = 0 := rfl
@[simp] theorem clearTables_payloadBits (s : State) : (clearTables s).payloadBits = 0 := rfl
@[simp] theorem clearTables_freq (s : State) : (clearTables s).freq = Table.fill 256 0 := rfl
@[simp] theorem clearTables_code (s : State) : (clearTables s).code = Table.fill 256 CodeEntry.none := rfl
@[simp] theorem clearTables_enode (s : State) : (clearTables s).enode = Table.fill 511 ENode.cleared := rfl
@[simp] theorem clearTables_encNodes (s : State) : (clearTables s).encNodes = 0 := rfl
@[simp] theorem clearTables_encRoot (s : State) : (clearTables s).encRoot = 0 := rfl
@[simp] theorem clearTables_dnode (s : State) : (clearTables s).dnode = Table.fill 511 DNode.cleared := rfl
@[simp] theorem clearTables_decNodes (s : State) : (clearTables s).decNodes = 0 := rfl
@[simp] theorem clearTables_decNcodes (s : State) : (clearTables s).decNcodes = 0 := rfl
@[simp] theorem clearTables_decPayloadOff (s : State) : (clearTables s).decPayloadOff = 0 := rfl
@[simp] theorem clearTables_decValid (s : State) : (clearTables s).decValid = false := rfl
@[simp] theorem clearTables_ibuf (s : State) : (clearTables s).ibuf = s.ibuf := rfl
@[simp] theorem clearTables_obuf (s : State) : (clearTables s).obuf = s.obuf := rfl
@[simp] theorem clearTables_pendingOp (s : State) : (clearTables s).pendingOp = s.pendingOp := rfl
@[simp] theorem clearTables_work (s : State) : (clearTables s).work = s.work := rfl
@[simp] theorem clearTables_cfg (s : State) : (clearTables s).cfg = s.cfg := rfl
@[simp] theorem clearTables_host (s : State) : (clearTables s).host = s.host := rfl
@[simp] theorem clearTables_agenda (s : State) : (clearTables s).agenda = s.agenda := rfl
@[simp] theorem clearTables_draws (s : State) : (clearTables s).draws = s.draws := rfl

/-! ### clearEncoder -/

@[simp] theorem clearEncoder_ctrl (s : State) : (clearEncoder s).ctrl = s.ctrl := rfl
@[simp] theorem clearEncoder_status (s : State) : (clearEncoder s).status = s.status := rfl
@[simp] theorem clearEncoder_errInfo (s : State) : (clearEncoder s).errInfo = s.errInfo := rfl
@[simp] theorem clearEncoder_srcLen (s : State) : (clearEncoder s).srcLen = s.srcLen := rfl
@[simp] theorem clearEncoder_dstLen (s : State) : (clearEncoder s).dstLen = s.dstLen := rfl
@[simp] theorem clearEncoder_payloadBits (s : State) : (clearEncoder s).payloadBits = s.payloadBits := rfl
@[simp] theorem clearEncoder_freq (s : State) : (clearEncoder s).freq = s.freq := rfl
@[simp] theorem clearEncoder_code (s : State) : (clearEncoder s).code = Table.fill 256 CodeEntry.none := rfl
@[simp] theorem clearEncoder_enode (s : State) : (clearEncoder s).enode = Table.fill 511 ENode.cleared := rfl
@[simp] theorem clearEncoder_encNodes (s : State) : (clearEncoder s).encNodes = 0 := rfl
@[simp] theorem clearEncoder_encRoot (s : State) : (clearEncoder s).encRoot = 0 := rfl
@[simp] theorem clearEncoder_dnode (s : State) : (clearEncoder s).dnode = s.dnode := rfl
@[simp] theorem clearEncoder_decNodes (s : State) : (clearEncoder s).decNodes = s.decNodes := rfl
@[simp] theorem clearEncoder_decNcodes (s : State) : (clearEncoder s).decNcodes = s.decNcodes := rfl
@[simp] theorem clearEncoder_decPayloadOff (s : State) : (clearEncoder s).decPayloadOff = s.decPayloadOff := rfl
@[simp] theorem clearEncoder_decValid (s : State) : (clearEncoder s).decValid = s.decValid := rfl
@[simp] theorem clearEncoder_ibuf (s : State) : (clearEncoder s).ibuf = s.ibuf := rfl
@[simp] theorem clearEncoder_obuf (s : State) : (clearEncoder s).obuf = s.obuf := rfl
@[simp] theorem clearEncoder_pendingOp (s : State) : (clearEncoder s).pendingOp = s.pendingOp := rfl
@[simp] theorem clearEncoder_work (s : State) : (clearEncoder s).work = s.work := rfl
@[simp] theorem clearEncoder_cfg (s : State) : (clearEncoder s).cfg = s.cfg := rfl
@[simp] theorem clearEncoder_host (s : State) : (clearEncoder s).host = s.host := rfl
@[simp] theorem clearEncoder_agenda (s : State) : (clearEncoder s).agenda = s.agenda := rfl
@[simp] theorem clearEncoder_draws (s : State) : (clearEncoder s).draws = s.draws := rfl

end Sys2Proof.Machine
end

