-- ==== Sys2Proof/Laws/Step.lean ====
section
/-! SUPPORT. What one step can do, said once: every invariant of the machine is derived from `step_cases`. -/

namespace Sys2Proof.Machine

open Sys2Proof

/-- The core's step is a command, an illegal word, or, with no pending word, the fault of log entry 11. -/
theorem coreStep_cases (s : State) :
    (s.pendingOp = none ∧ coreStep s = .fault .busyWithoutCommand) ∨
      (∃ v i, s.pendingOp = some v ∧ decode v = .ok i ∧ coreStep s = exec i s) ∨
      ∃ v e, s.pendingOp = some v ∧ decode v = .error e ∧ coreStep s = .next (completeError s ⟨.badCmd, v⟩) := by
  unfold coreStep fetch
  cases h : s.pendingOp with
  | none => exact .inl ⟨rfl, rfl⟩
  | some v =>
    cases hd : decode v with
    | ok i => exact .inr (.inl ⟨v, i, rfl, hd, by simp [hd]⟩)
    | error e => exact .inr (.inr ⟨v, e, rfl, hd, by simp [hd, execIllegal, complete]⟩)

/-- A step is a host step, a completion of the core while BUSY = 1, an idle turn of the core, or a reset; each from the
state with the turn taken from the agenda. -/
theorem step_cases (s : State) :
    ∃ a, let u := { s with agenda := a }
      step s = .next (hostStep u) ∨ (s.status.busy = true ∧ step s = coreStep u) ∨
        (s.status.busy = false ∧ step s = .next u) ∨ step s = .next (resetBlock u) := by
  obtain ⟨a, ha⟩ := takeTurn_state s
  refine ⟨a, ?_⟩
  simp only [step, ha]
  cases (takeTurn s).1 with
  | host => exact .inl rfl
  | reset => exact .inr (.inr (.inr rfl))
  | core =>
    cases h : s.status.busy with
    | true => exact .inr (.inl ⟨rfl, by simp [runTurn, h]⟩)
    | false => exact .inr (.inr (.inl ⟨rfl, by simp [runTurn, h]⟩))

end Sys2Proof.Machine
end

