-- ==== Sys2Proof/Tests/Slice0.lean ====
section
/-! SUPPORT. Tests of single steps against the spec's words, tables and vectors (spec/95_test_vectors.md; each test names
its source), and then a witness for the hypotheses of every obligation. -/

namespace Sys2Proof.Tests

set_option Elab.async false

open Sys2Proof Sys2Proof.Machine

/-! ### Helpers -/

/-- The next state of an outcome (`State.reset` for a stop; no test meets one). -/
def nextOf : Host.Outcome State Fault Refusal → State
  | .next t => t
  | .fault _ => State.reset
  | .refused _ => State.reset

theorem exec_eq_next (i : Instr) (s : State) : exec i s = .next (nextOf (exec i s)) := by
  have h : ∀ r, complete r = .next (nextOf (complete r)) := fun r => by cases r <;> rfl
  cases i
  · exact h (.ok s)
  · exact h (.ok (clearTables s))
  · exact h (encodeBody s)
  · exact h (countBody s)
  · exact h (buildBody s)
  · exact h (gencodesBody s)
  · exact h (emitBody s)
  · exact h (decodeBody s)
  · exact h (rebuildBody s)
  · exact h (walkBody s)

/-- `s` with the bytes `bs` in IBUF from index 0 on, SRC_LEN their number, and TRAILER = `hard`. -/
def load (bs : List Byte) (hard : Bool) (s : State) : State :=
  { s with ibuf := ⟨cellsFrom 0 bs, 0⟩, srcLen := BitVec.ofNat 32 bs.length, ctrl := ⟨hard, false⟩ }

/-- The reset state with `bs` loaded, hardened mode. -/
def hard (bs : List Byte) : State := load bs true State.reset

/-- The reset state with `bs` loaded, reference mode. -/
def soft (bs : List Byte) : State := load bs false State.reset

/-- The state after command `i`. -/
def after (i : Instr) (s : State) : State := nextOf (exec i s)

/-- STATUS[15:8], ERR_INFO, DST_LEN and PAYLOAD_BITS. -/
def report (s : State) : Byte × Word × Nat × Nat := (s.status.errCode, s.errInfo, s.dstLen.toNat, s.payloadBits.toNat)

/-- What a 32-bit read at `off` answers. -/
def readWord (off : Word) (s : State) : Word := (busRead .word off s).1.data

/-- "ab". -/
def ab : List Byte := [0x61, 0x62]

/-- The hardened frame of "ab": 95_test_vectors.md V-E4. -/
def abFrame : List Byte :=
  [0x02, 0, 0, 0, 0, 0, 0, 0, 0x61, 0x01, 0, 0, 0, 0, 0, 0, 0, 0x30, 0x62, 0x01, 0, 0, 0, 0, 0, 0, 0, 0x31, 0x40,
   0x02, 0, 0, 0, 0, 0, 0, 0]

/-- "aaaabbbccd": 95_test_vectors.md L1-1. -/
def abcd10 : List Byte := [0x61, 0x61, 0x61, 0x61, 0x62, 0x62, 0x62, 0x63, 0x63, 0x64]

/-! ### Well-formedness: each check refuses an ill-formed term (00_scope.md R10) -/

theorem test_config_default_wf : Config.default.wf = true := by decide
theorem test_config_no_ibuf_refused : (Config.mk 0 65536 0).wf = false := by decide
theorem test_config_large_ibuf_refused : (Config.mk 1048577 65536 0).wf = false := by decide
theorem test_config_no_obuf_refused : (Config.mk 65536 0 0).wf = false := by decide
theorem test_config_large_obuf_refused : (Config.mk 65536 1048577 0).wf = false := by decide
theorem test_config_bounds_wf : (Config.mk 1 1048576 0).wf = true := by decide

/-! ### Decoding (30_encoding.md R142; the words are written out from R141 and the opcode map) -/

theorem test_decode_nop : decode 0b00000000000000000000000000000000 = .ok .nop := by decide
theorem test_decode_clear : decode 0b00000000000000000000000000000001 = .ok .clear := by decide
theorem test_decode_encode : decode 0b00000000000000000000000000010000 = .ok .encode := by decide
theorem test_decode_count : decode 0b00000000000000000000000000010001 = .ok .count := by decide
theorem test_decode_build : decode 0b00000000000000000000000000010010 = .ok .build := by decide
theorem test_decode_gencodes : decode 0b00000000000000000000000000010011 = .ok .gencodes := by decide
theorem test_decode_emit : decode 0b00000000000000000000000000010100 = .ok .emit := by decide
theorem test_decode_decode : decode 0b00000000000000000000000000100000 = .ok .decode := by decide
theorem test_decode_rebuild : decode 0b00000000000000000000000000100001 = .ok .rebuild := by decide
theorem test_decode_walk : decode 0b00000000000000000000000000100010 = .ok .walk := by decide
/-- 41_control_commands.md R203: OP 0x10 with RSVD = 1 is no ENCODE. -/
theorem test_decode_reserved_bits : decode 0x00000110 = .error .reservedNonZero := by decide
theorem test_decode_unassigned : decode 0x000000FF = .error .unassignedOpcode := by decide
theorem test_decode_bytes : decodeBytes [0x22, 0, 0, 0] = .ok .walk ∧ decodeBytes [0x22] = .error .notOneWord := by decide
theorem test_decode_table_word : decodeTableWord 32 0x14 = some .emit ∧ decodeTableWord 32 0x114 = none := by decide

/-! ### Control commands (95_test_vectors.md V-C1 to V-C5) -/

/-- V-C1. -/
theorem test_nop_status : readWord 0x010 (nextOf (step (State.reset.withFetchWord 32 0x00))) = 0x00000002 := by decide +kernel
/-- V-C2: CLEAR after ENCODE of "ab" keeps the frame in OBUF. -/
theorem test_clear_after_encode :
    let t := after .clear (after .encode (hard ab))
    (t.encNodes, t.dstLen, codeCount t.code, encNsym t.freq) = (0, 0, 0, 0) ∧ t.obuf.read 28 = 0x40 := by decide +kernel
/-- V-C3. -/
theorem test_illegal_status : readWord 0x010 (nextOf (step (State.reset.withFetchWord 32 0xFF))) = 0x00FF0106 := by decide +kernel
/-- V-C4. -/
theorem test_illegal_rsvd :
    let t := nextOf (step (State.reset.withFetchWord 32 0x110))
    (readWord 0x010 t, readWord 0x014 t) = (0x00100106, 0x00000110) := by decide +kernel

/-! ### COUNT, BUILD, GENCODES (V-N1, V-N5, V-B1, V-B3, V-B6, V-G1, V-G2) -/

/-- V-N1. -/
theorem test_count_window :
    let t := after .count (hard abcd10)
    (readWord 0x1184 t, readWord 0x1188 t, readWord 0x024 t) = (4, 3, 4) := by decide +kernel
/-- V-N5. -/
theorem test_count_src_len_error :
    report (after .count { State.reset with srcLen := 65537 }) = (0x10, 0x00010001, 0, 0) := by decide +kernel
/-- V-B1: the tie between b and node 4 goes to the smaller index. -/
theorem test_build_tie :
    let t := after .build (after .count (hard abcd10))
    (readWord 0x4054 t, readWord 0x4058 t, readWord 0x4064 t, readWord 0x028 t, readWord 0x02C t) = (0x00040001, 6, 0x00050000, 7, 6) := by
  decide +kernel
/-- V-B6. -/
theorem test_build_empty : report (after .build State.reset) = (0x20, 0, 0, 0) := by decide +kernel
/-- V-G1. -/
theorem test_gencodes_words :
    let t := after .gencodes (after .build (after .count (hard abcd10)))
    (readWord 0x1584 t, readWord 0x158C t, readWord 0x2C40 t, readWord 0x2C60 t, readWord 0x2C80 t) = (0x80000001, 0x80000003, 1, 7, 3) := by
  decide +kernel
/-- V-G2: the single symbol gets the code "0". -/
theorem test_gencodes_single :
    let t := after .gencodes (after .build (after .count (hard [0x61, 0x61, 0x61, 0x61])))
    (readWord 0x1584 t, readWord 0x2C20 t) = (0x80000001, 0) := by decide +kernel

/-! ### EMIT, ENCODE (V-E1, V-E4, V-E13, V-E14, L1-2) -/

/-- V-E13: the third byte has no code. -/
theorem test_emit_no_code :
    report (after .emit (load [0x61, 0x62, 0x63] true (after .encode (hard ab)))) = (0x22, 0x63000002, 0, 0) := by
  decide +kernel
/-- V-E12: no input, the table of all codes and the trailer. -/
theorem test_emit_empty_input :
    report (after .emit (load [] true (after .encode (hard [0x61, 0x62, 0x63, 0x63])))) = (0, 0, 48, 0) := by
  decide +kernel
/-- V-E4. -/
theorem test_encode_frame : output (after .encode (hard ab)) = abFrame := by decide +kernel
/-- V-E14: OBUF_BYTES = 16. -/
theorem test_encode_overflow :
    report (after .encode { hard abcd10 with cfg := ⟨65536, 16, 0⟩ }) = (0x11, 16, 0, 0) := by decide +kernel

/-! ### REBUILD, WALK, DECODE (V-D1, V-D7, V-D25, V-W1, L1-3) -/

/-- V-D7: "0" is a prefix of "01". -/
theorem test_rebuild_prefix_conflict :
    let t := after .rebuild (hard
      [0x02, 0, 0, 0, 0, 0, 0, 0, 0x61, 0x01, 0, 0, 0, 0, 0, 0, 0, 0x30, 0x62, 0x02, 0, 0, 0, 0, 0, 0, 0, 0x30, 0x31,
       0, 0, 0, 0, 0, 0, 0, 0])
    (report t, t.decValid) = ((0x35, 0x12, 0, 0), false) := by decide +kernel
/-- V-D1's first nodes, for the frame of "ab". -/
theorem test_rebuild_nodes :
    let t := after .rebuild (hard abFrame)
    (readWord 0x6000 t, readWord 0x6004 t, readWord 0x6008 t, readWord 0x034 t, readWord 0x038 t, readWord 0x03C t) =
      (0x00000001, 0x00020001, 0x00006102, 3, 28, 1) := by decide +kernel
/-- V-W1. -/
theorem test_walk_no_tree : readWord 0x010 (nextOf (step (State.reset.withFetchWord 32 0x22))) = 0x00223706 := by decide +kernel
/-- V-W3, for the frame of "ab". -/
theorem test_walk_output : output (after .walk (after .rebuild (hard abFrame))) = ab := by decide +kernel
/-- V-E4, decoded. -/
theorem test_decode_output :
    let t := after .decode (hard abFrame)
    (output t, report t) = (ab, (0, 0, 2, 2)) := by decide +kernel
/-- L1-3: in reference mode the padding of "aaaa" decodes as four more. -/
theorem test_decode_padding :
    output (after .decode (soft [0x01, 0, 0, 0, 0, 0, 0, 0, 0x61, 0x01, 0, 0, 0, 0, 0, 0, 0, 0x30, 0x00])) =
      List.replicate 8 0x61 := by decide +kernel

/-! ### Bus transactions (V-M1 to V-M12) and turns -/

/-- V-M1, V-M3, V-M5, V-M12. -/
theorem test_bus_reads :
    (busRead .word 0x000 State.reset).1 = ⟨0x48554646, false⟩ ∧ (busRead .half 0x000 State.reset).1 = ⟨0, true⟩ ∧
      (busRead .word 0x050 State.reset).1 = ⟨0, true⟩ ∧ (busRead .word 0x5FF0 State.reset).1 = ⟨0, true⟩ := by
  decide +kernel
/-- V-M4, V-M7, V-M11. -/
theorem test_bus_write_responses :
    (busWrite .half 0x100001 1 State.reset).1 = ⟨0, true⟩ ∧ (busWrite .word 0x200000 1 State.reset).1 = ⟨0, false⟩ ∧
      (busWrite .byte 0x110000 0 State.reset).1 = ⟨0, true⟩ := by decide +kernel
/-- 20_memory.md R103: the word 0x6362_6261 is the bytes 61 62 62 63 (V-M6 lists other bytes; log entry 21). -/
theorem test_bus_ibuf_little_endian :
    let t := (busWrite .word 0x100000 0x63626261 State.reset).2
    (busRead .byte 0x100000 t).1.data = 0x61 ∧ (busRead .half 0x100002 t).1.data = 0x6362 := by decide +kernel
/-- V-M9. -/
theorem test_bus_ctrl : readWord 0x008 (busWrite .word 0x008 0xFFFFFFFF State.reset).2 = 3 := by decide +kernel
/-- 70_reset_and_hazards.md R460. -/
theorem test_bus_dropped_write :
    let t := (busWrite .word 0x018 5 (accept 0x20 State.reset)).2
    (t.srcLen, t.status.wbusy) = (0, true) := by decide +kernel
/-- L3-6: clearing DONE lets irq fall. -/
theorem test_irq :
    let t := after .nop { State.reset with ctrl := ⟨true, true⟩ }
    (t.irq, (busWrite .word 0x010 2 t).2.irq) = (true, false) := by decide +kernel
/-- 70_reset_and_hazards.md R450: reset aborts a pending command and keeps IBUF. -/
theorem test_reset_turn :
    let t := nextOf (step { accept 0x10 (hard ab) with agenda := [.reset] })
    (t.status.busy, t.pendingOp, t.srcLen, t.ibuf.read 1) = (false, none, 0, 0x62) := by decide +kernel
/-- 30_encoding.md R148: `CMD NOP; WAIT` from reset, the poll loop left by its second line. -/
theorem test_host_program :
    let s := { State.reset with host := ⟨cmd .nop ++ wait 1 0, 0, [], none⟩ }
    (match Host.Core.run core 4 s with | .next t => (t.host.line, nameValue t.host.names 0) | _ => (0, 0)) = (3, 2) := by
  decide +kernel

/-! ### Witnesses: for each obligation with hypotheses, a state and operands that meet them; one conjunct for each clause

The states are small: `busy` has a pending ENCODE; `tree2` and `tree1` are the encoder trees of "ab" and "a"; `dec2` is the
decoder tree of the codes a = "0", b = "1". -/

/-- An ENCODE is pending. -/
def busy : State := accept 0x10 State.reset

/-- The Leaves a and b and their parent. -/
def tree2 : Table ENode 511 := arenaOf [ENode.mkLeaf 0x61 1, ENode.mkLeaf 0x62 1, ⟨true, false, 0, 0, 1, 2⟩]

/-- The Leaf a alone. -/
def tree1 : Table ENode 511 := arenaOf [ENode.mkLeaf 0x61 1]

/-- The node over the LEAFs a and b. -/
def dec2 : Table DNode 511 :=
  Table.tabulate 511 fun i =>
    [DNode.mk .internal 0 1 2, ⟨.leaf, 0x61, 0xFFFF, 0xFFFF⟩, ⟨.leaf, 0x62, 0xFFFF, 0xFFFF⟩].getD i DNode.cleared

/-- The root is the LEAF a. -/
def dec1 : Table DNode 511 := Table.tabulate 511 fun i => [DNode.mk .leaf 0x61 0xFFFF 0xFFFF].getD i DNode.cleared

/-- The codes a = "0" and b = "1". -/
def codes2 : List Entry := [(0x61, [false]), (0x62, [true])]

/-- The same codes in CODE. -/
def code2 : Table CodeEntry 256 :=
  Table.tabulate 256 fun i =>
    if BitVec.ofNat 8 i = 0x61 then CodeEntry.ofPath [false]
    else if BitVec.ofNat 8 i = 0x62 then CodeEntry.ofPath [true] else CodeEntry.none

/-- `s` with the tree and the codes of "ab". -/
def withTree2 (s : State) : State := { s with enode := tree2, encNodes := 3, encRoot := 2, code := code2 }

/-- `s` with the tree of "a". -/
def withTree1 (s : State) : State := { s with enode := tree1, encNodes := 1, encRoot := 0 }

/-- `s` with the decoder tree of "ab", its payload at offset 28. -/
def withDec2 (s : State) : State :=
  { s with dnode := dec2, decNodes := 3, decNcodes := 2, decPayloadOff := 28, decValid := true }

/-- `s` with the decoder tree whose root is a LEAF, its payload at offset 17. -/
def withDec1 (s : State) : State :=
  { s with dnode := dec1, decNodes := 1, decNcodes := 1, decPayloadOff := 17, decValid := true }

theorem arenaOf_at (ns : List ENode) (i : Nat) (h : i < 511) : enodeAt (arenaOf ns) i = ns.getD i ENode.cleared := by
  rw [enodeAt, arenaOf, Table.get_tabulate, if_pos h]

theorem encTree2 : IsEncTree tree2 2 := by
  have h0 : enodeAt tree2 0 = ENode.mkLeaf 0x61 1 := arenaOf_at _ 0 (by decide)
  have h1 : enodeAt tree2 1 = ENode.mkLeaf 0x62 1 := arenaOf_at _ 1 (by decide)
  have h2 : enodeAt tree2 2 = ⟨true, false, 0, 0, 1, 2⟩ := arenaOf_at _ 2 (by decide)
  refine ⟨by decide, by decide, fun i hi => ?_, fun i j hij hj => ?_, fun m h1m hm => ?_, fun i hi => ?_, fun i h1i hi => ?_⟩
  · obtain rfl | rfl : i = 0 ∨ i = 1 := by omega
    · rw [h0]; decide
    · rw [h1]; decide
  · obtain ⟨rfl, rfl⟩ : i = 0 ∧ j = 1 := by omega
    rw [h0, h1]; decide
  · obtain rfl : m = 2 := by omega
    rw [h2]; decide
  · refine ⟨2, ⟨by decide, by decide, ?_⟩, fun m hm => by omega⟩
    rw [h2]
    obtain rfl | rfl : i = 0 ∨ i = 1 := by omega
    · decide
    · decide
  · exact (arenaOf_at _ i hi).trans (List.getD_eq_default _ _ (by simpa using h1i))

theorem encTree1 : IsEncTree tree1 1 := by
  have h0 : enodeAt tree1 0 = ENode.mkLeaf 0x61 1 := arenaOf_at _ 0 (by decide)
  refine ⟨by decide, by decide, fun i hi => ?_, fun i j hij hj => by omega, fun m h1m hm => by omega, fun i hi => by omega,
    fun i h1i hi => ?_⟩
  · obtain rfl : i = 0 := by omega
    rw [h0]; decide
  · exact (arenaOf_at _ i hi).trans (List.getD_eq_default _ _ (by simpa using h1i))

theorem decTree2 : IsDecTree dec2 3 := by
  refine ⟨⟨by decide, by decide, fun i hi => ?_, fun i hi => ?_⟩, by decide +kernel, fun j h1 hj => ?_⟩
  · have : i < 511 := by omega
    simp only [dec2, Table.get_tabulate, if_pos this, LinkOk]
    obtain rfl | rfl | rfl : i = 0 ∨ i = 1 ∨ i = 2 := by omega
    · decide
    · decide
    · decide
  · simp only [dec2, Table.get_tabulate]
    split
    · exact List.getD_eq_default _ _ (by simpa using hi)
    · rfl
  · obtain rfl | rfl : j = 1 ∨ j = 2 := by omega
    all_goals
      refine ⟨0, ⟨by decide, by decide +kernel⟩, fun i hi => ?_⟩
      have hi3 := hi.1
      obtain rfl | rfl | rfl : i = 0 ∨ i = 1 ∨ i = 2 := by omega
      · rfl
      · exact absurd hi.2 (by decide +kernel)
      · exact absurd hi.2 (by decide +kernel)

/-- What `load` puts into IBUF is the input. -/
theorem input_load (bs : List Byte) (h : Bool) (s : State) (hl : bs.length < 2 ^ 32) : input (load bs h s) = bs := by
  have hn : (BitVec.ofNat 32 bs.length).toNat = bs.length := by rw [BitVec.toNat_ofNat]; exact Nat.mod_eq_of_lt hl
  apply List.ext_getElem
  · simp only [input_length]; exact hn
  · intro k h1 h2
    rw [input_getElem]
    have := cellAt_cellsFrom_append 0 k bs []
    simp only [List.append_nil, Nat.zero_le, Nat.zero_add, true_and, h2, dite_true, Nat.sub_zero] at this
    simp [load, Memory.read, this]

theorem witness_IllegalWordCompletesWithBadCmd :
    (State.reset.agenda = [] ∧ (0x110 : Word).extractLsb' 8 24 ≠ 0) ∧
      { State.reset with agenda := [.core, .host] }.agenda = .core :: [.host] ∧
      (0xFF : Word).extractLsb' 0 8 ∉ ([0x00, 0x01, 0x10, 0x11, 0x12, 0x13, 0x14, 0x20, 0x21, 0x22] : List Byte) := by
  decide

theorem witness_StepRunsDecodedCommand :
    (busy.status.busy = true ∧ busy.pendingOp = some 0x10 ∧ decode 0x10 = .ok .encode ∧ busy.agenda = []) ∧
      (let s := { busy with agenda := [.core, .host] }
       s.status.busy = true ∧ s.pendingOp = some 0x10 ∧ s.agenda = .core :: [.host]) ∧
      decode (BitVec.ofNat 32 0x22) = .ok .walk := by
  decide

theorem witness_CmdWriteAcceptsOrIsDropped : State.reset.status.busy = false ∧ busy.status.busy = true := by decide

theorem witness_WritesWhileBusy :
    (busy.cfg.wf = true ∧ busy.status.busy = true) ∧
      (∀ off ∈ ([0x008, 0x00C, 0x018, 0x010, 0x000, 0x6FF4] : List Word),
        AccessSize.word.bytes = some 4 ∧ LegalAccess busy.cfg 4 off.toNat) ∧
      (∀ off ∈ ([0x100000, 0x10FFFF] : List Word),
        AccessSize.byte.bytes = some 1 ∧ LegalAccess busy.cfg 1 off.toNat ∧ 0x100000 ≤ off.toNat ∧ off.toNat < 0x200000) ∧
      (∀ off ∈ ([0x200000, 0x20FFFF] : List Word),
        AccessSize.byte.bytes = some 1 ∧ LegalAccess busy.cfg 1 off.toNat ∧ off ≠ 0x008 ∧ off ≠ 0x00C ∧ off ≠ 0x010 ∧
          off ≠ 0x018 ∧ 0x200000 ≤ off.toNat) := by
  simp only [List.forall_mem_cons, List.not_mem_nil, false_implies, implies_true, and_true]
  repeat' apply And.intro
  all_goals decide

theorem no_legal_access (c : Config) (size : AccessSize) (n : Nat) (off : Nat) (hs : size.bytes = some n)
    (h : ¬ LegalAccess c n off) : ¬ ∃ n, size.bytes = some n ∧ LegalAccess c n off := by
  rintro ⟨m, hm, hl⟩
  rw [hs] at hm
  cases hm
  exact h hl

theorem witness_BusErrorsExactly :
    State.reset.cfg.wf = true ∧
      (¬ ∃ n, AccessSize.illegal.bytes = some n ∧ LegalAccess State.reset.cfg n 0x100000) ∧
      (¬ ∃ n, AccessSize.word.bytes = some n ∧ LegalAccess State.reset.cfg n 0x4C) ∧
      (¬ ∃ n, AccessSize.half.bytes = some n ∧ LegalAccess State.reset.cfg n 0x48) ∧
      (¬ ∃ n, AccessSize.byte.bytes = some n ∧ LegalAccess State.reset.cfg n 0x110000) ∧
      ∃ n, AccessSize.word.bytes = some n ∧ LegalAccess State.reset.cfg n 0x48 :=
  ⟨by decide, (fun ⟨_, h, _⟩ => by cases h), no_legal_access _ _ 4 _ rfl (by decide), no_legal_access _ _ 2 _ rfl (by decide),
    no_legal_access _ _ 1 _ rfl (by decide), 4, rfl, by decide⟩

theorem witness_ReadOnlyPlacesIgnoreWrites :
    State.reset.cfg.wf = true ∧
      (∀ off ∈ ([0x000, 0x048, 0x1000, 0x17FC, 0x2000, 0x5FEC, 0x6000, 0x6FF4, 0x200000, 0x20FFFC] : List Word),
        AccessSize.word.bytes = some 4 ∧ LegalAccess State.reset.cfg 4 off.toNat ∧ off ≠ 0x008 ∧ off ≠ 0x00C ∧
          off ≠ 0x010 ∧ off ≠ 0x018 ∧ (off.toNat < 0x100000 ∨ 0x200000 ≤ off.toNat)) := by
  simp only [List.forall_mem_cons, List.not_mem_nil, false_implies, implies_true, and_true]
  repeat' apply And.intro
  all_goals decide

theorem witness_CtrlKeepsTwoBits : State.reset.status.busy = false ∧ busy.status.busy = true := by decide

theorem witness_IdentityAndParameterRegisters :
    State.reset.cfg.wf = true ∧ (State.powerUp ⟨1, 1048576, 0⟩).cfg.wf = true := by decide

theorem witness_IbufWriteAndReadBack :
    (busy.cfg.wf = true ∧ AccessSize.word.bytes = some 4 ∧ 65532 % 4 = 0 ∧ 65532 + 4 ≤ busy.cfg.ibufBytes) ∧
      (AccessSize.byte.bytes = some 1 ∧ 0 % 1 = 0 ∧ 0 + 1 ≤ busy.cfg.ibufBytes) ∧ State.reset.cfg = busy.cfg ∧
      State.reset.status.busy = false ∧ busy.status.busy = true := by
  decide

theorem witness_WindowsShowTheTables :
    (State.reset.status.busy = false ∧ 510 < 511 ∧ 7 < 8) ∧
      (State.reset.cfg.wf = true ∧ AccessSize.word.bytes = some 4 ∧ 65532 % 4 = 0 ∧
        65532 + 4 ≤ State.reset.cfg.obufBytes) ∧
      AccessSize.half.bytes = some 2 ∧ 65534 % 2 = 0 ∧ 65534 + 2 ≤ State.reset.cfg.obufBytes := by
  decide

theorem witness_BusyReadsRevealNothing :
    (let t := accept 0x10 (withTree2 (withDec2 State.reset))
     busy.status.busy = true ∧ t.status.busy = true ∧ t.cfg = busy.cfg ∧ t.draws = busy.draws ∧ t ≠ busy) ∧
      (0x01C ≤ (0x03C : Word).toNat ∧ (0x03C : Word).toNat < 0x040) ∧
      (0x1000 ≤ (0x6FF4 : Word).toNat ∧ (0x6FF4 : Word).toNat < 0x100000) ∧ 0x200000 ≤ (0x200000 : Word).toNat := by
  decide +kernel

theorem witness_HostStepsKeepPendingCommand :
    { busy with host := ⟨[w32 0x018 5], 0, [], none⟩ }.status.busy = true := by decide

theorem witness_HostStepIsOneLine :
    let h := fun k => (⟨[w32 0x018 5, r32 0x010 0, .branchZero 0 1 7, .branchNonZero 0 1 7], k, [(0, 6)], none⟩ : HostAgent)
    { State.reset with host := h 0 }.host = h 0 ∧ (h 0).program[(h 0).line]? = some (.write .word 0x018 (.lit 5)) ∧
      (h 1).program[(h 1).line]? = some (.read .word 0x010 0) ∧
      ((h 2).names.lookup 0 = some 6 ∧ (h 2).program[(h 2).line]? = some (.branchZero 0 1 7)) ∧
      (h 3).names.lookup 0 = some 6 ∧ (h 3).program[(h 3).line]? = some (.branchNonZero 0 1 7) := by
  decide

theorem witness_ResetStepAbortsAndKeepsBuffers : { busy with agenda := [.reset, .host] }.agenda = .reset :: [.host] := rfl

theorem witness_CommandsKeepTheirOperands : exec .encode (hard ab) = .next (after .encode (hard ab)) := exec_eq_next _ _

/-- NOP meets every clause, and WALK the first four. -/
theorem witness_CommandsWriteOnlyTheirTables :
    exec .nop (hard ab) = .next (after .nop (hard ab)) ∧ exec .walk (hard ab) = .next (after .walk (hard ab)) ∧
      Instr.nop ∉ [Instr.count, .encode, .clear, .build, .gencodes, .rebuild, .decode, .emit, .walk] ∧
      Instr.walk ∉ [Instr.count, .encode, .clear, .build, .gencodes, .rebuild, .decode] :=
  ⟨exec_eq_next _ _, exec_eq_next _ _, by decide, by decide⟩

theorem witness_CompletionInterrupt :
    exec .nop busy = .next (after .nop busy) ∧ (2 : Word).getLsbD 1 = true ∧ State.reset.status.busy = false ∧
      (after .nop busy).status.busy = false ∧ (after .nop busy).status.done = true :=
  ⟨exec_eq_next _ _, by decide, by decide, by decide, by decide⟩

theorem witness_ResetMeetsTheInvariants : Config.default.wf = true ∧ (Config.mk 1 1048576 0).wf = true := by decide

theorem witness_MachineNeverStops : HandshakeOk State.reset ∧ HandshakeOk busy := by
  refine ⟨⟨rfl, ?_, ?_, ?_⟩, ⟨rfl, ?_, ?_, ?_⟩⟩
  · intro v h
    cases h
  · decide
  · decide
  · intro v h
    cases h
    decide
  · decide
  · decide

/-- The step of a placed command word. -/
theorem step_placed (s : State) (w : Nat) (i : Instr) (h : decode (BitVec.ofNat 32 (w % 2 ^ 32)) = .ok i) :
    ∃ t, step (s.withFetchWord 32 w) = .next t := by
  refine ⟨nextOf (step (s.withFetchWord 32 w)), ?_⟩
  have : step (s.withFetchWord 32 w) = exec i (accept (BitVec.ofNat 32 (w % 2 ^ 32)) s) := by
    simp only [step, takeTurn, State.withFetchWord, runTurn, coreStep, fetch, accept, h, if_true]
  rw [this]
  exact exec_eq_next _ _

theorem witness_StepKeepsHandshake :
    HandshakeOk (State.reset.withFetchWord 32 0x10) ∧ ∃ t, step (State.reset.withFetchWord 32 0x10) = .next t := by
  refine ⟨⟨rfl, ?_, ?_, ?_⟩, step_placed _ _ .encode (by decide)⟩
  · intro v h
    cases h
    decide
  · decide
  · decide

theorem witness_StepKeepsBuffers :
    BuffersOk ((hard ab).withFetchWord 32 0x10) ∧ ∃ t, step ((hard ab).withFetchWord 32 0x10) = .next t :=
  ⟨⟨by decide, by decide, by decide, by decide⟩, step_placed _ _ .encode (by decide)⟩

theorem code2_at (b : Byte) : codeAt code2 b =
    if b = 0x61 then CodeEntry.ofPath [false] else if b = 0x62 then CodeEntry.ofPath [true] else CodeEntry.none := by
  rw [codeAt, code2, Table.get_tabulate, if_pos b.isLt, BitVec.ofNat_toNat, BitVec.setWidth_eq]

theorem code2_valid (b : Byte) (h : (codeAt code2 b).valid = true) : b = 0x61 ∨ b = 0x62 := by
  rw [code2_at] at h
  split at h
  · exact .inl ‹_›
  · split at h
    · exact .inr ‹_›
    · cases h

theorem code2_ok (b : Byte) : CodeEntryOk (codeAt code2 b) := by
  have bits : ∀ p : List Bool, p.length = 1 → ∀ j, (CodeEntry.ofPath p).len.toNat ≤ j →
      (CodeEntry.ofPath p).bits.getLsbD j = false := by
    intro p hp j hj
    obtain ⟨x, rfl⟩ := List.length_eq_one_iff.mp hp
    by_cases hlt : j < 256
    · cases x
      · revert j
        decide +kernel
      · revert j
        decide +kernel
    · exact BitVec.getLsbD_of_ge _ _ (by omega)
  rw [code2_at]
  split
  · exact ⟨by decide, bits [false] rfl⟩
  · split
    · exact ⟨by decide, bits [true] rfl⟩
    · exact ⟨by decide, fun j _ => by simp [CodeEntry.none]⟩

theorem witness_StepKeepsEncoderTables :
    EncoderOk ((withTree2 (hard ab)).withFetchWord 32 0x10) ∧
      ∃ t, step ((withTree2 (hard ab)).withFetchWord 32 0x10) = .next t := by
  refine ⟨⟨.inr ⟨2, encTree2, rfl, rfl⟩, fun b => ?_, fun a b hab ha hb => ?_⟩, step_placed _ _ .encode (by decide)⟩
  · have e : ((withTree2 (hard ab)).withFetchWord 32 0x10).code = code2 := rfl
    rw [e]
    exact code2_ok b
  · rcases code2_valid a ha with rfl | rfl <;> rcases code2_valid b hb with rfl | rfl
    · exact absurd rfl hab
    · decide +kernel
    · decide +kernel
    · exact absurd rfl hab

theorem witness_StepKeepsWeights :
    WeightsOk ((after .count (hard ab)).withFetchWord 32 0x12) ∧
      ∃ t, step ((after .count (hard ab)).withFetchWord 32 0x12) = .next t := by
  refine ⟨⟨by decide +kernel, fun i => ?_⟩, step_placed _ _ .build (by decide)⟩
  have : ((after .count (hard ab)).withFetchWord 32 0x12).enode = Table.fill 511 ENode.cleared := rfl
  rw [this, enodeAt, Table.get_fill]
  exact Nat.zero_le _

theorem witness_StepKeepsDecoderTree :
    DecoderOk ((withDec2 (hard ab)).withFetchWord 32 0x22) ∧ ((withDec2 (hard ab)).withFetchWord 32 0x22).decValid = true ∧
      ∃ t, step ((withDec2 (hard ab)).withFetchWord 32 0x22) = .next t :=
  ⟨fun _ => ⟨decTree2, by decide +kernel, by decide +kernel, by decide, by decide, by decide⟩, rfl, step_placed _ _ .walk (by decide)⟩

theorem witness_CountCountsTheInput :
    ((hard ab).srcLen.toNat ≤ (hard ab).cfg.ibufBytes ∧
        { State.reset with srcLen := 65536 }.srcLen.toNat ≤ State.reset.cfg.ibufBytes) ∧
      State.reset.cfg.ibufBytes < { State.reset with srcLen := 65537 }.srcLen.toNat := by
  decide

theorem witness_FrequenciesSumToSrcLen :
    (exec .count (hard ab) = .next (after .count (hard ab)) ∧ (after .count (hard ab)).status.errCode = 0) ∧
      (exec .encode (hard ab) = .next (after .encode (hard ab)) ∧ (after .encode (hard ab)).status.errCode = 0) ∧
      exec .count State.reset = .next (after .count State.reset) ∧ (after .count State.reset).status.errCode = 0 ∧
      State.reset.srcLen = 0 :=
  ⟨⟨exec_eq_next _ _, by decide +kernel⟩, ⟨exec_eq_next _ _, by decide +kernel⟩, exec_eq_next _ _, by decide +kernel, rfl⟩

/-- The state after COUNT of "ab" and the one after COUNT of "a". -/
theorem witness_BuildCompletes :
    (encNsym (after .count (hard ab)).freq = 2 ∧ freqAt (after .count (hard ab)).freq 0x62 ≠ 0) ∧
      encNsym (after .count (hard [0x61])).freq = 1 := by
  decide +kernel

theorem witness_BuildMakesTree :
    let s := after .count (hard ab)
    (encNsym s.freq = 2 ∧ (s.freq.entries.map BitVec.toNat).sum < 2 ^ 32) ∧ exec .build s = .next (after .build s) ∧
      2 ≤ 2 ∧ 2 < 2 * 2 - 1 :=
  ⟨by decide +kernel, exec_eq_next _ _, by decide, by decide⟩

/-- Node 5 of the tree of "aaaabbbccd" (n = 4): a and node 4 are free before its merge. -/
theorem witness_BuildMergesTheLeastKeys :
    let s := after .count (hard abcd10)
    let t := after .build s
    exec .build s = .next t ∧ encNsym s.freq = 4 ∧ (4 ≤ 5 ∧ 5 < 2 * 4 - 1) ∧
      ∀ i ∈ [0, 4], i < 5 ∧ ∀ k, 4 ≤ k → k < 5 → (enodeAt t.enode k).left.toNat ≠ i ∧ (enodeAt t.enode k).right.toNat ≠ i :=
  ⟨exec_eq_next _ _, by decide +kernel⟩

theorem witness_BuildAndGencodesAreFunctions :
    (let s := after .count (hard ab)
     let s' := { s with srcLen := 7 }
     s'.freq = s.freq ∧ encNsym s.freq ≠ 0 ∧ exec .build s = .next (after .build s) ∧
       exec .build s' = .next (after .build s')) ∧
      (let s := withTree2 State.reset
       let s' := withTree2 (hard ab)
       SameEncTree s s' ∧ s.encNodes ≠ 0 ∧ exec .gencodes s = .next (after .gencodes s) ∧
         exec .gencodes s' = .next (after .gencodes s')) :=
  ⟨⟨rfl, by decide +kernel, exec_eq_next _ _, exec_eq_next _ _⟩, ⟨rfl, rfl, rfl⟩, by decide, exec_eq_next _ _,
    exec_eq_next _ _⟩

theorem witness_GencodesRecordsRootPaths :
    (IsEncTree (withTree2 State.reset).enode 2 ∧ (withTree2 State.reset).encNodes.toNat = 2 * 2 - 1 ∧
        (withTree2 State.reset).encRoot.toNat = 2 * 2 - 2) ∧
      IsEncTree (withTree1 State.reset).enode 1 ∧ (withTree1 State.reset).encNodes.toNat = 2 * 1 - 1 ∧
        (withTree1 State.reset).encRoot.toNat = 2 * 1 - 2 :=
  ⟨⟨encTree2, rfl, rfl⟩, encTree1, rfl, rfl⟩

theorem witness_GencodesIsACompletePrefixCode :
    (IsEncTree (withTree2 State.reset).enode 2 ∧ (withTree2 State.reset).encNodes.toNat = 2 * 2 - 1 ∧
        (withTree2 State.reset).encRoot.toNat = 2 * 2 - 2 ∧
        exec .gencodes (withTree2 State.reset) = .next (after .gencodes (withTree2 State.reset))) ∧
      IsEncTree (withTree1 State.reset).enode 1 ∧ (withTree1 State.reset).encNodes.toNat = 2 * 1 - 1 ∧
        (withTree1 State.reset).encRoot.toNat = 2 * 1 - 2 ∧
        exec .gencodes (withTree1 State.reset) = .next (after .gencodes (withTree1 State.reset)) :=
  ⟨⟨encTree2, rfl, rfl, exec_eq_next _ _⟩, encTree1, rfl, rfl, exec_eq_next _ _⟩

theorem witness_OutOfOrderCommandsReport :
    (∀ b, freqAt State.reset.freq b = 0) ∧ State.reset.encNodes = 0 ∧
      State.reset.srcLen.toNat ≤ State.reset.cfg.ibufBytes ∧ State.reset.decValid = false :=
  ⟨fun _ => Table.get_fill _ _ _, rfl, by decide, rfl⟩

/-- The frame of "ab" has 37 bytes; an OBUF of exactly 37 holds it. -/
theorem witness_EmitWritesTheFrame :
    let s := { withTree2 (hard ab) with cfg := ⟨65536, 37, 0⟩ }
    s.cfg.wf = true ∧ s.srcLen.toNat ≤ s.cfg.ibufBytes ∧ (∀ b ∈ input s, (codeAt s.code b).valid = true) ∧
      (frameBytes (codeEntries s.code) (messageBits s.code (input s)) s.ctrl.trailer).length ≤ s.cfg.obufBytes := by
  decide +kernel

theorem witness_EmitErrors :
    (State.reset.cfg.ibufBytes < { State.reset with srcLen := 65537 }.srcLen.toNat) ∧
      (let s := { withTree2 (load [0x61, 0x63, 0x62] true State.reset) with cfg := ⟨65536, 28, 0⟩ }
       s.srcLen.toNat ≤ s.cfg.ibufBytes ∧ input s = [0x61] ++ 0x63 :: [0x62] ∧
         (∀ c ∈ ([0x61] : List Byte), (codeAt s.code c).valid = true) ∧ (codeAt s.code 0x63).valid = false ∧
         (tableBytes (codeEntries s.code)).length + (messageBits s.code [0x61]).length / 8 ≤ s.cfg.obufBytes) ∧
      (let pre : List Byte := List.replicate 8 0x61
       let s := { withTree2 (load (pre ++ [0x63]) true State.reset) with cfg := ⟨65536, 28, 0⟩ }
       s.srcLen.toNat ≤ s.cfg.ibufBytes ∧ input s = pre ++ 0x63 :: [] ∧ (∀ c ∈ pre, (codeAt s.code c).valid = true) ∧
         (codeAt s.code 0x63).valid = false ∧
         s.cfg.obufBytes < (tableBytes (codeEntries s.code)).length + (messageBits s.code pre).length / 8) ∧
      (let s := { withTree2 (hard ab) with cfg := ⟨65536, 36, 0⟩ }
       s.srcLen.toNat ≤ s.cfg.ibufBytes ∧ (∀ b ∈ input s, (codeAt s.code b).valid = true) ∧
         s.cfg.obufBytes < (frameBytes (codeEntries s.code) (messageBits s.code (input s)) s.ctrl.trailer).length) := by
  decide +kernel

theorem witness_EncodeIsItsStages : (hard ab).srcLen.toNat ≤ (hard ab).cfg.ibufBytes ∧ (hard ab).srcLen ≠ 0 := by decide

/-- "ab" in an OBUF of 37 bytes, which is the length of its frame, and the empty input. -/
theorem witness_EncodeWritesTheFrame :
    (let s := { hard ab with cfg := ⟨2, 37, 0⟩ }
     s.cfg.wf = true ∧ s.srcLen.toNat ≤ s.cfg.ibufBytes ∧ s.srcLen ≠ 0 ∧
       (frameBytes (codeEntries (encoderCode (input s))) (messageBits (encoderCode (input s)) (input s))
         s.ctrl.trailer).length ≤ s.cfg.obufBytes) ∧
      (let s := State.reset
       s.cfg.wf = true ∧ s.srcLen.toNat ≤ s.cfg.ibufBytes ∧ s.srcLen = 0 ∧
         (frameBytes (codeEntries (encoderCode (input s))) (messageBits (encoderCode (input s)) (input s))
           s.ctrl.trailer).length ≤ s.cfg.obufBytes) := by
  decide +kernel

theorem witness_EncodeErrors :
    State.reset.cfg.ibufBytes < { State.reset with srcLen := 65537 }.srcLen.toNat ∧
      (let s := { hard ab with cfg := ⟨2, 36, 0⟩ }
       s.srcLen.toNat ≤ s.cfg.ibufBytes ∧ s.srcLen ≠ 0 ∧
         s.cfg.obufBytes < (frameBytes (codeEntries (encoderCode (input s)))
           (messageBits (encoderCode (input s)) (input s)) s.ctrl.trailer).length) ∧
      (let s := { State.reset with cfg := ⟨2, 15, 0⟩ }
       s.srcLen.toNat ≤ s.cfg.ibufBytes ∧ s.srcLen = 0 ∧
         s.cfg.obufBytes < (frameBytes (codeEntries (encoderCode (input s)))
           (messageBits (encoderCode (input s)) (input s)) s.ctrl.trailer).length) := by
  decide +kernel

/-- The table of "ab" in both modes, and the empty table. -/
theorem witness_RebuildAcceptsLegalTables :
    (LegalTable codes2 ∧ (hard abFrame).srcLen.toNat ≤ (hard abFrame).cfg.ibufBytes ∧
        input (hard abFrame) = tableBytes codes2 ++ [0x40, 0x02, 0, 0, 0, 0, 0, 0, 0] ∧
        8 ≤ ([0x40, 0x02, 0, 0, 0, 0, 0, 0, 0] : List Byte).length) ∧
      (LegalTable [] ∧ input (soft (tableBytes [])) = tableBytes [] ++ [] ∧
        (soft (tableBytes [])).srcLen.toNat ≤ State.reset.cfg.ibufBytes ∧ (soft (tableBytes [])).ctrl.trailer = false) := by
  decide +kernel

theorem witness_RebuildHeaderErrors :
    (State.reset.cfg.ibufBytes < { State.reset with srcLen := 65537 }.srcLen.toNat) ∧
      (State.reset.srcLen.toNat ≤ State.reset.cfg.ibufBytes ∧
        ((hard [0, 0, 0, 0, 0, 0, 0]).ctrl.trailer = true ∧ (hard [0, 0, 0, 0, 0, 0, 0]).srcLen.toNat < 8) ∧
        (let s := hard (List.replicate 15 0)
         (s.ctrl.trailer = true → 8 ≤ s.srcLen.toNat) ∧ s.srcLen.toNat - 8 < 8) ∧
        (let s := soft [0x01, 0x01, 0, 0, 0, 0, 0, 0]
         (s.ctrl.trailer = true → 8 ≤ s.srcLen.toNat) ∧ 8 ≤ s.srcLen.toNat ∧ 256 < leNat ((input s).take 8))) := by
  decide +kernel

/-- The entry a = "0" is in `soft`'s table of two; then the table ends, or the bytes `rest` follow. -/
def oneEntry (rest : List Byte) : State := soft (leBytes 8 2 ++ [0x61, 1, 0, 0, 0, 0, 0, 0, 0, 0x30] ++ rest)

/-- What every clause of RebuildFieldErrors asks of the input that ends with `rest`. -/
def FieldHyps (rest : List Byte) : Prop :=
  let s := oneEntry rest
  let entries : List Entry := [(0x61, [false])]
  LegalTable entries ∧ entries.length < 2 ∧ s.srcLen.toNat ≤ s.cfg.ibufBytes ∧
    input s = leBytes 8 2 ++ (tableBytes entries).drop 8 ++ rest ∧ s.ctrl.trailer = false ∧
    (tableBytes entries).length = 18 ∧ s.srcLen.toNat = 18 + rest.length

theorem fieldHyps (rest : List Byte) (h : rest.length < 65000) : FieldHyps rest := by
  have hi : input (oneEntry rest) = leBytes 8 2 ++ [0x61, 1, 0, 0, 0, 0, 0, 0, 0, 0x30] ++ rest :=
    input_load _ _ _ (by simp; omega)
  have hl : (oneEntry rest).srcLen.toNat = 18 + rest.length := by
    rw [← input_length, hi]
    simp
    omega
  refine ⟨by decide +kernel, by decide, ?_, hi, rfl, rfl, hl⟩
  rw [hl]
  exact (by omega : 18 + rest.length ≤ 65536)

/-- A table that ends after its first entry; a repeated symbol; a missing length; a length of 256; missing code bytes; a code
byte '2' after a '1'. -/
theorem witness_RebuildFieldErrors :
    FieldHyps [] ∧ (FieldHyps [0x61] ∧ (0x61 : Byte) ∈ [(0x61, [false])].map (Prod.fst (α := Byte) (β := List Bool))) ∧
      (FieldHyps [0x62, 0, 0, 0, 0, 0, 0, 0] ∧ 18 + 8 < 18 + 9) ∧
      (FieldHyps [0x62, 0, 1, 0, 0, 0, 0, 0, 0] ∧ 255 < leNat [0, 1, 0, 0, 0, 0, 0, 0]) ∧
      (FieldHyps [0x62, 2, 0, 0, 0, 0, 0, 0, 0, 0x31] ∧ leNat [2, 0, 0, 0, 0, 0, 0, 0] = 2 ∧ 18 + 10 < 18 + 9 + 2) ∧
      (FieldHyps [0x62, 2, 0, 0, 0, 0, 0, 0, 0, 0x31, 0x32] ∧ 18 + 9 + 2 ≤ 18 + 11 ∧
        (∀ c ∈ (([2, 0, 0, 0, 0, 0, 0, 0, 0x31, 0x32] : List Byte).drop 8).take 1, c = 0x30 ∨ c = 0x31) ∧
        ∀ c : Byte, ([2, 0, 0, 0, 0, 0, 0, 0, 0x31, 0x32] : List Byte)[8 + 1]? = some c → c ≠ 0x30 ∧ c ≠ 0x31) := by
  refine ⟨?_, ⟨?_, ?_⟩, ⟨?_, ?_⟩, ⟨?_, ?_⟩, ⟨?_, ?_⟩, ?_, ?_⟩
  all_goals first | exact fieldHyps _ (by decide) | decide

/-- The prefixes of two codes of 255 bits that part at the first bit, and of a third that parts at the last. -/
def longCodes : List Entry := [(1, List.replicate 255 false), (2, true :: List.replicate 254 false)]

/-- The third code. -/
def longThird : Entry := (3, List.replicate 254 false ++ [true])

/-- The prefixes of the codes of `longCodes`, each once. -/
def longPrefixes : List (List Bool) :=
  (List.range 256).map (fun k => List.replicate k false) ++
    (List.range 255).map fun k => true :: List.replicate k false

theorem longPrefixes_nodup : longPrefixes.Nodup := by
  refine List.nodup_append.mpr ⟨?_, ?_, ?_⟩
  · refine List.nodup_range.map fun a b h => ?_
    simpa using congrArg List.length h
  · refine List.nodup_range.map fun a b h => ?_
    simpa using congrArg List.length h
  · intro a ha b hb hab
    obtain ⟨k, -, rfl⟩ := List.mem_map.mp ha
    obtain ⟨j, -, rfl⟩ := List.mem_map.mp hb
    cases k <;> simp [List.replicate_succ] at hab

theorem mem_longPrefixes (p : List Bool) :
    p ∈ longPrefixes ↔ p ∈ ([] : List Bool) :: longCodes.flatMap fun e => e.2.inits := by
  have hz : ∀ n, p <+: List.replicate n false ↔ ∃ k, k ≤ n ∧ p = List.replicate k false := fun n => by
    rw [List.prefix_replicate_iff]
    constructor
    · rintro ⟨h, e⟩
      exact ⟨p.length, h, e⟩
    · rintro ⟨k, h, rfl⟩
      simp [h]
  have ho : p <+: true :: List.replicate 254 false ↔ p = [] ∨ ∃ k, k ≤ 254 ∧ p = true :: List.replicate k false := by
    rw [List.prefix_cons_iff]
    constructor
    · rintro (h | ⟨q, rfl, hq⟩)
      · exact .inl h
      · rw [List.prefix_replicate_iff] at hq
        exact .inr ⟨q.length, hq.1, by rw [← hq.2]⟩
    · rintro (h | ⟨k, h, rfl⟩)
      · exact .inl h
      · exact .inr ⟨_, rfl, by rw [List.prefix_replicate_iff]; simp [h]⟩
  simp only [longPrefixes, longCodes, List.mem_append, List.mem_map, List.mem_range, List.mem_cons, List.flatMap_cons,
    List.flatMap_nil, List.append_nil, List.mem_inits, hz, ho]
  constructor
  · rintro (⟨k, hk, rfl⟩ | ⟨k, hk, rfl⟩)
    · exact .inr (.inl ⟨k, by omega, rfl⟩)
    · exact .inr (.inr (.inr ⟨k, by omega, rfl⟩))
  · rintro (rfl | ⟨k, hk, rfl⟩ | rfl | ⟨k, hk, rfl⟩)
    · exact .inl ⟨0, by omega, rfl⟩
    · exact .inl ⟨k, by omega, rfl⟩
    · exact .inl ⟨0, by omega, rfl⟩
    · exact .inr ⟨k, by omega, rfl⟩

theorem longCodes_nodes : nodeCount longCodes ≤ 511 := by
  have : (([] : List Bool) :: longCodes.flatMap fun e => e.2.inits).dedup.Perm longPrefixes :=
    (List.perm_ext_iff_of_nodup (List.nodup_dedup _) longPrefixes_nodup).mpr fun p => by
      rw [List.mem_dedup, mem_longPrefixes]
  rw [nodeCount, this.length_eq]
  decide +kernel

theorem longThird_new : longThird.2 ∉ longPrefixes := by
  rw [mem_longPrefixes]
  simp only [List.mem_cons, longCodes, List.flatMap_cons, List.flatMap_nil, List.append_nil, List.mem_append,
    List.mem_inits]
  decide +kernel

theorem longThird_nodes : 511 < nodeCount (longCodes ++ [longThird]) := by
  have hn : (longThird.2 :: longPrefixes).Nodup := List.nodup_cons.mpr ⟨longThird_new, longPrefixes_nodup⟩
  have hs : longThird.2 :: longPrefixes ⊆
      (([] : List Bool) :: (longCodes ++ [longThird]).flatMap fun e => e.2.inits).dedup := by
    intro p hp
    rw [List.mem_dedup]
    rcases List.mem_cons.mp hp with rfl | hp
    · exact List.mem_cons_of_mem _ (List.mem_flatMap.mpr ⟨longThird, by simp, (List.mem_inits _ _).mpr List.prefix_rfl⟩)
    · rw [mem_longPrefixes] at hp
      rw [List.flatMap_append]
      simp only [List.mem_cons, List.mem_append] at hp ⊢
      exact hp.imp id Or.inl
  have hl := (List.subperm_of_subset hn hs).length_le
  have : (longThird.2 :: longPrefixes).length = 512 := by decide +kernel
  rw [this] at hl
  exact hl

/-- "01" after "0"; and the third long code, which needs the 512th node. -/
theorem witness_RebuildConflictErrors :
    (let entries : List Entry := [(0x61, [false])]
     let e : Entry := (0x62, [false, true])
     let s := soft (leBytes 8 2 ++ (tableBytes (entries ++ [e])).drop 8)
     LegalTable entries ∧ entries.length < 2 ∧ s.srcLen.toNat ≤ s.cfg.ibufBytes ∧
       input s = leBytes 8 2 ++ (tableBytes (entries ++ [e])).drop 8 ++ [] ∧ s.ctrl.trailer = false ∧
       e.1 ∉ entries.map Prod.fst ∧ e.2.length ≤ 255 ∧ ∃ a ∈ entries, a.2 <+: e.2 ∨ e.2 <+: a.2) ∧
      (let s := soft (leBytes 8 3 ++ (tableBytes (longCodes ++ [longThird])).drop 8)
       LegalTable longCodes ∧ longCodes.length < 3 ∧ s.srcLen.toNat ≤ s.cfg.ibufBytes ∧
         input s = leBytes 8 3 ++ (tableBytes (longCodes ++ [longThird])).drop 8 ++ [] ∧ s.ctrl.trailer = false ∧
         longThird.1 ∉ longCodes.map Prod.fst ∧ longThird.2.length ≤ 255 ∧
         (∀ a ∈ longCodes, ¬ a.2 <+: longThird.2 ∧ ¬ longThird.2 <+: a.2) ∧
         511 < nodeCount (longCodes ++ [longThird])) := by
  refine ⟨by decide +kernel, ⟨by decide +kernel, by decide +kernel, by decide +kernel, longCodes_nodes⟩, by decide,
    by decide +kernel, ?_, rfl, by decide +kernel, by decide +kernel, by decide +kernel, longThird_nodes⟩
  rw [List.append_nil]
  exact input_load _ _ _ (by decide +kernel)

/-- The decoder tree of the codes a = "00", b = "1". -/
def dec3 : Table DNode 511 :=
  Table.tabulate 511 fun i =>
    [DNode.mk .internal 0 1 3, ⟨.internal, 0, 2, 0xFFFF⟩, ⟨.leaf, 0x61, 0xFFFF, 0xFFFF⟩,
      ⟨.leaf, 0x62, 0xFFFF, 0xFFFF⟩].getD i DNode.cleared

/-- "aab" under a = "0", b = "1" in hardened mode; "baaa" and the partial path "0" under a = "00", b = "1" in reference
mode. -/
theorem witness_WalkDecodesThePaths :
    (let s := withDec2 (hard (tableBytes codes2 ++ [0x20, 3, 0, 0, 0, 0, 0, 0, 0]))
     let codes : List Entry := [(0x61, [false]), (0x61, [false]), (0x62, [true])]
     let limit := s.srcLen.toNat - 8
     let off := s.decPayloadOff.toNat
     s.cfg.wf = true ∧ s.srcLen.toNat ≤ s.cfg.ibufBytes ∧ s.decValid = true ∧ s.ctrl.trailer = true ∧
       8 ≤ s.srcLen.toNat ∧ off ≤ limit ∧ 3 = le64 (input s) limit ∧ (3 + 7) / 8 = limit - off ∧
       ((codes.map Prod.snd).flatten ++ []).length = 3 ∧
       (∀ i, i < 3 → ((codes.map Prod.snd).flatten ++ [])[i]? = some ((s.ibuf.read (off + i / 8)).getLsbD (7 - i % 8))) ∧
       (dnodeAt s.dnode 0).kind ≠ .leaf ∧ (∀ c ∈ codes, leafOnPath s.dnode 0 c.2 = some c.1) ∧
       staysInside s.dnode 0 [] = true ∧ codes.length ≤ s.cfg.obufBytes) ∧
      (let s := { soft (List.replicate 8 0 ++ [0x80]) with dnode := dec3, decPayloadOff := 8, decValid := true }
       let codes : List Entry := (0x62, [true]) :: List.replicate 3 (0x61, [false, false])
       let limit := s.srcLen.toNat
       let off := s.decPayloadOff.toNat
       s.cfg.wf = true ∧ s.srcLen.toNat ≤ s.cfg.ibufBytes ∧ s.decValid = true ∧ s.ctrl.trailer = false ∧ off ≤ limit ∧
         8 = 8 * (limit - off) ∧ ((codes.map Prod.snd).flatten ++ [false]).length = 8 ∧
         (∀ i, i < 8 →
           ((codes.map Prod.snd).flatten ++ [false])[i]? = some ((s.ibuf.read (off + i / 8)).getLsbD (7 - i % 8))) ∧
         (dnodeAt s.dnode 0).kind ≠ .leaf ∧ (∀ c ∈ codes, leafOnPath s.dnode 0 c.2 = some c.1) ∧
         staysInside s.dnode 0 [false] = true ∧ codes.length ≤ s.cfg.obufBytes) := by
  decide +kernel

theorem witness_WalkOfRootLeaf :
    (let s := withDec1 (hard (tableBytes [(0x61, [])] ++ [0x00, 3, 0, 0, 0, 0, 0, 0, 0]))
     let limit := s.srcLen.toNat - 8
     let off := s.decPayloadOff.toNat
     s.cfg.wf = true ∧ s.srcLen.toNat ≤ s.cfg.ibufBytes ∧ s.decValid = true ∧ s.ctrl.trailer = true ∧
       8 ≤ s.srcLen.toNat ∧ off ≤ limit ∧ 3 = le64 (input s) limit ∧ (3 + 7) / 8 = limit - off ∧
       (dnodeAt s.dnode 0).kind = .leaf ∧ 3 ≤ s.cfg.obufBytes ∧ (Config.mk 65536 2 0).wf = true ∧
       { s with cfg := ⟨65536, 2, 0⟩ }.cfg.obufBytes < 3) ∧
      (let s := withDec1 (soft (tableBytes [(0x61, [])] ++ [0x00]))
       s.cfg.wf = true ∧ s.srcLen.toNat ≤ s.cfg.ibufBytes ∧ s.decValid = true ∧ s.ctrl.trailer = false ∧
         s.decPayloadOff.toNat ≤ s.srcLen.toNat ∧ 8 = 8 * (s.srcLen.toNat - s.decPayloadOff.toNat) ∧
         (dnodeAt s.dnode 0).kind = .leaf ∧ 8 ≤ s.cfg.obufBytes) := by
  decide +kernel

theorem witness_WalkRegionErrors :
    (State.reset.cfg.ibufBytes < { State.reset with srcLen := 65537 }.srcLen.toNat) ∧
      (let s := withDec2 (hard [0, 0, 0, 0, 0, 0, 0])
       s.srcLen.toNat ≤ s.cfg.ibufBytes ∧ s.decValid = true ∧ s.ctrl.trailer = true ∧ s.srcLen.toNat < 8) ∧
      (let s := withDec2 (hard (List.replicate 35 0))
       s.srcLen.toNat ≤ s.cfg.ibufBytes ∧ s.decValid = true ∧ 8 ≤ s.srcLen.toNat ∧
         s.srcLen.toNat - 8 < s.decPayloadOff.toNat) ∧
      (let s := withDec2 (hard (List.replicate 28 0 ++ [1, 0, 0, 0, 0, 0, 0, 0]))
       s.srcLen.toNat ≤ s.cfg.ibufBytes ∧ s.decValid = true ∧ s.ctrl.trailer = true ∧ 8 ≤ s.srcLen.toNat ∧
         s.decPayloadOff.toNat ≤ s.srcLen.toNat - 8 ∧
         (le64 (input s) (s.srcLen.toNat - 8) + 7) / 8 ≠ s.srcLen.toNat - 8 - s.decPayloadOff.toNat) := by
  decide +kernel

/-- The decoder tree of the one code a = "00". -/
def dec00 : Table DNode 511 :=
  Table.tabulate 511 fun i =>
    [DNode.mk .internal 0 1 0xFFFF, ⟨.internal, 0, 2, 0xFFFF⟩, ⟨.leaf, 0x61, 0xFFFF, 0xFFFF⟩].getD i DNode.cleared

theorem decTree00 : IsDecTree dec00 3 := by
  refine ⟨⟨by decide, by decide, fun i hi => ?_, fun i hi => ?_⟩, by decide +kernel, fun j h1 hj => ?_⟩
  · have : i < 511 := by omega
    simp only [dec00, Table.get_tabulate, if_pos this, LinkOk]
    obtain rfl | rfl | rfl : i = 0 ∨ i = 1 ∨ i = 2 := by omega
    · decide
    · decide
    · decide
  · simp only [dec00, Table.get_tabulate]
    split
    · exact List.getD_eq_default _ _ (by simpa using hi)
    · rfl
  · obtain rfl | rfl : j = 1 ∨ j = 2 := by omega
    · refine ⟨0, ⟨by decide, by decide +kernel⟩, fun i hi => ?_⟩
      have hi3 := hi.1
      obtain rfl | rfl | rfl : i = 0 ∨ i = 1 ∨ i = 2 := by omega
      · rfl
      · exact absurd hi.2 (by decide +kernel)
      · exact absurd hi.2 (by decide +kernel)
    · refine ⟨1, ⟨by decide, by decide +kernel⟩, fun i hi => ?_⟩
      have hi3 := hi.1
      obtain rfl | rfl | rfl : i = 0 ∨ i = 1 ∨ i = 2 := by omega
      · exact absurd hi.2 (by decide +kernel)
      · rfl
      · exact absurd hi.2 (by decide +kernel)

/-- `s` with that tree, its payload at offset 8, and OBUF of one byte. -/
def withDec00 (s : State) : State :=
  { s with dnode := dec00, decNodes := 3, decNcodes := 1, decPayloadOff := 8, decValid := true, cfg := ⟨65536, 1, 0⟩ }

/-- What every clause of WalkPayloadErrors asks of `nbits` payload bits (in one byte `b`, hardened mode) that are the codes of
`codes`, then `tail`, then `rest`. -/
def PayloadHyps (b : Byte) (nbits : Nat) (codes : List Entry) (tail rest : List Bool) : Prop :=
  let s := withDec00 (hard ([0, 0, 0, 0, 0, 0, 0, 0, b] ++ leBytes 8 nbits))
  let limit := s.srcLen.toNat - 8
  let bits := (codes.map Prod.snd).flatten ++ tail ++ rest
  s.cfg.wf = true ∧ s.srcLen.toNat ≤ s.cfg.ibufBytes ∧ s.decValid = true ∧ s.ctrl.trailer = true ∧ 8 ≤ s.srcLen.toNat ∧
    8 = s.decPayloadOff.toNat ∧ 8 ≤ limit ∧ nbits = le64 (input s) limit ∧ (nbits + 7) / 8 = limit - 8 ∧
    bits.length = nbits ∧ (∀ i, i < nbits → bits[i]? = some ((s.ibuf.read (8 + i / 8)).getLsbD (7 - i % 8))) ∧
    (dnodeAt s.dnode 0).kind ≠ .leaf ∧ (∀ c ∈ codes, leafOnPath s.dnode 0 c.2 = some c.1) ∧
    codes.length ≤ s.cfg.obufBytes

/-- "001": the bit 1 has no child at the root; "000": it ends inside a code; "0000": the second symbol does not fit. -/
theorem witness_WalkPayloadErrors :
    DecLinksOk (withDec00 State.reset).dnode (withDec00 State.reset).decNodes.toNat ∧
      (PayloadHyps 0x20 3 [(0x61, [false, false])] [] [true] ∧ staysInside dec00 0 [] = true ∧
        staysInside dec00 0 [true] = false ∧ leafOnPath dec00 0 [true] = none) ∧
      (PayloadHyps 0x00 3 [(0x61, [false, false])] [false] [] ∧ staysInside dec00 0 [false] = true) ∧
      (PayloadHyps 0x00 4 [(0x61, [false, false])] [false, false] [] ∧ leafOnPath dec00 0 [false, false] = some 0x61 ∧
        [((0x61, [false, false]) : Entry)].length = (withDec00 State.reset).cfg.obufBytes) := by
  refine ⟨decTree00.1, ⟨?_, by decide +kernel⟩, ⟨?_, by decide +kernel⟩, ?_, by decide +kernel⟩
  · unfold PayloadHyps
    decide +kernel
  · unfold PayloadHyps
    decide +kernel
  · unfold PayloadHyps
    decide +kernel

theorem witness_DecodeIsRebuildThenWalk :
    (exec .rebuild (hard abFrame) = .next (after .rebuild (hard abFrame)) ∧
        (after .rebuild (hard abFrame)).status.errCode = 0) ∧
      exec .rebuild State.reset = .next (after .rebuild State.reset) ∧ (after .rebuild State.reset).status.errCode ≠ 0 :=
  ⟨⟨exec_eq_next _ _, by decide +kernel⟩, exec_eq_next _ _, by decide +kernel⟩

theorem witness_DecodeReadsLegalFrames :
    let s := { hard abFrame with cfg := ⟨37, 2, 0⟩ }
    s.cfg.wf = true ∧ LegalTable codes2 ∧ (∀ e ∈ codes2, e.2 ≠ []) ∧ (∀ b ∈ ab, b ∈ codes2.map Prod.fst) ∧
      s.ctrl.trailer = true ∧ s.srcLen.toNat ≤ s.cfg.ibufBytes ∧ input s = frameBytes codes2 (entryMessage codes2 ab) true ∧
      ab.length ≤ s.cfg.obufBytes := by
  decide +kernel

theorem witness_DecodeReadsOnlyTheFrame :
    (let s := hard abFrame
     let s' := withTree2 (withDec1 (hard abFrame))
     s'.cfg = s.cfg ∧ s'.ctrl.trailer = s.ctrl.trailer ∧ s'.srcLen = s.srcLen ∧ input s' = input s ∧
       exec .decode s = .next (after .decode s) ∧ exec .decode s' = .next (after .decode s') ∧
       (after .decode s).decValid = true) ∧
      (after .decode State.reset).status.errCode ≠ 0 :=
  ⟨⟨rfl, rfl, rfl, rfl, exec_eq_next _ _, exec_eq_next _ _, by decide +kernel⟩, by decide +kernel⟩

/-- What both round trips ask of the state `s` before ENCODE and of `u` before DECODE. -/
def RoundTripHyps (s u : State) (spare : Nat) : Prop :=
  let t := after .encode s
  s.cfg.wf = true ∧ t.status.errCode = 0 ∧ u.cfg.wf = true ∧ u.srcLen = t.dstLen ∧ u.srcLen.toNat ≤ u.cfg.ibufBytes ∧
    input u = output t ∧ (input s).length + spare ≤ u.cfg.obufBytes

theorem witness_RoundTripHardened :
    exec .encode (hard ab) = .next (after .encode (hard ab)) ∧ (hard ab).ctrl.trailer = true ∧
      (hard abFrame).ctrl.trailer = true ∧ RoundTripHyps (hard ab) { hard abFrame with cfg := ⟨37, 2, 0⟩ } 0 := by
  refine ⟨exec_eq_next _ _, rfl, rfl, ?_⟩
  unfold RoundTripHyps
  decide +kernel

/-- "ab", and the empty input, whose frame is eight zeros. -/
theorem witness_RoundTripReference :
    exec .encode (soft ab) = .next (after .encode (soft ab)) ∧ (soft ab).ctrl.trailer = false ∧
      (soft (abFrame.take 29)).ctrl.trailer = false ∧
      RoundTripHyps (soft ab) { soft (abFrame.take 29) with cfg := ⟨29, 9, 0⟩ } 7 ∧ input (soft ab) ≠ [] ∧
      RoundTripHyps (soft []) (soft (List.replicate 8 0)) 7 ∧ input (soft []) = [] := by
  refine ⟨exec_eq_next _ _, rfl, rfl, ?_, by decide +kernel, ?_, by decide +kernel⟩
  · unfold RoundTripHyps
    decide +kernel
  · unfold RoundTripHyps
    decide +kernel

end Sys2Proof.Tests
end

section
/-! SUPPORT. How an invariant of the tables and buffers is carried through one step: what the host, the output commands
and completion leave alone, and the one induction over the stages that commands are made of. -/

namespace Sys2Proof.Machine

open Sys2Proof

/-! ### Commands as bodies -/

/-- The state a body ends with, whether it succeeded or raised an error. -/
def BodyEnd.state : BodyEnd → State
  | .ok s => s
  | .raised s _ => s

@[simp] theorem BodyEnd.state_ok (s : State) : (BodyEnd.ok s).state = s := rfl
@[simp] theorem BodyEnd.state_raised (s : State) (e : CmdError) : (BodyEnd.raised s e).state = s := rfl

/-- The body of each command, which its completion ends (60_exceptions.md R423). -/
def commandBody : Instr → State → BodyEnd
  | .nop, s => .ok s
  | .clear, s => .ok (clearTables s)
  | .encode, s => encodeBody s
  | .count, s => countBody s
  | .build, s => buildBody s
  | .gencodes, s => gencodesBody s
  | .emit, s => emitBody s
  | .decode, s => decodeBody s
  | .rebuild, s => rebuildBody s
  | .walk, s => walkBody s

theorem exec_eq_complete (i : Instr) (s : State) : exec i s = complete (commandBody i s) := by
  cases i <;> rfl

/-- A property that both bodies of a sequence keep holds at its end, whichever of them ended it. -/
theorem andThen_state {P : State → Prop} {r : BodyEnd} {f : State → BodyEnd} (hr : P r.state)
    (hf : ∀ s, P s → P (f s).state) : P (r.andThen f).state := by
  cases r with
  | ok s => exact hf s hr
  | raised s e => exact hr

/-! ### What leaves the tables and the buffers alone -/

/-- `t` is `s` but for CTRL, STATUS, ERR_INFO, SRC_LEN, PENDING_OP, the working registers, the host, the agenda and the
draws: the tables, their registers, the results, the buffers and the parameters are the same. -/
def SameTables (s t : State) : Prop :=
  t = { s with
    ctrl := t.ctrl, status := t.status, errInfo := t.errInfo, srcLen := t.srcLen, pendingOp := t.pendingOp,
    work := t.work, host := t.host, agenda := t.agenda, draws := t.draws }

theorem SameTables.refl (s : State) : SameTables s s := rfl

theorem SameTables.withHost {s t : State} (h : SameTables s t) (a : HostAgent) : SameTables s { t with host := a } := by
  have := congrArg (fun u : State => { u with host := a }) h
  exact this

theorem busRead_sameTables (size : AccessSize) (off : Word) (s : State) : SameTables s (busRead size off s).2 := by
  obtain ⟨-, h⟩ | ⟨n, p, -, ⟨-, -, h⟩ | ⟨-, h⟩⟩ := busRead_cases size off s <;> rw [h] <;> rfl

/-- An access that reaches IBUF lies below its capacity (20_memory.md R106). -/
theorem access_ibuf_le {c : Config} {size : AccessSize} {off : Word} {n k : Nat}
    (h : access c size off = some (n, .ibuf k)) : k + n ≤ c.ibufBytes := by
  have word : wordPlace off.toNat ≠ some (.ibuf k) := by
    unfold wordPlace
    split_ifs <;> simp
  have place : placeAt c n off.toNat = some (.ibuf k) := by
    unfold access at h
    cases hs : size.bytes with
    | none => simp [hs] at h
    | some m =>
      simp only [hs, Option.map_eq_some_iff, Prod.mk.injEq] at h
      obtain ⟨p, hp, rfl, rfl⟩ := h
      exact hp
  unfold placeAt at place
  split_ifs at place with _ _ _ _ hle
  · exact absurd place word
  · simp only [Option.some.injEq, Place.ibuf.injEq] at place
    exact place ▸ hle
  · simp at place

/-- `t` is `s` after the host's share of a step: a write of bytes inside IBUF, or nothing but what `SameTables` allows. -/
def HostWrites (s t : State) : Prop :=
  SameTables s t ∨ ∃ k bs, k + bs.length ≤ s.cfg.ibufBytes ∧ SameTables { s with ibuf := s.ibuf.writeBytes k bs } t

theorem HostWrites.withHost {s t : State} (h : HostWrites s t) (a : HostAgent) : HostWrites s { t with host := a } := by
  obtain h | ⟨k, bs, hk, h⟩ := h
  · exact .inl (h.withHost a)
  · exact .inr ⟨k, bs, hk, h.withHost a⟩

theorem busWrite_hostWrites (size : AccessSize) (off v : Word) (s : State) : HostWrites s (busWrite size off v s).2 := by
  obtain ⟨-, h⟩ | ⟨n, p, hp, h⟩ := busWrite_cases size off v s
  · exact .inl (h ▸ SameTables.refl s)
  · rw [h]
    cases hb : s.status.busy with
    | true => obtain h | h | h := writePlace_busy hb n v p <;> exact .inl (by rw [h]; rfl)
    | false =>
      obtain h | h | ⟨k, rfl, h⟩ | h | h | h := writePlace_idle hb n v p
      case inr.inr.inl =>
        have fits : k + (leBytes n v.toNat).length ≤ s.cfg.ibufBytes := by simpa using access_ibuf_le hp
        exact .inr ⟨k, leBytes n v.toNat, fits, by rw [h]; rfl⟩
      all_goals exact .inl (by rw [h]; rfl)

theorem hostStep_hostWrites (s : State) : HostWrites s (hostStep s) := by
  unfold hostStep
  split
  · exact .inl (SameTables.refl s)
  · next op _ =>
    cases op with
    | write size off v => exact (busWrite_hostWrites size off _ s).withHost _
    | read size off x => exact .inl ((busRead_sameTables size off s).withHost _)
    | branchZero x mask target => exact .inl rfl
    | branchNonZero x mask target => exact .inl rfl

/-! ### The output of a command fits OBUF (43_encoder_frame.md R261) -/

/-- A well-formed output of `room` bytes of capacity. -/
def SinkFits (room : Nat) (k : Sink) : Prop := SinkOk k ∧ k.room = room

theorem sinkFits_start (room : Nat) : SinkFits room (Sink.start room) := ⟨sinkOk_start room, rfl⟩

theorem SinkFits.written_le {room : Nat} {k : Sink} (h : SinkFits room k) : k.written ≤ room := h.2 ▸ h.1.2

theorem SinkFits.bytes_length_le {room : Nat} {k : Sink} (h : SinkFits room k) : k.bytes.length ≤ room :=
  h.1.bytes_length ▸ h.written_le

theorem put_fits {room : Nat} {b : Byte} {k k' : Sink} (hk : SinkFits room k) (h : put b k = .ok k') :
    SinkFits room k' := by
  obtain ⟨hok, hroom, -⟩ := put_ok h hk.1
  exact ⟨hok, hroom.trans hk.2⟩

theorem putAll_fits {room : Nat} {bs : List Byte} {k k' : Sink} (hk : SinkFits room k) (h : putAll bs k = .ok k') :
    SinkFits room k' := by
  induction bs generalizing k with
  | nil => cases h; exact hk
  | cons b bs ih =>
    simp only [putAll] at h
    split at h
    · cases h
    · next k₁ hput => exact ih (put_fits hk hput) h

theorem packBit_fits {room : Nat} {b : Bool} {p p' : Packer} (hp : SinkFits room p.sink) (h : packBit b p = .ok p') :
    SinkFits room p'.sink := by
  simp only [packBit] at h
  split at h
  · split at h
    · cases h
    · next k hput => cases h; exact put_fits hp hput
  · cases h; exact hp

theorem packBits_fits {room : Nat} {bs : List Bool} {p p' : Packer} (hp : SinkFits room p.sink)
    (h : packBits bs p = .ok p') : SinkFits room p'.sink := by
  induction bs generalizing p with
  | nil => cases h; exact hp
  | cons b bs ih =>
    simp only [packBits] at h
    split at h
    · cases h
    · next p₁ hbit => exact ih (packBit_fits hp hbit) h

theorem packInput_fits {room : Nat} {code : Table CodeEntry 256} {j : Nat} {bs : List Byte} {p p' : Packer}
    (hp : SinkFits room p.sink) (h : packInput code j bs p = .ok p') : SinkFits room p'.sink := by
  induction bs generalizing j p with
  | nil => cases h; exact hp
  | cons b bs ih =>
    simp only [packInput] at h
    split at h
    · split at h
      · cases h
      · next p₁ hbits => exact ih (packBits_fits hp hbits) h
    · cases h

theorem flushBits_fits {room : Nat} {p p' : Packer} (hp : SinkFits room p.sink) (h : flushBits p = .ok p') :
    SinkFits room p'.sink := by
  unfold flushBits at h
  split at h
  · cases h; exact hp
  · split at h
    · cases h
    · next k hput => cases h; exact put_fits hp hput

theorem putTrailer_fits {room : Nat} {trailer : Bool} {p p' : Packer} (hp : SinkFits room p.sink)
    (h : putTrailer trailer p = .ok p') : SinkFits room p'.sink := by
  unfold putTrailer at h
  split at h
  · split at h
    · cases h
    · next k hput => cases h; exact putAll_fits hp hput
  · cases h; exact hp

/-- A step of an `Except` computation that succeeds has a first part that succeeded. -/
theorem except_bind_ok {ε α β : Type} {x : Except ε α} {f : α → Except ε β} {b : β} (h : (x >>= f) = .ok b) :
    ∃ a, x = .ok a ∧ f a = .ok b := by
  cases x with
  | error e => cases h
  | ok a => exact ⟨a, rfl, h⟩

theorem emitFrame_fits {code : Table CodeEntry 256} {trailer : Bool} {room : Nat} {bytes : List Byte} {p : Packer}
    (h : emitFrame code trailer room bytes = .ok p) : SinkFits room p.sink := by
  obtain ⟨k, hheader, h⟩ := except_bind_ok h
  obtain ⟨p₁, hinput, h⟩ := except_bind_ok h
  obtain ⟨p₂, hflush, htrailer⟩ := except_bind_ok h
  have header : SinkFits room k := putAll_fits (sinkFits_start room) hheader
  have payload : SinkFits room p₁.sink := packInput_fits header hinput
  exact putTrailer_fits (flushBits_fits payload hflush) htrailer

theorem walkBit_fits {room : Nat} {dnode : Table DNode 511} {i : Nat} {b : Bool} {w w' : Walker}
    (hw : SinkFits room w.sink) (h : walkBit dnode i b w = .ok w') : SinkFits room w'.sink := by
  simp only [walkBit] at h
  split at h
  · split at h
    · cases h
    · next k hput => cases h; exact put_fits hw hput
  · split at h
    · cases h
    · split at h
      · split at h
        · cases h
        · next k hput => cases h; exact put_fits hw hput
      · cases h; exact hw

theorem walkBits_fits {room : Nat} {dnode : Table DNode 511} {i : Nat} {bs : List Bool} {w w' : Walker}
    (hw : SinkFits room w.sink) (h : walkBits dnode i bs w = .ok w') : SinkFits room w'.sink := by
  induction bs generalizing i w with
  | nil => cases h; exact hw
  | cons b bs ih =>
    simp only [walkBits] at h
    split at h
    · cases h
    · next w₁ hbit => exact ih (walkBit_fits hw hbit) h

theorem walkPayload_fits {dnode : Table DNode 511} {trailer : Bool} {room : Nat} {payload : List Byte} {nbits : Nat}
    {w : Walker} (h : walkPayload dnode trailer room payload nbits = .ok w) : SinkFits room w.sink := by
  obtain ⟨w₁, hbits, h⟩ := except_bind_ok h
  split at h
  · cases h
  · cases h
    exact walkBits_fits (sinkFits_start room) hbits

/-! ### What a command that writes OBUF can do -/

/-- `t` is `s` but for OBUF, DST_LEN, PAYLOAD_BITS, the working registers and the draws, where DST_LEN lies in OBUF, and
OBUF is unchanged, unspecified, or has an output that fits it (10_state.md R41, R59; 60_exceptions.md R405). -/
def WritesOutput (s t : State) : Prop :=
  t = { s with
    obuf := t.obuf, dstLen := t.dstLen, payloadBits := t.payloadBits, work := t.work, draws := t.draws } ∧
  t.dstLen.toNat ≤ s.cfg.obufBytes ∧
  (t.obuf = s.obuf ∨ t.obuf.cells = [] ∨
    ∃ bs : List Byte, bs.length ≤ s.cfg.obufBytes ∧ t.obuf = s.obuf.writeOutput bs)

theorem raiseOutput_writesOutput (s : State) (o : Nat) (e : CmdError) : WritesOutput s (raiseOutput s o e).state := by
  obtain ⟨b, d, h, hzero, hbegun⟩ := raiseOutput_eq s o e
  rw [h]
  refine ⟨rfl, Nat.zero_le _, ?_⟩
  by_cases ho : o = 0
  · exact .inl (hzero ho).1
  · exact .inr (.inl (by simp [(hbegun ho).1]))

theorem storeOutput_writesOutput {s : State} {k : Sink} (hk : SinkFits s.cfg.obufBytes k) (bits : Nat) (w : Work) :
    WritesOutput s { storeOutput k bits s with work := w } := by
  refine ⟨rfl, ?_, .inr (.inr ⟨k.bytes, hk.bytes_length_le, rfl⟩)⟩
  calc (BitVec.ofNat 32 k.written).toNat ≤ k.written := by rw [BitVec.toNat_ofNat]; exact Nat.mod_le _ _
    _ ≤ s.cfg.obufBytes := hk.written_le

theorem emitBody_writesOutput (s : State) : WritesOutput s (emitBody s).state := by
  unfold emitBody
  split
  · split
    · exact raiseOutput_writesOutput s _ _
    · next p hp => exact storeOutput_writesOutput (emitFrame_fits hp) _ _
  · exact raiseOutput_writesOutput s _ _

theorem walkBody_writesOutput (s : State) : WritesOutput s (walkBody s).state := by
  unfold walkBody
  split
  · split
    · split
      · exact raiseOutput_writesOutput s _ _
      · split
        · exact raiseOutput_writesOutput s _ _
        · next w hw => exact storeOutput_writesOutput (walkPayload_fits hw) _ _
    · exact raiseOutput_writesOutput s _ _
  · exact raiseOutput_writesOutput s _ _

/-! ### What the other bodies can do -/

/-- COUNT replaces FREQ when its input fits IBUF, and otherwise leaves the state. -/
theorem countBody_state_cases (s : State) :
    (s.srcLen.toNat ≤ s.cfg.ibufBytes ∧ (countBody s).state = { s with freq := countBytes (input s) }) ∨
      (countBody s).state = s := by
  unfold countBody
  split
  · next fits => exact .inl ⟨of_decide_eq_true fits, rfl⟩
  · exact .inr rfl

/-- BUILD replaces the encoder's tree by that of FREQ, or leaves the state. -/
theorem buildBody_state_cases (s : State) :
    (∃ n r w, (buildBody s).state =
        { s with enode := (buildTree s.freq).enode, encNodes := n, encRoot := r, work := w }) ∨
      (buildBody s).state = s := by
  by_cases h : encNsym s.freq = 0
  · exact .inr (congrArg BodyEnd.state (if_pos h))
  · exact .inl ⟨_, _, _, congrArg BodyEnd.state (if_neg h)⟩

/-- GENCODES replaces CODE by the codes of the encoder's tree, or leaves the state. -/
theorem gencodesBody_state_cases (s : State) :
    (gencodesBody s).state = { s with code := codesOf s.enode s.encRoot.toNat } ∨ (gencodesBody s).state = s := by
  unfold gencodesBody
  split
  · exact .inr rfl
  · exact .inl rfl

/-- `t` is `s` but for DNODE, the DEC_* registers, the working registers and the draws. -/
def WritesDecoder (s t : State) : Prop :=
  t = { s with
    dnode := t.dnode, decNodes := t.decNodes, decNcodes := t.decNcodes, decPayloadOff := t.decPayloadOff,
    decValid := t.decValid, work := t.work, draws := t.draws }

theorem raiseRebuild_writesDecoder (s : State) (e : CmdError) : WritesDecoder s (raiseRebuild s e).state := by
  obtain ⟨d, n, c, o, k, h⟩ := raiseRebuild_eq s e
  rw [h]
  rfl

theorem rebuildBody_writesDecoder (s : State) : WritesDecoder s (rebuildBody s).state := by
  unfold rebuildBody
  split
  · split
    · exact raiseRebuild_writesDecoder s _
    · split
      · exact raiseRebuild_writesDecoder s _
      · rfl
  · exact raiseRebuild_writesDecoder s _

/-! ### Invariants, stage by stage -/

/-- `P` says nothing of the registers that `SameTables` sets aside, and every stage that commands and host steps are made
of keeps it. -/
structure StageInvariant (P : State → Prop) : Prop where
  same : ∀ {s t}, SameTables s t → P s → P t
  input : ∀ {s k} {bs : List Byte}, k + bs.length ≤ s.cfg.ibufBytes → P s →
    P { s with ibuf := s.ibuf.writeBytes k bs }
  clear : ∀ {s}, P s → P (clearTables s)
  clearEncoder : ∀ {s}, P s → P (clearEncoder s)
  count : ∀ {s}, P s → P (countBody s).state
  build : ∀ {s}, P s → P (buildBody s).state
  gencodes : ∀ {s}, P s → P (gencodesBody s).state
  output : ∀ {s t}, WritesOutput s t → P s → P t
  rebuild : ∀ {s}, P s → P (rebuildBody s).state
  reset : ∀ {s}, P s → P (resetBlock s)

namespace StageInvariant

variable {P : State → Prop}

theorem encodeTables_state (h : StageInvariant P) {s : State} (hs : P s) : P (encodeTables s).state := by
  unfold encodeTables
  split
  · exact h.clearEncoder hs
  · exact andThen_state (h.build hs) fun _ => h.gencodes

theorem encodeBody_state (h : StageInvariant P) {s : State} (hs : P s) : P (encodeBody s).state := by
  unfold encodeBody
  split
  · exact andThen_state (andThen_state (h.count hs) fun _ => h.encodeTables_state)
      fun u => h.output (emitBody_writesOutput u)
  · exact h.output (raiseOutput_writesOutput s _ _) hs

theorem decodeBody_state (h : StageInvariant P) {s : State} (hs : P s) : P (decodeBody s).state := by
  have rebuilt := h.rebuild hs
  unfold decodeBody
  cases hr : rebuildBody s with
  | ok t => exact h.output (walkBody_writesOutput t) (by simpa [hr] using rebuilt)
  | raised t e => exact h.output (raiseOutput_writesOutput t _ _) (by simpa [hr] using rebuilt)

theorem commandBody_state (h : StageInvariant P) (i : Instr) {s : State} (hs : P s) : P (commandBody i s).state := by
  cases i with
  | nop => exact hs
  | clear => exact h.clear hs
  | encode => exact h.encodeBody_state hs
  | count => exact h.count hs
  | build => exact h.build hs
  | gencodes => exact h.gencodes hs
  | emit => exact h.output (emitBody_writesOutput s) hs
  | decode => exact h.decodeBody_state hs
  | rebuild => exact h.rebuild hs
  | walk => exact h.output (walkBody_writesOutput s) hs

theorem exec_next (h : StageInvariant P) {i : Instr} {s t : State} (hs : P s) (ht : exec i s = .next t) : P t := by
  have body := h.commandBody_state i hs
  rw [exec_eq_complete] at ht
  obtain ⟨u, hu, rfl⟩ | ⟨u, e, hu, rfl⟩ := complete_cases ht
  · exact h.same rfl (by simpa [hu] using body)
  · exact h.same rfl (by simpa [hu] using body)

theorem coreStep_next (h : StageInvariant P) {s t : State} (hs : P s) (ht : coreStep s = .next t) : P t := by
  obtain ⟨-, hf⟩ | ⟨v, i, -, -, hi⟩ | ⟨v, e, -, -, hbad⟩ := coreStep_cases s
  · rw [hf] at ht
    cases ht
  · exact h.exec_next hs (hi ▸ ht)
  · rw [hbad] at ht
    cases ht
    exact h.same rfl hs

theorem hostStep_state (h : StageInvariant P) {s : State} (hs : P s) : P (hostStep s) := by
  obtain hsame | ⟨k, bs, hk, hsame⟩ := hostStep_hostWrites s
  · exact h.same hsame hs
  · exact h.same hsame (h.input hk hs)

/-- Every step of the machine keeps a property that every stage keeps. -/
theorem step_next (h : StageInvariant P) {s t : State} (hs : P s) (ht : step s = .next t) : P t := by
  obtain ⟨a, hstep⟩ := step_cases s
  have taken : P { s with agenda := a } := h.same rfl hs
  obtain hhost | ⟨-, hcore⟩ | ⟨-, hidle⟩ | hreset := hstep
  · rw [hhost] at ht
    cases ht
    exact h.hostStep_state taken
  · exact h.coreStep_next taken (hcore ▸ ht)
  · rw [hidle] at ht
    cases ht
    exact taken
  · rw [hreset] at ht
    cases ht
    exact h.reset taken

end StageInvariant

end Sys2Proof.Machine
end

section
/-! SUPPORT. COUNT and BUILD never make the frequencies add up to more than the bytes counted, nor a node weigh more than
the frequencies together (00_scope.md R11, 42_encoder_front.md R222, R231). -/

namespace Sys2Proof.Machine

open Sys2Proof

/-! ### COUNT -/

/-- The sum of the frequencies, over unbounded integers. -/
def freqSum (freq : Table Word 256) : Nat := (freq.entries.map BitVec.toNat).sum

theorem freqSum_fill_zero : freqSum (Table.fill 256 0) = 0 := by
  rw [freqSum, Table.fill, List.map_replicate, List.sum_replicate]
  rfl

theorem sum_set_succ_le (l : List Word) (i : Nat) :
    ((l.set i (l.getD i 0 + 1)).map BitVec.toNat).sum ≤ (l.map BitVec.toNat).sum + 1 := by
  induction l generalizing i with
  | nil => simp
  | cons w l ih =>
    cases i with
    | zero =>
      have wraps : (w + 1).toNat ≤ w.toNat + 1 := by rw [BitVec.toNat_add]; exact Nat.mod_le _ _
      simp only [List.getD_cons_zero, List.set_cons_zero, List.map_cons, List.sum_cons]
      omega
    | succ i =>
      have := ih i
      simp only [List.getD_cons_succ, List.set_cons_succ, List.map_cons, List.sum_cons]
      omega

theorem freqSum_countByte_le (freq : Table Word 256) (b : Byte) : freqSum (countByte freq b) ≤ freqSum freq + 1 :=
  sum_set_succ_le freq.entries b.toNat

theorem freqSum_countBytes_le (bytes : List Byte) : freqSum (countBytes bytes) ≤ bytes.length := by
  have foldl_le : ∀ freq, freqSum (bytes.foldl countByte freq) ≤ freqSum freq + bytes.length := by
    induction bytes with
    | nil => exact fun freq => Nat.le_refl _
    | cons b bytes ih =>
      intro freq
      have counted := freqSum_countByte_le freq b
      have rest := ih (countByte freq b)
      simp only [List.foldl_cons, List.length_cons]
      omega
  have counted := foldl_le (Table.fill 256 0)
  rwa [freqSum_fill_zero, Nat.zero_add] at counted

/-! ### The weights of an arena -/

/-- The weight of ENODE entry `i`, as an integer. -/
def weightAt (enode : Table ENode 511) (i : Nat) : Nat := (enodeAt enode i).weight.toNat

/-- The weights of the nodes `xs` together. -/
def totalWeight (enode : Table ENode 511) (xs : List Nat) : Nat := (xs.map (weightAt enode)).sum

theorem weightAt_fill_cleared (i : Nat) : weightAt (Table.fill 511 ENode.cleared) i = 0 := by
  rw [weightAt, enodeAt, Table.get_fill]
  rfl

theorem weightAt_set_ne (enode : Table ENode 511) {m i : Nat} (e : ENode) (h : m ≠ i) :
    weightAt (enode.set m e) i = weightAt enode i := by
  rw [weightAt, weightAt, enodeAt, enodeAt, Table.get_set_ne _ _ _ _ _ h]

theorem weightAt_set_self_le (enode : Table ENode 511) (m : Nat) (e : ENode) :
    weightAt (enode.set m e) m ≤ e.weight.toNat := by
  by_cases h : m < 511
  · rw [weightAt, enodeAt, Table.get_set_self _ _ _ _ h]
  · rw [weightAt, enodeAt, Table.get_past_end _ _ _ (Nat.le_of_not_lt h)]
    exact Nat.zero_le _

theorem totalWeight_set_of_lt (enode : Table ENode 511) {m : Nat} (e : ENode) {xs : List Nat} (h : ∀ x ∈ xs, x < m) :
    totalWeight (enode.set m e) xs = totalWeight enode xs := by
  unfold totalWeight
  exact congrArg List.sum (List.map_congr_left fun x hx => weightAt_set_ne enode e (Nat.ne_of_gt (h x hx)))

theorem totalWeight_append (enode : Table ENode 511) (xs ys : List Nat) :
    totalWeight enode (xs ++ ys) = totalWeight enode xs + totalWeight enode ys := by
  simp [totalWeight]

theorem totalWeight_singleton (enode : Table ENode 511) (x : Nat) : totalWeight enode [x] = weightAt enode x := by
  simp [totalWeight]

theorem totalWeight_erase (enode : Table ENode 511) {x : Nat} {xs : List Nat} (h : x ∈ xs) :
    weightAt enode x + totalWeight enode (xs.erase x) = totalWeight enode xs :=
  List.sum_map_erase (weightAt enode) h

/-- A new node weighs no more than its children together, even where the sum wraps (log entry 12). -/
theorem mkInternal_weight_le (enode : Table ENode 511) (x y : Nat) :
    (ENode.mkInternal enode x y).weight.toNat ≤ weightAt enode x + weightAt enode y := by
  rw [ENode.mkInternal, BitVec.toNat_add]
  exact Nat.mod_le _ _

/-! ### BUILD: a merge keeps the total weight of the live set -/

theorem leastKey_mem (enode : Table ENode 511) (x : Nat) (rest : List Nat) : leastKey enode x rest ∈ x :: rest := by
  induction rest generalizing x with
  | nil => exact List.mem_cons_self
  | cons y rest ih =>
    rw [leastKey]
    split
    · exact List.mem_cons_of_mem _ (ih y)
    · exact List.mem_cons.mpr ((List.mem_cons.mp (ih x)).imp_right (List.mem_cons_of_mem y))

theorem extractLeast_mem (enode : Table ENode 511) {live : List Nat} (h : live ≠ []) : extractLeast enode live ∈ live := by
  cases live with
  | nil => exact absurd rfl h
  | cons x rest => exact leastKey_mem enode x rest

/-- A merge takes two nodes `x` and `y` from the live set, and puts node `m` over them in their place. -/
theorem mergeStep_takes_two {b : Builder} (m : Nat) (h : 2 ≤ b.live.length) :
    ∃ x y rest, mergeStep b m = ⟨b.enode.set m (ENode.mkInternal b.enode x y), rest ++ [m]⟩ ∧
      rest ⊆ b.live ∧ rest.length + 2 = b.live.length ∧
      weightAt b.enode x + (weightAt b.enode y + totalWeight b.enode rest) = totalWeight b.enode b.live := by
  have leastLive : extractLeast b.enode b.live ∈ b.live := extractLeast_mem _ (List.ne_nil_of_length_pos (by omega))
  have len := List.length_erase_of_mem leastLive
  have nextLive := extractLeast_mem b.enode (live := b.live.erase (extractLeast b.enode b.live))
    (List.ne_nil_of_length_pos (by omega))
  refine ⟨_, _, _, rfl, fun _ hz => List.mem_of_mem_erase (List.mem_of_mem_erase hz), ?_, ?_⟩
  · rw [List.length_erase_of_mem nextLive]
    omega
  · rw [totalWeight_erase _ nextLive, totalWeight_erase _ leastLive]

/-- BUILD over `n` Leaves that weigh at most `bound` together, when the next node it makes is `m`: the live nodes are older
than `m`, `2n − m` of them are left, and neither they together nor any one node of the arena weighs more than `bound`. -/
structure BuilderOk (bound n m : Nat) (b : Builder) : Prop where
  older : ∀ x ∈ b.live, x < m
  count : b.live.length + m = 2 * n
  total_le : totalWeight b.enode b.live ≤ bound
  weight_le : ∀ i, weightAt b.enode i ≤ bound

theorem BuilderOk.mergeStep {bound n m : Nat} {b : Builder} (h : BuilderOk bound n m b) (hm : m + 2 ≤ 2 * n) :
    BuilderOk bound n (m + 1) (mergeStep b m) := by
  obtain ⟨older, count, total_le, weight_le⟩ := h
  obtain ⟨x, y, rest, hmerge, hsub, hlen, htotal⟩ := mergeStep_takes_two m (b := b) (by omega)
  have rest_older : ∀ z ∈ rest, z < m := fun z hz => older z (hsub hz)
  have made := (weightAt_set_self_le b.enode m _).trans (mkInternal_weight_le b.enode x y)
  rw [hmerge]
  constructor <;> dsimp only
  case older =>
    intro z hz
    obtain hz | hz := List.mem_append.mp hz
    · exact Nat.lt_succ_of_lt (rest_older z hz)
    · exact List.mem_singleton.mp hz ▸ Nat.lt_succ_self m
  case count =>
    simp only [List.length_append, List.length_singleton]
    omega
  case total_le =>
    rw [totalWeight_append, totalWeight_set_of_lt _ _ rest_older, totalWeight_singleton]
    omega
  case weight_le =>
    intro i
    by_cases hi : m = i
    · subst hi
      omega
    · rw [weightAt_set_ne _ _ hi]
      exact weight_le i

/-! ### BUILD: the Leaves -/

/-- The Leaf of symbol number `s`, if its frequency is not 0. -/
def leafOf (freq : Table Word 256) (s : Nat) : Option ENode :=
  if freqAt freq (BitVec.ofNat 8 s) ≠ 0 then
    some (ENode.mkLeaf (BitVec.ofNat 8 s) (freqAt freq (BitVec.ofNat 8 s)))
  else none

theorem leavesOf_eq_filterMap (freq : Table Word 256) : leavesOf freq = (List.range 256).filterMap (leafOf freq) := rfl

theorem leafOf_weight_sum (freq : Table Word 256) (syms : List Nat) :
    ((syms.filterMap (leafOf freq)).map fun e => e.weight.toNat).sum =
      (syms.map fun s => (freqAt freq (BitVec.ofNat 8 s)).toNat).sum := by
  induction syms with
  | nil => rfl
  | cons s syms ih =>
    by_cases hw : freqAt freq (BitVec.ofNat 8 s) = 0
    · have absent : leafOf freq s = none := if_neg (not_not.mpr hw)
      simp [absent, hw, ih]
    · have leaf : leafOf freq s = some (ENode.mkLeaf (BitVec.ofNat 8 s) (freqAt freq (BitVec.ofNat 8 s))) := if_pos hw
      simp [leaf, ENode.mkLeaf, ih]

theorem freqSum_eq_sum_range (freq : Table Word 256) :
    freqSum freq = ((List.range 256).map fun s => (freqAt freq (BitVec.ofNat 8 s)).toNat).sum := by
  apply congrArg List.sum
  apply List.ext_getElem
  · simp [freq.size_eq]
  · intro i h1 h2
    have hi : i < 256 := by simpa using h2
    have hl : i < freq.entries.length := freq.size_eq.symm ▸ hi
    simp [freqAt, Table.get, Nat.mod_eq_of_lt hi, hl]

/-- The Leaves weigh together what the frequencies add up to. -/
theorem leavesOf_weight_sum (freq : Table Word 256) :
    ((leavesOf freq).map fun e => e.weight.toNat).sum = freqSum freq := by
  rw [leavesOf_eq_filterMap, leafOf_weight_sum, freqSum_eq_sum_range]

theorem weightAt_arenaOf_le (ns : List ENode) (i : Nat) :
    weightAt (arenaOf ns) i ≤ (ns.getD i ENode.cleared).weight.toNat := by
  rw [weightAt, enodeAt, arenaOf, Table.get_tabulate]
  split
  · exact Nat.le_refl _
  · exact Nat.zero_le _

theorem totalWeight_arenaOf_le (ns : List ENode) :
    totalWeight (arenaOf ns) (List.range ns.length) ≤ (ns.map fun e => e.weight.toNat).sum := by
  have listed : (List.range ns.length).map (fun i => (ns.getD i ENode.cleared).weight.toNat) =
      ns.map fun e => e.weight.toNat := by
    apply List.ext_getElem
    · simp
    · intro i h1 h2
      have hi : i < ns.length := by simpa using h2
      simp [hi]
  rw [← listed]
  exact List.sum_le_sum fun i _ => weightAt_arenaOf_le ns i

theorem getD_weight_le_sum (ns : List ENode) (i : Nat) :
    (ns.getD i ENode.cleared).weight.toNat ≤ (ns.map fun e => e.weight.toNat).sum := by
  by_cases hi : i < ns.length
  · rw [List.getD_eq_getElem _ _ hi]
    exact List.single_le_sum (fun _ _ => Nat.zero_le _) _ (List.mem_map_of_mem (List.getElem_mem hi))
  · rw [List.getD_eq_default _ _ (Nat.le_of_not_lt hi)]
    exact Nat.zero_le _

theorem builderOk_leaves (ns : List ENode) :
    BuilderOk (ns.map fun e => e.weight.toNat).sum ns.length ns.length ⟨arenaOf ns, List.range ns.length⟩ where
  older x hx := List.mem_range.mp hx
  count := by rw [List.length_range]; omega
  total_le := totalWeight_arenaOf_le ns
  weight_le i := (weightAt_arenaOf_le ns i).trans (getD_weight_le_sum ns i)

theorem builderOk_merges {bound n : Nat} {b : Builder} (h : BuilderOk bound n n b) (j : Nat) (hj : j ≤ n - 1) :
    BuilderOk bound n (n + j) (((List.range j).map fun k => n + k).foldl mergeStep b) := by
  induction j with
  | zero => exact h
  | succ j ih =>
    rw [List.range_succ, List.map_append, List.foldl_append]
    exact (ih (by omega)).mergeStep (by omega)

/-- No node of a built tree weighs more than the frequencies together. -/
theorem buildTree_weight_le (freq : Table Word 256) (i : Nat) : weightAt (buildTree freq).enode i ≤ freqSum freq := by
  have built := builderOk_merges (builderOk_leaves (leavesOf freq)) _ (Nat.le_refl _)
  exact (built.weight_le i).trans_eq (leavesOf_weight_sum freq)

/-! ### Every stage keeps the weights -/

theorem weightsOk_iff (s : State) :
    WeightsOk s ↔ freqSum s.freq ≤ s.cfg.ibufBytes ∧ ∀ i, weightAt s.enode i ≤ s.cfg.ibufBytes := Iff.rfl

theorem weightsOk_congr {s t : State} (hfreq : t.freq = s.freq) (henode : t.enode = s.enode) (hcfg : t.cfg = s.cfg)
    (h : WeightsOk s) : WeightsOk t := by
  rw [weightsOk_iff, hfreq, henode, hcfg]
  exact h

theorem countBody_weightsOk {s : State} (h : WeightsOk s) : WeightsOk (countBody s).state := by
  obtain ⟨fits, hs⟩ | hs := countBody_state_cases s <;> rw [hs]
  · have counted := freqSum_countBytes_le (input s)
    rw [input_length] at counted
    exact ⟨counted.trans fits, h.2⟩
  · exact h

theorem buildBody_weightsOk {s : State} (h : WeightsOk s) : WeightsOk (buildBody s).state := by
  obtain ⟨n, r, w, hs⟩ | hs := buildBody_state_cases s <;> rw [hs]
  · exact ⟨h.1, fun i => (buildTree_weight_le s.freq i).trans h.1⟩
  · exact h

theorem gencodesBody_weightsOk {s : State} (h : WeightsOk s) : WeightsOk (gencodesBody s).state := by
  obtain hs | hs := gencodesBody_state_cases s <;> rw [hs] <;> exact h

theorem weightsOk_of_cleared {s : State} (hfreq : freqSum s.freq ≤ s.cfg.ibufBytes)
    (henode : s.enode = Table.fill 511 ENode.cleared) : WeightsOk s := by
  refine ⟨hfreq, fun i => ?_⟩
  rw [henode]
  exact (weightAt_fill_cleared i).trans_le (Nat.zero_le _)

theorem weightsOk_stageInvariant : StageInvariant WeightsOk where
  same hst := hst ▸ weightsOk_congr rfl rfl rfl
  input _ := weightsOk_congr rfl rfl rfl
  clear _ := weightsOk_of_cleared (freqSum_fill_zero.trans_le (Nat.zero_le _)) rfl
  clearEncoder h := weightsOk_of_cleared h.1 rfl
  count := countBody_weightsOk
  build := buildBody_weightsOk
  gencodes := gencodesBody_weightsOk
  output hst := hst.1 ▸ weightsOk_congr rfl rfl rfl
  rebuild := rebuildBody_writesDecoder _ ▸ weightsOk_congr rfl rfl rfl
  reset _ := weightsOk_of_cleared (freqSum_fill_zero.trans_le (Nat.zero_le _)) rfl

/-- Settles O30: the sum of the frequencies and every weight stay within IBUF_BYTES, because each stage keeps them so;
BUILD's merges keep the total weight of the live set. -/
theorem stepKeepsWeights : Obligations.StepKeepsWeights :=
  fun _ _ hs ht => weightsOk_stageInvariant.step_next hs ht

end Sys2Proof.Machine
end

section
/-! SUPPORT. Every stage keeps the buffers canonical and inside their capacities (10_state.md R41, R58, R59). -/

namespace Sys2Proof.Machine

open Sys2Proof

theorem buffersOk_congr {s t : State} (hcfg : t.cfg = s.cfg) (hibuf : t.ibuf = s.ibuf) (hobuf : t.obuf = s.obuf)
    (hdst : t.dstLen = s.dstLen) (h : BuffersOk s) : BuffersOk t := by
  rw [BuffersOk, hcfg, hibuf, hobuf, hdst]
  exact h

/-- The results of a cleared block lie in any OBUF. -/
theorem buffersOk_of_dstLen_zero {s t : State} (hcfg : t.cfg = s.cfg) (hibuf : t.ibuf = s.ibuf)
    (hobuf : t.obuf = s.obuf) (hdst : t.dstLen = 0) (h : BuffersOk s) : BuffersOk t := by
  obtain ⟨hwf, hi, ho, -⟩ := h
  rw [BuffersOk, hcfg, hibuf, hobuf, hdst]
  exact ⟨hwf, hi, ho, Nat.zero_le _⟩

theorem WritesOutput.buffersOk {s t : State} (hst : WritesOutput s t) (h : BuffersOk s) : BuffersOk t := by
  obtain ⟨heq, hdst, hobuf⟩ := hst
  obtain ⟨hwf, hi, ho, -⟩ := h
  have hcfg : t.cfg = s.cfg := by rw [heq]
  have hibuf : t.ibuf = s.ibuf := by rw [heq]
  have canonical : t.obuf.wf s.cfg.obufBytes := by
    obtain hkept | hfree | ⟨bs, hbs, hwritten⟩ := hobuf
    · exact hkept ▸ ho
    · simp [Memory.wf, hfree]
    · exact hwritten ▸ Memory.writeOutput_wf bs ho hbs
  rw [BuffersOk, hcfg, hibuf]
  exact ⟨hwf, hi, canonical, hdst⟩

theorem countBody_buffersOk {s : State} (h : BuffersOk s) : BuffersOk (countBody s).state := by
  obtain ⟨-, hs⟩ | hs := countBody_state_cases s <;> rw [hs] <;> exact h

theorem buildBody_buffersOk {s : State} (h : BuffersOk s) : BuffersOk (buildBody s).state := by
  obtain ⟨n, r, w, hs⟩ | hs := buildBody_state_cases s <;> rw [hs] <;> exact h

theorem gencodesBody_buffersOk {s : State} (h : BuffersOk s) : BuffersOk (gencodesBody s).state := by
  obtain hs | hs := gencodesBody_state_cases s <;> rw [hs] <;> exact h

theorem buffersOk_stageInvariant : StageInvariant BuffersOk where
  same hst := hst ▸ buffersOk_congr rfl rfl rfl rfl
  input hk h := by
    obtain ⟨hwf, hi, ho, hdst⟩ := h
    exact ⟨hwf, Memory.writeBytes_wf _ _ hi hk, ho, hdst⟩
  clear := buffersOk_of_dstLen_zero rfl rfl rfl rfl
  clearEncoder := buffersOk_congr rfl rfl rfl rfl
  count := countBody_buffersOk
  build := buildBody_buffersOk
  gencodes := gencodesBody_buffersOk
  output := WritesOutput.buffersOk
  rebuild := rebuildBody_writesDecoder _ ▸ buffersOk_congr rfl rfl rfl rfl
  reset := buffersOk_of_dstLen_zero rfl rfl rfl rfl

/-- Settles O28: each stage keeps the buffers canonical; an output is stored only when every `put` of it had room. -/
theorem stepKeepsBuffers : Obligations.StepKeepsBuffers :=
  fun _ _ hs ht => buffersOk_stageInvariant.step_next hs ht

end Sys2Proof.Machine
end

section
/-! SUPPORT. GENCODES writes for each symbol the path from the root to its Leaf, so that no code of CODE begins
another (10_state.md R52; 42_encoder_front.md R241 to R243). -/

namespace Sys2Proof.Machine

open Sys2Proof

/-! ### Entries made from paths -/

theorem natOfPath_testBit (p : List Bool) (j : Nat) : (natOfPath p).testBit j = p.getD j false := by
  induction p generalizing j with
  | nil => simp [natOfPath]
  | cons b p ih =>
    have low : (b.toNat + 2 * natOfPath p) / 2 = natOfPath p := by have := b.toNat_lt; omega
    cases j with
    | zero => cases b <;> simp [natOfPath, Nat.testBit_zero, Nat.add_mod]
    | succ j => rw [natOfPath, Nat.testBit_succ, low, ih, List.getD_cons_succ]

theorem ofPath_len_toNat {p : List Bool} (h : p.length ≤ 255) : (CodeEntry.ofPath p).len.toNat = p.length := by
  rw [CodeEntry.ofPath, BitVec.toNat_ofNat, Nat.mod_eq_of_lt (by omega)]

theorem ofPath_getLsbD {p : List Bool} (h : p.length ≤ 255) (j : Nat) :
    (CodeEntry.ofPath p).bits.getLsbD j = p.getD j false := by
  rw [CodeEntry.ofPath, BitVec.getLsbD_ofNat, natOfPath_testBit]
  by_cases hj : j < 256
  · simp [hj]
  · simp [hj, List.getElem?_eq_none (show p.length ≤ j by omega)]

/-- The code bits of the entry made from a path are the path. -/
theorem path_ofPath {p : List Bool} (h : p.length ≤ 255) : (CodeEntry.ofPath p).path = p := by
  rw [CodeEntry.path, ofPath_len_toNat h]
  apply List.ext_getElem
  · simp
  · intro j _ hj
    simp [ofPath_getLsbD h, hj]

theorem codeEntryOk_ofPath {p : List Bool} (hpos : 1 ≤ p.length) (h : p.length ≤ 255) :
    CodeEntryOk (CodeEntry.ofPath p) := by
  constructor
  · have len_ne : (CodeEntry.ofPath p).len ≠ 0 := fun hz => by
      have : 0 = p.length := by rw [← ofPath_len_toNat h, hz]; rfl
      omega
    exact iff_of_true rfl len_ne
  · intro j hj
    rw [ofPath_len_toNat h] at hj
    simp [ofPath_getLsbD h, List.getElem?_eq_none hj]

theorem codeEntryOk_none : CodeEntryOk CodeEntry.none := by simp [CodeEntryOk, CodeEntry.none]

/-! ### Code tables -/

/-- CODE is a table of well-formed entries, none of whose codes begins another (42_encoder_front.md R243). -/
def CodeTableOk (code : Table CodeEntry 256) : Prop := (∀ b, CodeEntryOk (codeAt code b)) ∧ PrefixFree code

@[simp] theorem codeAt_fill_none (b : Byte) : codeAt (Table.fill 256 CodeEntry.none) b = CodeEntry.none :=
  Table.get_fill _ _ _

theorem codeAt_set (code : Table CodeEntry 256) (c b : Byte) (e : CodeEntry) :
    codeAt (code.set c.toNat e) b = if b = c then e else codeAt code b := by
  by_cases h : b = c
  · rw [if_pos h, h]
    exact Table.get_set_self _ _ _ _ c.isLt
  · rw [if_neg h]
    exact Table.get_set_ne _ _ _ _ _ fun hn => h (BitVec.eq_of_toNat_eq hn.symm)

theorem codeTableOk_none : CodeTableOk (Table.fill 256 CodeEntry.none) :=
  ⟨fun b => by rw [codeAt_fill_none]; exact codeEntryOk_none, fun a _ _ ha => by rw [codeAt_fill_none] at ha; cases ha⟩

/-- In a table with one code no second symbol has a code that it could begin. -/
theorem codeTableOk_single (c : Byte) {p : List Bool} (hpos : 1 ≤ p.length) (h : p.length ≤ 255) :
    CodeTableOk ((Table.fill 256 CodeEntry.none).set c.toNat (CodeEntry.ofPath p)) := by
  constructor
  · intro b
    rw [codeAt_set]
    split
    · exact codeEntryOk_ofPath hpos h
    · rw [codeAt_fill_none]
      exact codeEntryOk_none
  · have only : ∀ b, (codeAt ((Table.fill 256 CodeEntry.none).set c.toNat (CodeEntry.ofPath p)) b).valid = true → b = c := by
      intro b hb
      by_contra hne
      rw [codeAt_set, if_neg hne, codeAt_fill_none] at hb
      cases hb
    exact fun a b hab ha hb => absurd ((only a ha).trans (only b hb).symm) hab

/-! ### Paths in the encoder's tree -/

theorem nodeOnPath_append (enode : Table ENode 511) (i : Nat) (p q : List Bool) :
    nodeOnPath enode i (p ++ q) = (nodeOnPath enode i p).bind fun j => nodeOnPath enode j q := by
  induction p generalizing i with
  | nil => rfl
  | cons b p ih =>
    by_cases h : (enodeAt enode i).leaf <;> simp [nodeOnPath, h, ih]

/-- The path `p` leads from node `r` to a Leaf of symbol `b`. -/
def LeadsToLeaf (enode : Table ENode 511) (r : Nat) (p : List Bool) (b : Byte) : Prop :=
  ∃ i, nodeOnPath enode r p = some i ∧ (enodeAt enode i).leaf = true ∧ (enodeAt enode i).sym = b

/-- A path to a Leaf goes no further: two paths to Leaves, one of which begins the other, lead to the same
symbol. -/
theorem LeadsToLeaf.sym_eq_of_prefix {enode : Table ENode 511} {r : Nat} {p q : List Bool} {a b : Byte}
    (hp : LeadsToLeaf enode r p a) (hq : LeadsToLeaf enode r q b) (hpq : p <+: q) : a = b := by
  obtain ⟨i, hi, leaf, rfl⟩ := hp
  obtain ⟨j, hj, -, rfl⟩ := hq
  obtain ⟨rest, rfl⟩ := hpq
  rw [nodeOnPath_append, hi, Option.bind_some] at hj
  cases rest with
  | nil => cases hj; rfl
  | cons x rest => simp [nodeOnPath, leaf] at hj

/-- Each entry of CODE is none or made from a path of 1 to 255 bits to a Leaf of its symbol. -/
def CodesFromTree (enode : Table ENode 511) (r : Nat) (code : Table CodeEntry 256) : Prop :=
  ∀ b, codeAt code b = CodeEntry.none ∨
    ∃ p, 1 ≤ p.length ∧ p.length ≤ 255 ∧ codeAt code b = CodeEntry.ofPath p ∧ LeadsToLeaf enode r p b

theorem codesFromTree_none (enode : Table ENode 511) (r : Nat) :
    CodesFromTree enode r (Table.fill 256 CodeEntry.none) := fun b => .inl (codeAt_fill_none b)

theorem CodesFromTree.set {enode : Table ENode 511} {r : Nat} {code : Table CodeEntry 256}
    (h : CodesFromTree enode r code) {p : List Bool} {c : Byte} (hpos : 1 ≤ p.length) (hlen : p.length ≤ 255)
    (hp : LeadsToLeaf enode r p c) : CodesFromTree enode r (code.set c.toNat (CodeEntry.ofPath p)) := by
  intro b
  rw [codeAt_set]
  split
  · next hb => exact .inr ⟨p, hpos, hlen, rfl, hb ▸ hp⟩
  · exact h b

theorem CodesFromTree.path_of_valid {enode : Table ENode 511} {r : Nat} {code : Table CodeEntry 256}
    (h : CodesFromTree enode r code) {b : Byte} (hb : (codeAt code b).valid = true) :
    LeadsToLeaf enode r (codeAt code b).path b := by
  obtain hn | ⟨p, -, hlen, hp, leads⟩ := h b
  · rw [hn] at hb
    cases hb
  · rw [hp, path_ofPath hlen]
    exact leads

theorem CodesFromTree.codeTableOk {enode : Table ENode 511} {r : Nat} {code : Table CodeEntry 256}
    (h : CodesFromTree enode r code) : CodeTableOk code := by
  constructor
  · intro b
    obtain hn | ⟨p, hpos, hlen, hp, -⟩ := h b
    · exact hn ▸ codeEntryOk_none
    · exact hp ▸ codeEntryOk_ofPath hpos hlen
  · intro a b hab ha hb hprefix
    exact hab ((h.path_of_valid ha).sym_eq_of_prefix (h.path_of_valid hb) hprefix)

/-! ### GENCODES -/

/-- A node of the tree that is no Leaf is an Internal node, over two nodes of smaller index. -/
theorem IsEncTree.internal_of_not_leaf {enode : Table ENode 511} {n i : Nat} (h : IsEncTree enode n) (hi : i < 2 * n - 1)
    (hleaf : (enodeAt enode i).leaf = false) :
    n ≤ i ∧ (enodeAt enode i).left.toNat < i ∧ (enodeAt enode i).right.toNat < i := by
  obtain ⟨-, -, leaves, -, internals, -⟩ := h
  have hn : n ≤ i := by
    by_contra hlt
    obtain ⟨-, isLeaf, -⟩ := leaves i (by omega)
    rw [hleaf] at isLeaf
    cases isLeaf
  obtain ⟨-, -, -, left_lt, right_lt, -⟩ := internals i hn hi
  exact ⟨hn, left_lt, right_lt⟩

/-- The traversal from node `i` with its path `p` writes only paths to Leaves. As the indices fall along a path, and every
node with a child is an Internal node, `p` is never longer than the tree has Internal nodes. -/
theorem visit_codesFromTree {enode : Table ENode 511} {n : Nat} (tree : IsEncTree enode n)
    (rootInternal : (enodeAt enode (2 * n - 2)).leaf = false) {fuel i : Nat} {p : List Bool} {code : Table CodeEntry 256}
    (hp : nodeOnPath enode (2 * n - 2) p = some i) (hdepth : p.length + i ≤ 2 * n - 2) (hlen : p.length ≤ n - 1)
    (hcode : CodesFromTree enode (2 * n - 2) code) :
    CodesFromTree enode (2 * n - 2) (visit enode fuel i p code) := by
  obtain ⟨hn, hn256, -⟩ := id tree
  induction fuel generalizing i p code with
  | zero => exact hcode
  | succ fuel ih =>
    rw [visit]
    split
    · next leaf =>
      have hpos : 1 ≤ p.length := by
        by_contra hempty
        obtain rfl : p = [] := List.eq_nil_of_length_eq_zero (by omega)
        cases hp
        rw [rootInternal] at leaf
        cases leaf
      exact hcode.set hpos (by omega) ⟨i, hp, leaf, rfl⟩
    · next notLeaf =>
      have notLeaf : (enodeAt enode i).leaf = false := by simpa using notLeaf
      obtain ⟨hni, left_lt, right_lt⟩ := tree.internal_of_not_leaf (by omega) notLeaf
      have visited (b : Bool) (j : Nat) (hj : nodeOnPath enode i [b] = some j) (hlt : j < i) (table : Table CodeEntry 256)
          (htable : CodesFromTree enode (2 * n - 2) table) :
          CodesFromTree enode (2 * n - 2) (visit enode fuel j (p ++ [b]) table) := by
        have longer : (p ++ [b]).length = p.length + 1 := List.length_append
        exact ih (by rw [nodeOnPath_append, hp, Option.bind_some, hj]) (by omega) (by omega) htable
      have leftCodes := visited false _ (by simp [nodeOnPath, notLeaf]) left_lt code hcode
      exact visited true _ (by simp [nodeOnPath, notLeaf]) right_lt _ leftCodes

/-- GENCODES makes a code table of any encoder tree. -/
theorem codesOf_codeTableOk {enode : Table ENode 511} {n : Nat} (tree : IsEncTree enode n) :
    CodeTableOk (codesOf enode (2 * n - 2)) := by
  simp only [codesOf]
  split
  · exact codeTableOk_single _ (by simp) (by simp)
  · next root =>
    have root : (enodeAt enode (2 * n - 2)).leaf = false := by simpa using root
    exact (visit_codesFromTree tree root rfl (by simp) (by simp) (codesFromTree_none _ _)).codeTableOk

end Sys2Proof.Machine
end

section
/-! SUPPORT. BUILD makes a tree in the layout of 10_state.md R55: each merge takes two live nodes, so that every node but
the last becomes the child of exactly one later node (42_encoder_front.md R231, R234, R235). -/

namespace Sys2Proof.Machine

open Sys2Proof

/-! ### The Leaves -/

/-- The entries of FREQ are the frequencies of the symbols in order. -/
theorem freq_entries_eq_map (freq : Table Word 256) :
    freq.entries = (List.range 256).map fun s => freqAt freq (BitVec.ofNat 8 s) := by
  apply List.ext_getElem
  · simp [freq.size_eq]
  · intro i h1 h2
    have hi : i < 256 := by simpa using h2
    simp [freqAt, Table.get, Nat.mod_eq_of_lt hi, h1]

/-- ENC_NSYM counts the symbols whose frequency is not 0 (10_state.md R43). -/
theorem encNsym_eq_countP (freq : Table Word 256) :
    encNsym freq = (List.range 256).countP fun s => decide (freqAt freq (BitVec.ofNat 8 s) ≠ 0) := by
  rw [encNsym, freq_entries_eq_map, List.countP_map]
  rfl

theorem leafOf_isSome (freq : Table Word 256) (s : Nat) :
    (leafOf freq s).isSome = decide (freqAt freq (BitVec.ofNat 8 s) ≠ 0) := by
  unfold leafOf
  split
  · next h => exact (decide_eq_true h).symm
  · next h => exact (decide_eq_false h).symm

/-- BUILD makes one Leaf per symbol that occurs. -/
theorem leavesOf_length (freq : Table Word 256) : (leavesOf freq).length = encNsym freq := by
  rw [leavesOf_eq_filterMap, List.length_filterMap_eq_countP, encNsym_eq_countP]
  exact List.countP_congr fun s _ => by rw [leafOf_isSome]

theorem encNsym_le (freq : Table Word 256) : encNsym freq ≤ 256 := by
  rw [encNsym_eq_countP]
  exact List.countP_le_length.trans_eq List.length_range

theorem leafOf_eq_some {freq : Table Word 256} {s : Nat} {e : ENode} (h : leafOf freq s = some e) :
    e = ENode.mkLeaf (BitVec.ofNat 8 s) (freqAt freq (BitVec.ofNat 8 s)) := by
  unfold leafOf at h
  split at h <;> cases h
  rfl

theorem mem_leavesOf {freq : Table Word 256} {e : ENode} (h : e ∈ leavesOf freq) : ∃ s w, e = ENode.mkLeaf s w := by
  rw [leavesOf_eq_filterMap] at h
  obtain ⟨s, -, hs⟩ := List.mem_filterMap.mp h
  exact ⟨_, _, leafOf_eq_some hs⟩

/-- The Leaves stand in ascending symbol order (42_encoder_front.md R231). -/
theorem leavesOf_rising (freq : Table Word 256) :
    (leavesOf freq).Pairwise fun a b => a.sym.toNat < b.sym.toNat := by
  have below : (List.range 256).Pairwise fun s t => s < t ∧ t < 256 :=
    List.pairwise_lt_range.imp_of_mem fun _ ht hst => ⟨hst, List.mem_range.mp ht⟩
  rw [leavesOf_eq_filterMap]
  refine below.filterMap _ fun s t hst a ha b hb => ?_
  obtain ⟨hst, ht⟩ := hst
  rw [leafOf_eq_some ha, leafOf_eq_some hb]
  simp only [ENode.mkLeaf, BitVec.toNat_ofNat]
  omega

theorem enodeAt_arenaOf_of_lt {ns : List ENode} {i : Nat} (hi : i < ns.length) (hfits : ns.length ≤ 511) :
    enodeAt (arenaOf ns) i = ns[i] := by
  rw [enodeAt, arenaOf, Table.get_tabulate, if_pos (by omega), List.getD_eq_getElem _ _ hi]

theorem enodeAt_arenaOf_above {ns : List ENode} {i : Nat} (hi : ns.length ≤ i) :
    enodeAt (arenaOf ns) i = ENode.cleared := by
  rw [enodeAt, arenaOf, Table.get_tabulate, List.getD_eq_default _ _ hi, ite_self]

theorem enodeAt_set_self (enode : Table ENode 511) {m : Nat} (e : ENode) (h : m < 511) :
    enodeAt (enode.set m e) m = e := Table.get_set_self _ _ _ _ h

theorem enodeAt_set_ne (enode : Table ENode 511) {m i : Nat} (e : ENode) (h : i ≠ m) :
    enodeAt (enode.set m e) i = enodeAt enode i := Table.get_set_ne _ _ _ _ _ h.symm

/-! ### The merges -/

/-- A merge takes two nodes `x` and `y` out of the live set and puts node `m` over them in their place. -/
theorem mergeStep_perm {b : Builder} (m : Nat) (h : 2 ≤ b.live.length) :
    ∃ x y rest, mergeStep b m = ⟨b.enode.set m (ENode.mkInternal b.enode x y), rest ++ [m]⟩ ∧
      b.live.Perm (x :: y :: rest) := by
  have leastLive : extractLeast b.enode b.live ∈ b.live := extractLeast_mem _ (List.ne_nil_of_length_pos (by omega))
  have len := List.length_erase_of_mem leastLive
  have nextLive := extractLeast_mem b.enode (live := b.live.erase (extractLeast b.enode b.live))
    (List.ne_nil_of_length_pos (by omega))
  exact ⟨_, _, _, rfl, (List.perm_cons_erase leastLive).trans ((List.perm_cons_erase nextLive).cons _)⟩

/-- Node `k` is an Internal node among those made before node `m`, and node `i` is its child. -/
def IsParent (enode : Table ENode 511) (n m i k : Nat) : Prop :=
  n ≤ k ∧ k < m ∧ ((enodeAt enode k).left.toNat = i ∨ (enodeAt enode k).right.toNat = i)

/-- The Leaves of a tree over `n` symbols: nodes 0 … n−1, in ascending symbol order (10_state.md R55). -/
structure LeavesOk (enode : Table ENode 511) (n : Nat) : Prop where
  leaf : ∀ i, i < n → (enodeAt enode i).valid = true ∧ (enodeAt enode i).leaf = true ∧ (enodeAt enode i).left = 0 ∧
    (enodeAt enode i).right = 0
  rising : ∀ i j, i < j → j < n → (enodeAt enode i).sym.toNat < (enodeAt enode j).sym.toNat

/-- Node `k` is an Internal node over two different older nodes (10_state.md R55). -/
def InternalOk (enode : Table ENode 511) (k : Nat) : Prop :=
  (enodeAt enode k).valid = true ∧ (enodeAt enode k).leaf = false ∧ (enodeAt enode k).sym = 0 ∧
    (enodeAt enode k).left.toNat < k ∧ (enodeAt enode k).right.toNat < k ∧ (enodeAt enode k).left ≠ (enodeAt enode k).right

/-- The forest of BUILD over `n` symbols when the next node it makes is `m`: the live nodes are its roots, and every other
node made so far is the child of exactly one node. -/
structure ForestOk (n m : Nat) (b : Builder) : Prop where
  leaves : LeavesOk b.enode n
  internal : ∀ k, n ≤ k → k < m → InternalOk b.enode k
  nodup : b.live.Nodup
  older : ∀ x ∈ b.live, x < m
  count : b.live.length + m = 2 * n
  newest : m - 1 ∈ b.live
  root : ∀ i ∈ b.live, ∀ k, ¬ IsParent b.enode n m i k
  parent : ∀ i, i < m → i ∉ b.live → ∃! k, IsParent b.enode n m i k
  cleared : ∀ i, m ≤ i → enodeAt b.enode i = ENode.cleared

theorem LeavesOk.of_eq {enode enode' : Table ENode 511} {n : Nat} (h : LeavesOk enode n)
    (heq : ∀ i, i < n → enodeAt enode' i = enodeAt enode i) : LeavesOk enode' n where
  leaf i hi := by rw [heq i hi]; exact h.leaf i hi
  rising i j hij hj := by rw [heq i (hij.trans hj), heq j hj]; exact h.rising i j hij hj

theorem InternalOk.of_eq {enode enode' : Table ENode 511} {k : Nat} (h : InternalOk enode k)
    (heq : enodeAt enode' k = enodeAt enode k) : InternalOk enode' k := by
  rw [InternalOk, heq]
  exact h

theorem internalOk_mkInternal (enode : Table ENode 511) {m x y : Nat} (hm : m < 511) (hx : x < m) (hy : y < m)
    (hxy : x ≠ y) : InternalOk (enode.set m (ENode.mkInternal enode x y)) m := by
  rw [InternalOk, enodeAt_set_self _ _ hm]
  simp only [ENode.mkInternal, BitVec.toNat_ofNat, ne_eq, ← BitVec.toNat_inj, true_and]
  omega

/-- Over the nodes made before `m` and node `m` itself, the parent of `i` is the parent it had, or `m` if `i` is one of the
nodes that `m` was put over. -/
theorem isParent_mkInternal_iff (enode : Table ENode 511) {n m x y : Nat} (hnm : n ≤ m) (hm : m < 511) (hx : x < m)
    (hy : y < m) (i k : Nat) :
    IsParent (enode.set m (ENode.mkInternal enode x y)) n (m + 1) i k ↔
      IsParent enode n m i k ∨ (k = m ∧ (x = i ∨ y = i)) := by
  by_cases hk : k = m
  · subst hk
    have hx' : x % 512 = x := Nat.mod_eq_of_lt (by omega)
    have hy' : y % 512 = y := Nat.mod_eq_of_lt (by omega)
    simp [IsParent, enodeAt_set_self _ _ hm, ENode.mkInternal, hx', hy', hnm]
  · have older : k < m + 1 ↔ k < m := by omega
    simp [IsParent, enodeAt_set_ne _ _ hk, older, hk]

theorem ForestOk.mergeStep {n m : Nat} {b : Builder} (h : ForestOk n m b) (hnm : n ≤ m) (hm : m + 2 ≤ 2 * n)
    (hn : n ≤ 256) : ForestOk n (m + 1) (mergeStep b m) := by
  obtain ⟨x, y, rest, hmerge, hperm⟩ := mergeStep_perm m (b := b) (by have := h.count; omega)
  have hlen : b.live.length = rest.length + 2 := hperm.length_eq
  have hcount := h.count
  have mem_live (i : Nat) : i ∈ b.live ↔ i = x ∨ i = y ∨ i ∈ rest := by simp [hperm.mem_iff]
  have hx : x < m := h.older x ((mem_live x).mpr (.inl rfl))
  have hy : y < m := h.older y ((mem_live y).mpr (.inr (.inl rfl)))
  have rest_older : ∀ i ∈ rest, i < m := fun i hi => h.older i ((mem_live i).mpr (.inr (.inr hi)))
  obtain ⟨hx_notin, hy_rest⟩ := List.nodup_cons.mp (hperm.nodup h.nodup)
  obtain ⟨hy_notin, rest_nodup⟩ := List.nodup_cons.mp hy_rest
  have hxy : x ≠ y := fun he => hx_notin (he ▸ List.mem_cons_self)
  have hx_rest : x ∉ rest := fun hr => hx_notin (List.mem_cons_of_mem _ hr)
  have m_rest : m ∉ rest := fun hr => Nat.lt_irrefl m (rest_older m hr)
  have parents := isParent_mkInternal_iff b.enode hnm (by omega) hx hy
  rw [hmerge]
  constructor <;> dsimp only
  case leaves => exact h.leaves.of_eq fun i hi => enodeAt_set_ne _ _ (by omega)
  case internal =>
    intro k hnk hk
    by_cases hkm : k = m
    · subst hkm
      exact internalOk_mkInternal b.enode (by omega) hx hy hxy
    · exact (h.internal k hnk (by omega)).of_eq (enodeAt_set_ne _ _ hkm)
  case nodup => exact rest_nodup.append (List.nodup_singleton m) (by simpa using m_rest)
  case older =>
    intro i hi
    obtain hi | hi := List.mem_append.mp hi
    · exact Nat.lt_succ_of_lt (rest_older i hi)
    · exact List.mem_singleton.mp hi ▸ Nat.lt_succ_self m
  case count =>
    simp only [List.length_append, List.length_singleton]
    omega
  case newest => simp
  case root =>
    intro i hi k hk
    obtain hi | rfl : i ∈ rest ∨ i = m := by simpa using hi
    · obtain old | ⟨-, rfl | rfl⟩ := (parents i k).mp hk
      · exact h.root i ((mem_live i).mpr (.inr (.inr hi))) k old
      · exact hx_rest hi
      · exact hy_notin hi
    · obtain ⟨hnk, hkm, hchild⟩ | ⟨-, hxy⟩ := (parents i k).mp hk
      · obtain ⟨-, -, -, left_lt, right_lt, -⟩ := h.internal k hnk hkm
        omega
      · omega
  case parent =>
    intro i him hi
    have hi : i ∉ rest ∧ i ≠ m := by simpa using hi
    simp only [parents]
    by_cases taken : x = i ∨ y = i
    · have live : i ∈ b.live := (mem_live i).mpr (by omega)
      exact ⟨m, .inr ⟨rfl, taken⟩, fun k hk => hk.elim (fun old => absurd old (h.root i live k)) And.left⟩
    · have notLive : i ∉ b.live := fun hl => ((mem_live i).mp hl).elim (fun he => taken (.inl he.symm))
        fun hl => hl.elim (fun he => taken (.inr he.symm)) hi.1
      obtain ⟨k, hk, unique⟩ := h.parent i (by omega) notLive
      exact ⟨k, .inl hk, fun k' hk' => hk'.elim (unique k') fun new => absurd new.2 taken⟩
  case cleared =>
    intro i hi
    rw [enodeAt_set_ne _ _ (by omega)]
    exact h.cleared i (by omega)

theorem forestOk_leaves (freq : Table Word 256) (hpos : encNsym freq ≠ 0) :
    ForestOk (encNsym freq) (encNsym freq) ⟨arenaOf (leavesOf freq), List.range (encNsym freq)⟩ := by
  have hn := encNsym_le freq
  have hlen := leavesOf_length freq
  have leafAt (i : Nat) (hi : i < encNsym freq) : enodeAt (arenaOf (leavesOf freq)) i = (leavesOf freq)[i] :=
    enodeAt_arenaOf_of_lt (by omega) (by omega)
  constructor <;> dsimp only
  case leaves =>
    constructor
    case leaf =>
      intro i hi
      obtain ⟨s, w, he⟩ := mem_leavesOf (List.getElem_mem (hlen.symm ▸ hi))
      rw [leafAt i hi, he]
      exact ⟨rfl, rfl, rfl, rfl⟩
    case rising =>
      intro i j hij hj
      rw [leafAt i (hij.trans hj), leafAt j hj]
      exact List.pairwise_iff_getElem.mp (leavesOf_rising freq) i j _ _ hij
  case internal => omega
  case nodup => exact List.nodup_range
  case older => exact fun x hx => List.mem_range.mp hx
  case count => rw [List.length_range]; omega
  case newest => exact List.mem_range.mpr (by omega)
  case root => exact fun i _ k ⟨hnk, hk, _⟩ => absurd hnk (Nat.not_le.mpr hk)
  case parent => exact fun i hi hlive => absurd (List.mem_range.mpr hi) hlive
  case cleared => exact fun i hi => enodeAt_arenaOf_above (by omega)

theorem forestOk_merges {n : Nat} {b : Builder} (h : ForestOk n n b) (hn : n ≤ 256) (j : Nat) (hj : j ≤ n - 1) :
    ForestOk n (n + j) (((List.range j).map fun k => n + k).foldl mergeStep b) := by
  induction j with
  | zero => exact h
  | succ j ih =>
    rw [List.range_succ, List.map_append, List.foldl_append]
    exact (ih (by omega)).mergeStep (by omega) (by omega) hn

/-- A forest with one root left is a tree. -/
theorem ForestOk.isEncTree {n : Nat} {b : Builder} (h : ForestOk n (2 * n - 1) b) (hpos : 1 ≤ n) (hn : n ≤ 256) :
    IsEncTree b.enode n := by
  have hcount := h.count
  obtain ⟨r, hr⟩ : ∃ r, b.live = [r] := List.length_eq_one_iff.mp (by omega)
  have newest := h.newest
  refine ⟨hpos, hn, h.leaves.leaf, h.leaves.rising, h.internal, fun i hi => h.parent i (by omega) ?_,
    fun i hi _ => h.cleared i hi⟩
  simp only [hr, List.mem_singleton] at newest ⊢
  omega

theorem buildTree_isEncTree {freq : Table Word 256} (hpos : encNsym freq ≠ 0) :
    IsEncTree (buildTree freq).enode (encNsym freq) := by
  have hn := encNsym_le freq
  have merged := forestOk_merges (forestOk_leaves freq hpos) hn _ (Nat.le_refl _)
  have last : encNsym freq + (encNsym freq - 1) = 2 * encNsym freq - 1 := by omega
  rw [last] at merged
  have tree := merged.isEncTree (by omega) hn
  rw [buildTree, leavesOf_length]
  exact tree

end Sys2Proof.Machine
end

section
/-! SUPPORT. Every stage keeps the encoder's tables (10_state.md R44, R52, R55; 42_encoder_front.md R243). -/

namespace Sys2Proof.Machine

open Sys2Proof

/-- There is no tree, or ENODE holds one whose size and root are in ENC_NODES and ENC_ROOT (10_state.md R44, R55). -/
def EncTreeOk (s : State) : Prop :=
  s.encNodes = 0 ∨ ∃ n, IsEncTree s.enode n ∧ s.encNodes.toNat = 2 * n - 1 ∧ s.encRoot.toNat = 2 * n - 2

theorem encoderOk_iff (s : State) : EncoderOk s ↔ EncTreeOk s ∧ CodeTableOk s.code := Iff.rfl

theorem encoderOk_congr {s t : State} (henode : t.enode = s.enode) (hnodes : t.encNodes = s.encNodes)
    (hroot : t.encRoot = s.encRoot) (hcode : t.code = s.code) (h : EncoderOk s) : EncoderOk t := by
  rw [encoderOk_iff, EncTreeOk, henode, hnodes, hroot, hcode]
  exact h

theorem encoderOk_of_cleared {s : State} (hnodes : s.encNodes = 0) (hcode : s.code = Table.fill 256 CodeEntry.none) :
    EncoderOk s := ⟨.inl hnodes, hcode ▸ codeTableOk_none⟩

theorem buildBody_encTreeOk {s : State} (h : EncTreeOk s) : EncTreeOk (buildBody s).state := by
  simp only [buildBody]
  split
  · exact h
  · next hpos =>
    have hn := encNsym_le s.freq
    refine .inr ⟨encNsym s.freq, buildTree_isEncTree hpos, ?_, ?_⟩
    · simp only [BodyEnd.state_ok, BitVec.toNat_ofNat]
      omega
    · simp only [BodyEnd.state_ok]
      split
      · next hone => simp [hone]
      · rw [BitVec.toNat_ofNat]
        omega

theorem buildBody_encoderOk {s : State} (h : EncoderOk s) : EncoderOk (buildBody s).state := by
  obtain ⟨htree, hcode⟩ := (encoderOk_iff s).mp h
  have kept : (buildBody s).state.code = s.code := by
    obtain ⟨n, r, w, hs⟩ | hs := buildBody_state_cases s <;> rw [hs]
  exact ⟨buildBody_encTreeOk htree, kept ▸ hcode⟩

theorem gencodesBody_encoderOk {s : State} (h : EncoderOk s) : EncoderOk (gencodesBody s).state := by
  obtain ⟨htree, hcode⟩ := (encoderOk_iff s).mp h
  unfold gencodesBody
  split
  · exact h
  · next hnodes =>
    obtain hzero | ⟨n, tree, -, hroot⟩ := id htree
    · exact absurd hzero hnodes
    · refine ⟨htree, ?_⟩
      simp only [BodyEnd.state_ok, hroot]
      exact codesOf_codeTableOk tree

theorem countBody_encoderOk {s : State} (h : EncoderOk s) : EncoderOk (countBody s).state := by
  obtain ⟨-, hs⟩ | hs := countBody_state_cases s <;> rw [hs] <;> exact h

theorem encoderOk_stageInvariant : StageInvariant EncoderOk where
  same hst := hst ▸ encoderOk_congr rfl rfl rfl rfl
  input _ := encoderOk_congr rfl rfl rfl rfl
  clear _ := encoderOk_of_cleared rfl rfl
  clearEncoder _ := encoderOk_of_cleared rfl rfl
  count := countBody_encoderOk
  build := buildBody_encoderOk
  gencodes := gencodesBody_encoderOk
  output hst := hst.1 ▸ encoderOk_congr rfl rfl rfl rfl
  rebuild := rebuildBody_writesDecoder _ ▸ encoderOk_congr rfl rfl rfl rfl
  reset _ := encoderOk_of_cleared rfl rfl

/-- Settles O29: BUILD's merges make every node but the root the child of exactly one, and GENCODES writes only paths from
the root to Leaves, where no path goes on. -/
theorem stepKeepsEncoderTables : Obligations.StepKeepsEncoderTables :=
  fun _ _ hs ht => encoderOk_stageInvariant.step_next hs ht

end Sys2Proof.Machine
end

section
/-! SUPPORT. REBUILD makes a tree (10_state.md R57; 44_decoder.md R301 to R305): `insert` grows a tree by one node at a
time, and only the node it stands at can be EMPTY until it becomes the LEAF. -/

namespace Sys2Proof.Machine

open Sys2Proof

/-! ### The tree under construction -/

/-- Writing back the entry that a table holds changes nothing. -/
theorem table_set_get_self {α : Type} {n : Nat} (t : Table α n) (i : Nat) (d : α) : t.set i (t.get i d) = t := by
  apply Table.ext_get _ _ d
  intro j hj
  by_cases h : i = j
  · rw [h, Table.get_set_self _ _ _ _ hj]
  · rw [Table.get_set_ne _ _ _ _ _ h]

/-- Entry `i` of the tree's arena. -/
def Tree.node (t : Tree) (i : Nat) : DNode := t.dnode.get i DNode.cleared

/-- The tree with a new node below node `p`, on the side of the bit `b` (44_decoder.md R304). -/
def Tree.grow (t : Tree) (p : Nat) (b : Bool) : Tree :=
  ⟨t.dnode.set p { (t.node p).setChild b (BitVec.ofNat 16 t.cnt) with kind := .internal }, t.cnt + 1⟩

theorem node_set_self (t : Tree) {p : Nat} (hp : p < 511) (e : DNode) (cnt : Nat) :
    Tree.node ⟨t.dnode.set p e, cnt⟩ p = e := Table.get_set_self _ _ _ _ hp

theorem node_set_ne (t : Tree) {p i : Nat} (h : i ≠ p) (e : DNode) (cnt : Nat) :
    Tree.node ⟨t.dnode.set p e, cnt⟩ i = t.node i := Table.get_set_ne _ _ _ _ _ h.symm

theorem child_setChild (n : DNode) (b b' : Bool) (c : BitVec 16) (k : NodeKind) :
    DNode.child { n.setChild b c with kind := k } b' = if b' = b then c else n.child b' := by
  cases b <;> cases b' <;> rfl

@[simp] theorem child_cleared (b : Bool) : DNode.cleared.child b = DNode.noChild := by cases b <;> rfl

/-- Node `j` is a child of node `i`. -/
def Tree.HasChild (t : Tree) (i j : Nat) : Prop := ∃ b, ((t.node i).child b).toNat = j

/-- The entries in use are linked as a tree (10_state.md R57, 44_decoder.md R304), whatever their leaves are. -/
structure Tree.Ok (t : Tree) : Prop where
  pos : 1 ≤ t.cnt
  le : t.cnt ≤ 511
  link : ∀ i, i < t.cnt → ∀ b, LinkOk t.cnt i ((t.node i).child b)
  internal : ∀ i, i < t.cnt → ((t.node i).kind = .internal ↔ ∃ b, (t.node i).child b ≠ DNode.noChild)
  apart : ∀ i, i < t.cnt → (t.node i).child false = (t.node i).child true → (t.node i).child false = DNode.noChild
  parent : ∀ j, 1 ≤ j → j < t.cnt → ∃! i, i < t.cnt ∧ t.HasChild i j
  unused : ∀ i, t.cnt ≤ i → t.node i = DNode.cleared

/-- No entry in use is EMPTY but perhaps node `p`. -/
def Tree.EmptyOnlyAt (t : Tree) (p : Nat) : Prop := ∀ i, i < t.cnt → (t.node i).kind = .empty → i = p

theorem node_empty (i : Nat) : Tree.empty.node i = DNode.cleared := Table.get_fill _ _ _

theorem tree_empty_ok : Tree.empty.Ok where
  pos := Nat.le_refl 1
  le := by decide
  link i _ b := .inl (by rw [node_empty, child_cleared])
  internal i _ := by simp [node_empty, DNode.cleared, DNode.child]
  apart i _ _ := by rw [node_empty, child_cleared]
  parent j hpos hlt := absurd hlt (Nat.not_lt.mpr hpos)
  unused i _ := node_empty i

/-- A link that is not NONE names a later entry in use. -/
theorem Tree.Ok.child_in_use {t : Tree} (h : t.Ok) {i : Nat} (hi : i < t.cnt) {b : Bool}
    (hb : (t.node i).child b ≠ DNode.noChild) : i < ((t.node i).child b).toNat ∧ ((t.node i).child b).toNat < t.cnt :=
  (h.link i hi b).resolve_left hb

/-- Only entries in use have children and are children. -/
theorem Tree.Ok.hasChild_in_use {t : Tree} (h : t.Ok) {i j : Nat} (hj : j < 511) (hc : t.HasChild i j) :
    i < t.cnt ∧ j < t.cnt := by
  obtain ⟨b, rfl⟩ := hc
  have linked : (t.node i).child b ≠ DNode.noChild := fun hnone => by
    rw [hnone] at hj
    exact absurd hj (by decide)
  have hi : i < t.cnt := by
    by_contra hunused
    rw [h.unused i (by omega), child_cleared] at linked
    exact linked rfl
  exact ⟨hi, (h.child_in_use hi linked).2⟩

/-- A change of an entry in use that keeps its links and whether it is INTERNAL keeps the tree. -/
theorem Tree.Ok.set_same_links {t : Tree} (h : t.Ok) {p : Nat} (hp : p < t.cnt) {e : DNode}
    (hchild : ∀ b, e.child b = (t.node p).child b) (hkind : e.kind = .internal ↔ (t.node p).kind = .internal) :
    Tree.Ok ⟨t.dnode.set p e, t.cnt⟩ := by
  have hp511 : p < 511 := Nat.lt_of_lt_of_le hp h.le
  have child (i : Nat) (b : Bool) : (Tree.node ⟨t.dnode.set p e, t.cnt⟩ i).child b = (t.node i).child b := by
    by_cases hi : i = p
    · rw [hi, node_set_self t hp511, hchild]
    · rw [node_set_ne t hi]
  have kind (i : Nat) : (Tree.node ⟨t.dnode.set p e, t.cnt⟩ i).kind = .internal ↔ (t.node i).kind = .internal := by
    by_cases hi : i = p
    · rw [hi, node_set_self t hp511, hkind]
    · rw [node_set_ne t hi]
  constructor <;> simp only [child, kind, Tree.HasChild]
  case pos => exact h.pos
  case le => exact h.le
  case link => exact h.link
  case internal => exact h.internal
  case apart => exact h.apart
  case parent => exact h.parent
  case unused => exact fun i hi => (node_set_ne t (by omega) e t.cnt).trans (h.unused i hi)

section Grow

variable {t : Tree} (h : t.Ok) {p : Nat} (hp : p < t.cnt) {b : Bool}
include h hp

theorem Tree.Ok.node_grow_self :
    (t.grow p b).node p = { (t.node p).setChild b (BitVec.ofNat 16 t.cnt) with kind := .internal } :=
  node_set_self t (Nat.lt_of_lt_of_le hp h.le) _ _

omit h hp in
theorem node_grow_ne {i : Nat} (hi : i ≠ p) : (t.grow p b).node i = t.node i := node_set_ne t hi _ _

theorem Tree.Ok.child_grow (i : Nat) (b' : Bool) :
    ((t.grow p b).node i).child b' = if i = p ∧ b' = b then BitVec.ofNat 16 t.cnt else (t.node i).child b' := by
  by_cases hi : i = p
  · simp only [hi, h.node_grow_self hp, child_setChild, true_and]
  · simp only [node_grow_ne hi, hi, false_and, if_false]

/-- The node that is new in a grown tree is a child of the node it was put below, and no other link changes. -/
theorem Tree.Ok.hasChild_grow_iff (hb : (t.node p).child b = DNode.noChild) {i j : Nat} (hj : j < 511) (hcnt : t.cnt < 511) :
    (t.grow p b).HasChild i j ↔ t.HasChild i j ∨ (i = p ∧ j = t.cnt) := by
  have new : (BitVec.ofNat 16 t.cnt).toNat = t.cnt := by rw [BitVec.toNat_ofNat]; omega
  have none_ne : (DNode.noChild).toNat ≠ j := by
    have : (DNode.noChild).toNat = 65535 := rfl
    omega
  simp only [Tree.HasChild, h.child_grow hp]
  constructor
  · rintro ⟨b', hb'⟩
    split at hb'
    · next same => exact .inr ⟨same.1, by omega⟩
    · exact .inl ⟨b', hb'⟩
  · rintro (⟨b', hb'⟩ | ⟨hi, hj⟩)
    · have other : ¬ (i = p ∧ b' = b) := fun ⟨hi, hbb⟩ => none_ne (by rw [← hb', hi, hbb, hb])
      exact ⟨b', by rw [if_neg other]; exact hb'⟩
    · exact ⟨b, by rw [if_pos ⟨hi, rfl⟩]; omega⟩

/-- A new node below one that has no child on that side makes a tree again. -/
theorem Tree.Ok.grow (hb : (t.node p).child b = DNode.noChild) (hcnt : t.cnt < 511) : (t.grow p b).Ok := by
  have new : (BitVec.ofNat 16 t.cnt).toNat = t.cnt := by rw [BitVec.toNat_ofNat]; omega
  have new_ne : BitVec.ofNat 16 t.cnt ≠ DNode.noChild := fun he => by
    have : t.cnt = 65535 := new.symm.trans (congrArg BitVec.toNat he)
    omega
  have fresh : (t.grow p b).node t.cnt = DNode.cleared :=
    (node_grow_ne (by omega)).trans (h.unused _ (Nat.le_refl _))
  constructor
  case pos => exact Nat.le_add_left 1 t.cnt
  case le => exact hcnt
  case link =>
    intro i hi b'
    obtain hi | rfl : i < t.cnt ∨ i = t.cnt := Nat.lt_succ_iff_lt_or_eq.mp hi
    · rw [h.child_grow hp]
      split
      · next same =>
        refine .inr ?_
        show i < _ ∧ _ < t.cnt + 1
        omega
      · exact (h.link i hi b').imp_right fun ⟨hlo, hhi⟩ => ⟨hlo, Nat.lt_succ_of_lt hhi⟩
    · exact .inl (by rw [fresh, child_cleared])
  case internal =>
    intro i hi
    obtain hi | rfl : i < t.cnt ∨ i = t.cnt := Nat.lt_succ_iff_lt_or_eq.mp hi
    · by_cases hip : i = p
      · subst hip
        refine iff_of_true (by rw [h.node_grow_self hp]) ⟨b, ?_⟩
        rw [h.child_grow hp, if_pos ⟨rfl, rfl⟩]
        exact new_ne
      · rw [node_grow_ne hip]
        exact h.internal i hi
    · simp [fresh, DNode.cleared, DNode.child]
  case apart =>
    intro i hi
    obtain hi | rfl : i < t.cnt ∨ i = t.cnt := Nat.lt_succ_iff_lt_or_eq.mp hi
    · by_cases hip : i = p
      · subst hip
        have other (b' : Bool) : (t.node i).child b' ≠ BitVec.ofNat 16 t.cnt := fun he => by
          obtain hnone | ⟨-, hlt⟩ := h.link i hp b'
          · exact new_ne (he.symm.trans hnone)
          · rw [he, new] at hlt
            exact Nat.lt_irrefl _ hlt
        cases b <;> simp [h.child_grow hp, other, (other _).symm]
      · rw [node_grow_ne hip]
        exact h.apart i hi
    · rw [fresh]
      simp
  case parent =>
    intro j hpos hj
    have hj : j < t.cnt + 1 := hj
    have children := fun i => h.hasChild_grow_iff hp hb (i := i) (show j < 511 by omega) hcnt
    simp only [children]
    obtain hj | rfl : j < t.cnt ∨ j = t.cnt := Nat.lt_succ_iff_lt_or_eq.mp hj
    · obtain ⟨i, ⟨hi, hc⟩, unique⟩ := h.parent j hpos hj
      refine ⟨i, ⟨Nat.lt_succ_of_lt hi, .inl hc⟩, ?_⟩
      rintro i' ⟨-, hold | ⟨-, hnew⟩⟩
      · exact unique i' ⟨(h.hasChild_in_use (by omega) hold).1, hold⟩
      · exact absurd hnew (Nat.ne_of_lt hj)
    · refine ⟨p, ⟨Nat.lt_succ_of_lt hp, .inr ⟨rfl, rfl⟩⟩, ?_⟩
      rintro i' ⟨-, hold | ⟨hnew, -⟩⟩
      · exact absurd (h.hasChild_in_use hcnt hold).2 (Nat.lt_irrefl _)
      · exact hnew
  case unused =>
    intro i hi
    have hi : t.cnt + 1 ≤ i := hi
    exact (node_grow_ne (by omega)).trans (h.unused i (by omega))

end Grow

/-! ### insert (44_decoder.md R304) -/

/-- A step of the walk of `insert` either grows the tree and goes on at the new node, or follows a link that is there. -/
theorem descend_cons_ok {ent : Nat} {b : Bool} {bs : List Bool} {p : BitVec 16} {t : Tree} {r : Tree × BitVec 16}
    (h : descend ent (b :: bs) p t = .ok r) :
    (t.node p.toNat).kind ≠ .leaf ∧
      (((t.node p.toNat).child b = DNode.noChild ∧ t.cnt ≠ 511 ∧
          descend ent bs (BitVec.ofNat 16 t.cnt) (t.grow p.toNat b) = .ok r) ∨
        ((t.node p.toNat).child b ≠ DNode.noChild ∧
          descend ent bs ((t.node p.toNat).child b)
            ⟨t.dnode.set p.toNat { t.node p.toNat with kind := .internal }, t.cnt⟩ = .ok r)) := by
  simp only [descend] at h
  split at h
  · cases h
  · next notLeaf =>
    refine ⟨notLeaf, ?_⟩
    split at h
    · next hb =>
      split at h
      · cases h
      · next hcnt => exact .inl ⟨hb, hcnt, h⟩
    · next hb => exact .inr ⟨hb, h⟩

/-- The walk of `insert` from node `p`, which alone may be EMPTY, makes a tree where the terminal node alone may be; what is
INTERNAL stays so, and `p` is, if the walk left it. -/
theorem descend_ok {ent : Nat} {bits : List Bool} {p p' : BitVec 16} {t t' : Tree} (ht : t.Ok) (hp : p.toNat < t.cnt)
    (hempty : t.EmptyOnlyAt p.toNat) (h : descend ent bits p t = .ok (t', p')) :
    t'.Ok ∧ p'.toNat < t'.cnt ∧ t'.EmptyOnlyAt p'.toNat ∧
      (∀ i, (t.node i).kind = .internal → (t'.node i).kind = .internal) ∧
      (bits ≠ [] → (t.node p.toNat).kind ≠ .leaf ∧ (t'.node p.toNat).kind = .internal) := by
  induction bits generalizing p t with
  | nil =>
    cases h
    exact ⟨ht, hp, hempty, fun _ => id, fun hne => absurd rfl hne⟩
  | cons b bs ih =>
    obtain ⟨notLeaf, ⟨hb, hcnt, h⟩ | ⟨hb, h⟩⟩ := descend_cons_ok h
    · have hcnt : t.cnt < 511 := Nat.lt_of_le_of_ne ht.le hcnt
      have new : (BitVec.ofNat 16 t.cnt).toNat = t.cnt := by rw [BitVec.toNat_ofNat]; omega
      have walked : ((t.grow p.toNat b).node p.toNat).kind = .internal := by rw [ht.node_grow_self hp]
      have emptyNew : (t.grow p.toNat b).EmptyOnlyAt (BitVec.ofNat 16 t.cnt).toNat := by
        intro i hi hk
        by_cases hip : i = p.toNat
        · rw [hip, walked] at hk
          cases hk
        · rw [node_grow_ne hip] at hk
          have hi : i < t.cnt + 1 := hi
          have := mt (hempty i · hk) hip
          omega
      obtain ⟨ok', hp', empty', kept, -⟩ := ih (ht.grow hp hb hcnt) (by rw [new]; exact Nat.lt_succ_self _) emptyNew h
      refine ⟨ok', hp', empty', fun i hi => kept i ?_, fun _ => ⟨notLeaf, kept _ walked⟩⟩
      by_cases hip : i = p.toNat
      · rw [hip, walked]
      · rw [node_grow_ne hip, hi]
    · have walked : (t.node p.toNat).kind = .internal := (ht.internal _ hp).mpr ⟨b, hb⟩
      have same : t.dnode.set p.toNat { t.node p.toNat with kind := .internal } = t.dnode := by
        rw [← walked]
        exact table_set_get_self _ _ _
      rw [same] at h
      have emptyNone (q : Nat) : t.EmptyOnlyAt q := fun i hi hk => by
        rw [hempty i hi hk, walked] at hk
        cases hk
      obtain ⟨ok', hp', empty', kept, -⟩ := ih ht (ht.child_in_use hp hb).2 (emptyNone _) h
      exact ⟨ok', hp', empty', kept, fun _ => ⟨notLeaf, kept _ walked⟩⟩

/-- REBUILD's tree after `k` entries (44_decoder.md R304): an EMPTY entry is the root of the tree of no code, and the root is
a LEAF only in the tree of one. -/
structure Tree.Holds (t : Tree) (k : Nat) : Prop where
  ok : t.Ok
  empty : ∀ i, i < t.cnt → (t.node i).kind = .empty → k = 0 ∧ i = 0 ∧ t.cnt = 1
  rootEmpty : k = 0 → (t.node 0).kind = .empty
  rootLeaf : (t.node 0).kind = .leaf → k = 1

theorem tree_empty_holds : Tree.empty.Holds 0 where
  ok := tree_empty_ok
  empty i hi _ := ⟨rfl, Nat.lt_one_iff.mp hi, rfl⟩
  rootEmpty _ := by rw [node_empty]; rfl
  rootLeaf h := by rw [node_empty] at h; cases h

theorem insertCode_holds {sym : Byte} {bits : List Bool} {ent k : Nat} {t t' : Tree} (ht : t.Holds k)
    (h : insertCode sym bits ent t = .ok t') : t'.Holds (k + 1) := by
  obtain ⟨⟨u, p⟩, hdescend, h⟩ := except_bind_ok h
  have atRoot : t.EmptyOnlyAt 0 := fun i hi hk => (ht.empty i hi hk).2.1
  obtain ⟨ok, hp, emptyAt, -, walked⟩ := descend_ok ht.ok (p := 0) ht.ok.pos atRoot hdescend
  dsimp only at h
  split at h
  case isFalse => cases h
  case isTrue terminal =>
    cases h
    have terminal : (u.node p.toNat).kind = .empty := terminal
    have hp511 : p.toNat < 511 := Nat.lt_of_lt_of_le hp ok.le
    constructor
    case ok =>
      refine ok.set_same_links hp (fun b => by cases b <;> rfl) (iff_of_false (fun hk => by cases hk) ?_)
      rw [terminal]
      exact fun hk => by cases hk
    case empty =>
      intro i hi hk
      by_cases hip : i = p.toNat
      · subst hip
        rw [node_set_self u hp511] at hk
        cases hk
      · rw [node_set_ne u hip] at hk
        exact absurd (emptyAt i hi hk) hip
    case rootEmpty => exact fun hk => absurd hk (Nat.succ_ne_zero k)
    case rootLeaf =>
      intro hleaf
      cases bits with
      | nil =>
        cases hdescend
        rw [(ht.empty 0 ht.ok.pos terminal).1]
      | cons b bs =>
        obtain ⟨-, internal⟩ := walked (List.cons_ne_nil b bs)
        have internal : (u.node 0).kind = .internal := internal
        have hp0 : 0 ≠ p.toNat := fun he => by
          rw [← he, internal] at terminal
          cases terminal
        rw [node_set_ne u hp0, internal] at hleaf
        cases hleaf

/-! ### The table (44_decoder.md R302, R303) -/

theorem need_ok {limit pos k at_ : Nat} {u : Unit} (h : need limit pos k at_ = .ok u) : pos + k ≤ limit := by
  unfold need at h
  split at h
  · cases h
  · omega

/-- An entry that is read inserts one code, and ends after where it began and within the limit. -/
theorem parseEntry_ok {frame : List Byte} {limit : Nat} {r r' : Parser} (h : parseEntry frame limit r = .ok r') :
    r.pos ≤ r'.pos ∧ r'.pos ≤ limit ∧ ∃ sym bits, insertCode sym bits r.pos r.tree = .ok r'.tree := by
  obtain ⟨-, -, h⟩ := except_bind_ok h
  dsimp only at h
  split at h
  · cases h
  · obtain ⟨-, -, h⟩ := except_bind_ok h
    split at h
    · cases h
    · obtain ⟨_, hneed, h⟩ := except_bind_ok h
      obtain ⟨bits, -, h⟩ := except_bind_ok h
      obtain ⟨tree, hinsert, h⟩ := except_bind_ok h
      have fits := need_ok hneed
      cases h
      exact ⟨by dsimp only; omega, fits, _, bits, hinsert⟩

theorem parseEntries_ok {frame : List Byte} {limit n k : Nat} {r r' : Parser} (hr : r.tree.Holds k)
    (hlo : 8 ≤ r.pos) (hhi : r.pos ≤ limit) (h : parseEntries frame limit n r = .ok r') :
    r'.tree.Holds (k + n) ∧ 8 ≤ r'.pos ∧ r'.pos ≤ limit := by
  induction n generalizing k r with
  | zero => cases h; exact ⟨hr, hlo, hhi⟩
  | succ n ih =>
    simp only [parseEntries] at h
    split at h
    · cases h
    · next r₁ hentry =>
      obtain ⟨hpos, hlimit, sym, bits, hinsert⟩ := parseEntry_ok hentry
      have rest := ih (insertCode_holds hr hinsert) (hlo.trans hpos) hlimit h
      rwa [Nat.add_right_comm, Nat.add_assoc] at rest

theorem parseTable_ok {frame : List Byte} {limit num : Nat} {r : Parser} (h : parseTable frame limit = .ok (num, r)) :
    num ≤ 256 ∧ r.tree.Holds num ∧ 8 ≤ r.pos ∧ r.pos ≤ limit := by
  obtain ⟨_, hneed, h⟩ := except_bind_ok h
  dsimp only at h
  split at h
  · cases h
  · next hnum =>
    obtain ⟨r₁, hentries, h⟩ := except_bind_ok h
    cases h
    have fits := need_ok hneed
    have parsed := parseEntries_ok tree_empty_holds (Nat.le_refl 8) (by omega) hentries
    rw [Nat.zero_add] at parsed
    exact ⟨Nat.le_of_not_lt hnum, parsed⟩

/-! ### Every stage keeps the decoder's tree -/

theorem Tree.Holds.isDecTree {t : Tree} {k : Nat} (h : t.Holds k) : IsDecTree t.dnode t.cnt := by
  have ok := h.ok
  refine ⟨⟨ok.pos, ok.le, fun i hi => ⟨ok.link i hi false, ok.link i hi true, ?_, fun hk => (h.empty i hi hk).2⟩, ok.unused⟩,
    ok.apart, ?_⟩
  · exact (ok.internal i hi).trans Bool.exists_bool
  · have parent := ok.parent
    simp only [Tree.HasChild, Bool.exists_bool] at parent
    exact parent

theorem Tree.Holds.root_empty_iff {t : Tree} {k : Nat} (h : t.Holds k) : (t.node 0).kind = .empty ↔ k = 0 :=
  ⟨fun hk => (h.empty 0 h.ok.pos hk).1, h.rootEmpty⟩

theorem frameLimit_le {s : State} {limit : Nat} (h : frameLimit s = .ok limit) : limit ≤ s.srcLen.toNat := by
  unfold frameLimit at h
  split at h
  · split at h <;> cases h
    exact Nat.sub_le _ _
  · cases h
    exact Nat.le_refl _

/-- REBUILD clears DEC_VALID, or leaves the tree of the table it read, which lies within IBUF. -/
theorem rebuildBody_state_cases (s : State) :
    (rebuildBody s).state.decValid = false ∨
      ∃ (num : Nat) (r : Parser) (w : Work), num ≤ 256 ∧ r.tree.Holds num ∧ 8 ≤ r.pos ∧ r.pos ≤ s.srcLen.toNat ∧
        r.pos ≤ s.cfg.ibufBytes ∧ (rebuildBody s).state = { s with
          dnode := r.tree.dnode, decNodes := BitVec.ofNat 10 r.tree.cnt, decNcodes := BitVec.ofNat 9 num,
          decPayloadOff := BitVec.ofNat 32 r.pos, decValid := true, work := w } := by
  unfold rebuildBody
  split
  · next fits =>
    have fits : s.srcLen.toNat ≤ s.cfg.ibufBytes := of_decide_eq_true fits
    split
    · exact .inl rfl
    · next limit hlimit =>
      have hlimit := frameLimit_le hlimit
      split
      · exact .inl rfl
      · next num r htable =>
        obtain ⟨hnum, holds, hlo, hhi⟩ := parseTable_ok htable
        exact .inr ⟨num, r, _, hnum, holds, hlo, hhi.trans hlimit, (hhi.trans hlimit).trans fits, rfl⟩
  · exact .inl rfl

theorem decoderOk_congr {s t : State} (hdnode : t.dnode = s.dnode) (hnodes : t.decNodes = s.decNodes)
    (hncodes : t.decNcodes = s.decNcodes) (hoff : t.decPayloadOff = s.decPayloadOff) (hvalid : t.decValid = s.decValid)
    (hcfg : t.cfg = s.cfg) (h : DecoderOk s) : DecoderOk t := by
  rw [DecoderOk, hdnode, hnodes, hncodes, hoff, hvalid, hcfg]
  exact h

theorem decoderOk_of_invalid {s : State} (h : s.decValid = false) : DecoderOk s := fun hv => by
  rw [h] at hv
  cases hv

theorem rebuildBody_decoderOk (s : State) : DecoderOk (rebuildBody s).state := by
  obtain hv | ⟨num, r, w, hnum, holds, hlo, hlen, hbuf, hs⟩ := rebuildBody_state_cases s
  · exact decoderOk_of_invalid hv
  · have hcnt := holds.ok.le
    have nodes : (BitVec.ofNat 10 r.tree.cnt).toNat = r.tree.cnt := by rw [BitVec.toNat_ofNat]; omega
    have ncodes : (BitVec.ofNat 9 num).toNat = num := by rw [BitVec.toNat_ofNat]; omega
    have off : (BitVec.ofNat 32 r.pos).toNat = r.pos := by rw [BitVec.toNat_ofNat]; omega
    have ncodes_eq (k : Nat) (hk : k < 512) : BitVec.ofNat 9 num = BitVec.ofNat 9 k ↔ num = k := by
      rw [← BitVec.toNat_inj, ncodes, BitVec.toNat_ofNat, Nat.mod_eq_of_lt hk]
    rw [hs]
    intro _
    dsimp only
    rw [nodes, ncodes, off]
    exact ⟨holds.isDecTree, holds.root_empty_iff.trans (ncodes_eq 0 (by decide)).symm,
      fun hk => (ncodes_eq 1 (by decide)).mpr (holds.rootLeaf hk), hnum, hlo, hbuf⟩

theorem countBody_decoderOk {s : State} (h : DecoderOk s) : DecoderOk (countBody s).state := by
  obtain ⟨-, hs⟩ | hs := countBody_state_cases s <;> rw [hs] <;> exact h

theorem buildBody_decoderOk {s : State} (h : DecoderOk s) : DecoderOk (buildBody s).state := by
  obtain ⟨n, r, w, hs⟩ | hs := buildBody_state_cases s <;> rw [hs] <;> exact h

theorem gencodesBody_decoderOk {s : State} (h : DecoderOk s) : DecoderOk (gencodesBody s).state := by
  obtain hs | hs := gencodesBody_state_cases s <;> rw [hs] <;> exact h

theorem decoderOk_stageInvariant : StageInvariant DecoderOk where
  same hst := hst ▸ decoderOk_congr rfl rfl rfl rfl rfl rfl
  input _ := decoderOk_congr rfl rfl rfl rfl rfl rfl
  clear _ := decoderOk_of_invalid rfl
  clearEncoder := decoderOk_congr rfl rfl rfl rfl rfl rfl
  count := countBody_decoderOk
  build := buildBody_decoderOk
  gencodes := gencodesBody_decoderOk
  output hst := hst.1 ▸ decoderOk_congr rfl rfl rfl rfl rfl rfl
  rebuild _ := rebuildBody_decoderOk _
  reset _ := decoderOk_of_invalid rfl

/-- Settles O31: REBUILD alone makes a tree with DEC_VALID = 1, and each `insert` of it keeps the entries in use a tree whose
root is EMPTY only before the first code and a LEAF only after the one empty code. -/
theorem stepKeepsDecoderTree : Obligations.StepKeepsDecoderTree :=
  fun _ _ hs ht => decoderOk_stageInvariant.step_next hs ht

end Sys2Proof.Machine
end

section
/-! SUPPORT. After a successful COUNT or ENCODE the frequencies add up to SRC_LEN (10_state.md R51): no counter wraps, as
there are fewer than 2^32 input bytes. -/

namespace Sys2Proof.Machine

open Sys2Proof

theorem sum_set_succ {l : List Word} {i : Nat} (hi : i < l.length) (h : (l.map BitVec.toNat).sum + 1 < 2 ^ 32) :
    ((l.set i (l.getD i 0 + 1)).map BitVec.toNat).sum = (l.map BitVec.toNat).sum + 1 := by
  induction l generalizing i with
  | nil => cases hi
  | cons w l ih =>
    rw [List.map_cons, List.sum_cons] at h
    cases i with
    | zero =>
      have counted : (w + 1).toNat = w.toNat + 1 := BitVec.toNat_add_of_lt (show w.toNat + 1 < 2 ^ 32 by omega)
      simp only [List.getD_cons_zero, List.set_cons_zero, List.map_cons, List.sum_cons, counted]
      omega
    | succ i =>
      have rest := ih (Nat.lt_of_succ_lt_succ hi) (by omega)
      simp only [List.getD_cons_succ, List.set_cons_succ, List.map_cons, List.sum_cons, rest]
      omega

theorem freqSum_countByte {freq : Table Word 256} (b : Byte) (h : freqSum freq + 1 < 2 ^ 32) :
    freqSum (countByte freq b) = freqSum freq + 1 :=
  sum_set_succ (freq.size_eq.symm ▸ b.isLt) h

theorem freqSum_countBytes {bytes : List Byte} (h : bytes.length < 2 ^ 32) :
    freqSum (countBytes bytes) = bytes.length := by
  have foldl_sum : ∀ freq, freqSum freq + bytes.length < 2 ^ 32 →
      freqSum (bytes.foldl countByte freq) = freqSum freq + bytes.length := by
    clear h
    induction bytes with
    | nil => exact fun freq _ => rfl
    | cons b bytes ih =>
      intro freq hfreq
      rw [List.length_cons] at hfreq ⊢
      have counted := freqSum_countByte b (freq := freq) (by omega)
      rw [List.foldl_cons, ih _ (by omega), counted]
      omega
  have counted := foldl_sum (Table.fill 256 0)
  rw [freqSum_fill_zero, Nat.zero_add] at counted
  exact counted h

/-! ### Commands that succeed -/

/-- A command that completes with ERR_CODE 0 ended its body without an error. -/
theorem exec_success {i : Instr} {s t : State} (h : exec i s = .next t) (hcode : t.status.errCode = 0) :
    ∃ u, commandBody i s = .ok u ∧ t = completeOk u := by
  rw [exec_eq_complete] at h
  obtain hok | ⟨u, e, -, rfl⟩ := complete_cases h
  · exact hok
  · exact absurd hcode e.code.value_ne_zero

theorem raiseOutput_ne_ok (s : State) (o : Nat) (e : CmdError) (t : State) : raiseOutput s o e ≠ .ok t := by
  obtain ⟨b, d, h, -⟩ := raiseOutput_eq s o e
  rw [h]
  exact fun hok => by cases hok

theorem countBody_success {s t : State} (h : countBody s = .ok t) : t = { s with freq := countBytes (input s) } := by
  unfold countBody at h
  split at h <;> cases h
  rfl

/-- The tree stages of ENCODE read FREQ and leave it. -/
theorem encodeTables_freq (s : State) : (encodeTables s).state.freq = s.freq := by
  unfold encodeTables
  split
  · rfl
  · refine andThen_state (P := fun u => u.freq = s.freq) ?_ fun u hu => ?_
    · obtain ⟨n, r, w, hs⟩ | hs := buildBody_state_cases s <;> rw [hs]
    · obtain hs | hs := gencodesBody_state_cases u <;> rw [hs] <;> exact hu

/-- ENCODE counts its input first, and its later stages leave FREQ. -/
theorem encodeBody_success {s t : State} (h : encodeBody s = .ok t) : t.freq = countBytes (input s) := by
  unfold encodeBody at h
  split at h
  · obtain ⟨v, hv, hemit⟩ := andThen_ok h
    obtain ⟨u, hcount, htables⟩ := andThen_ok hv
    have emitted : t.freq = v.freq := by
      obtain ⟨ht, -⟩ := emitBody_writesOutput v
      rw [hemit, BodyEnd.state_ok] at ht
      rw [ht]
    have built : v.freq = u.freq := by
      have kept := encodeTables_freq u
      rwa [htables] at kept
    rw [emitted, built, countBody_success hcount]
  · exact absurd h (raiseOutput_ne_ok _ _ _ _)

/-- Settles O35: FREQ is the count of the input, whose sum is the input's length. -/
theorem frequenciesSumToSrcLen : Obligations.FrequenciesSumToSrcLen := by
  intro s t i hi hexec hcode
  obtain ⟨u, hbody, rfl⟩ := exec_success hexec hcode
  have counted : u.freq = countBytes (input s) := by
    obtain rfl | rfl := hi
    · rw [countBody_success hbody]
    · exact encodeBody_success hbody
  rw [completeOk_freq, counted]
  constructor
  · rw [← input_length]
    exact freqSum_countBytes (by rw [input_length]; exact s.srcLen.isLt)
  · intro hzero b
    have empty : input s = [] := List.eq_nil_of_length_eq_zero (by rw [input_length, hzero]; rfl)
    rw [empty]
    exact Table.get_fill _ _ _

end Sys2Proof.Machine
end

section
/-! SUPPORT. No command reads the working registers that an earlier one left (10_state.md R60). -/

namespace Sys2Proof.Machine

open Sys2Proof

/-- The same end of a body, with other contents of the working registers. -/
def BodyEnd.withWork (w : Work) : BodyEnd → BodyEnd
  | .ok s => .ok { s with work := w }
  | .raised s e => .raised { s with work := w } e

/-- Whatever the working registers hold, the body ends alike but for them. -/
def IgnoresWork (f : State → BodyEnd) : Prop := ∀ s w, ∃ w', f { s with work := w } = (f s).withWork w'

theorem IgnoresWork.andThen {f g : State → BodyEnd} (hf : IgnoresWork f) (hg : IgnoresWork g) :
    IgnoresWork fun s => (f s).andThen g := by
  intro s w
  obtain ⟨w₁, h₁⟩ := hf s w
  dsimp only
  rw [h₁]
  cases f s with
  | ok t => exact hg t w₁
  | raised t e => exact ⟨w₁, rfl⟩

theorem raiseOutput_withWork (s : State) (w : Work) (o : Nat) (e : CmdError) :
    raiseOutput { s with work := w } o e = (raiseOutput s o e).withWork w := by
  unfold raiseOutput
  split <;> rfl

@[simp] theorem input_withWork (s : State) (w : Work) : input { s with work := w } = input s := rfl
@[simp] theorem srcFits_withWork (s : State) (w : Work) : srcFits { s with work := w } = srcFits s := rfl
@[simp] theorem srcLenError_withWork (s : State) (w : Work) : srcLenError { s with work := w } = srcLenError s := rfl
@[simp] theorem frameLimit_withWork (s : State) (w : Work) : frameLimit { s with work := w } = frameLimit s := rfl
@[simp] theorem payloadRegion_withWork (s : State) (w : Work) : payloadRegion { s with work := w } = payloadRegion s := rfl

theorem countBody_ignoresWork : IgnoresWork countBody := by
  intro s w
  unfold countBody
  rw [srcFits_withWork]
  split <;> exact ⟨w, rfl⟩

theorem buildBody_ignoresWork : IgnoresWork buildBody := by
  intro s w
  simp only [buildBody]
  split <;> exact ⟨_, rfl⟩

theorem gencodesBody_ignoresWork : IgnoresWork gencodesBody := by
  intro s w
  simp only [gencodesBody]
  split <;> exact ⟨w, rfl⟩

theorem emitBody_ignoresWork : IgnoresWork emitBody := by
  intro s w
  simp only [emitBody, srcLenError_withWork, raiseOutput_withWork]
  rw [srcFits_withWork, input_withWork]
  split
  · cases emitFrame s.code s.ctrl.trailer s.cfg.obufBytes (input s) with
    | error e => exact ⟨w, rfl⟩
    | ok p => exact ⟨_, rfl⟩
  · exact ⟨w, rfl⟩

theorem walkBody_ignoresWork : IgnoresWork walkBody := by
  intro s w
  simp only [walkBody, srcLenError_withWork, raiseOutput_withWork]
  rw [srcFits_withWork, payloadRegion_withWork, input_withWork]
  split
  · split
    · cases payloadRegion s with
      | error e => exact ⟨w, rfl⟩
      | ok region =>
        obtain ⟨off, len, nbits⟩ := region
        dsimp only
        cases walkPayload s.dnode s.ctrl.trailer s.cfg.obufBytes (slice (input s) off len) nbits with
        | error e => exact ⟨w, rfl⟩
        | ok r => exact ⟨_, rfl⟩
    · exact ⟨w, rfl⟩
  · exact ⟨w, rfl⟩

theorem rebuildBody_ignoresWork : IgnoresWork rebuildBody := by
  intro s w
  unfold rebuildBody
  rw [srcFits_withWork, frameLimit_withWork, input_withWork]
  split
  · cases frameLimit s with
    | error e => exact ⟨w, rfl⟩
    | ok limit =>
      dsimp only
      cases parseTable (input s) limit with
      | error e => exact ⟨w, rfl⟩
      | ok table => exact ⟨_, rfl⟩
  · exact ⟨w, rfl⟩

theorem encodeTables_ignoresWork : IgnoresWork encodeTables := by
  intro s w
  unfold encodeTables
  dsimp only
  split
  · exact ⟨w, rfl⟩
  · exact buildBody_ignoresWork.andThen gencodesBody_ignoresWork s w

theorem encodeBody_ignoresWork : IgnoresWork encodeBody := by
  intro s w
  unfold encodeBody
  rw [srcFits_withWork]
  split
  · exact (countBody_ignoresWork.andThen encodeTables_ignoresWork).andThen emitBody_ignoresWork s w
  · exact ⟨w, raiseOutput_withWork s w _ _⟩

theorem decodeBody_ignoresWork : IgnoresWork decodeBody := by
  intro s w
  obtain ⟨w₁, h₁⟩ := rebuildBody_ignoresWork s w
  unfold decodeBody
  rw [h₁]
  cases rebuildBody s with
  | ok t => exact walkBody_ignoresWork t w₁
  | raised t e => exact ⟨w₁, raiseOutput_withWork t w₁ 0 e⟩

theorem commandBody_ignoresWork (i : Instr) : IgnoresWork (commandBody i) := by
  cases i with
  | nop => exact fun _ w => ⟨w, rfl⟩
  | clear => exact fun _ w => ⟨w, rfl⟩
  | encode => exact encodeBody_ignoresWork
  | count => exact countBody_ignoresWork
  | build => exact buildBody_ignoresWork
  | gencodes => exact gencodesBody_ignoresWork
  | emit => exact emitBody_ignoresWork
  | decode => exact decodeBody_ignoresWork
  | rebuild => exact rebuildBody_ignoresWork
  | walk => exact walkBody_ignoresWork

/-- Settles O24: the body of every command ends alike whatever the working registers hold, but for them. -/
theorem hiddenWorkIsNeverRead : Obligations.HiddenWorkIsNeverRead := by
  intro i s w
  obtain ⟨w', h⟩ := commandBody_ignoresWork i s w
  rw [exec_eq_complete, exec_eq_complete, h]
  cases commandBody i s with
  | ok t => exact ⟨_, _, rfl, rfl, rfl⟩
  | raised t e => exact ⟨_, _, rfl, rfl, rfl⟩

end Sys2Proof.Machine
end

section
/-! SUPPORT. The state after reset (10_state.md R62) and the invariants it meets. -/

namespace Sys2Proof.Machine

open Sys2Proof

/-- Settles O18: each component of the state after reset is written out, and a filled table has one entry at every index. -/
theorem resetValues : Obligations.ResetValues := by
  intro c
  exact ⟨rfl, rfl, rfl, rfl, rfl, rfl, fun b => Table.get_fill _ _ _, fun b => Table.get_fill _ _ _,
    fun i => Table.get_fill _ _ _, rfl, rfl, fun i => Table.get_fill _ _ _, rfl, rfl, rfl, rfl, rfl, rfl⟩

theorem handshakeOk_powerUp (c : Config) : HandshakeOk (State.powerUp c) := by
  refine ⟨rfl, fun v hv => ?_, fun _ => rfl, fun _ => ⟨rfl, rfl⟩⟩
  cases hv

/-- Settles O25: nothing is pending, the buffers are empty of written bytes, and the tables are cleared. -/
theorem resetMeetsTheInvariants : Obligations.ResetMeetsTheInvariants := by
  intro c hc
  obtain ⟨ibuf, obuf⟩ := State.powerUp_buffers_wf c
  exact ⟨handshakeOk_powerUp c, ⟨hc, ibuf, obuf, Nat.zero_le _⟩, encoderOk_of_cleared rfl rfl,
    weightsOk_of_cleared (freqSum_fill_zero.trans_le (Nat.zero_le _)) rfl, decoderOk_of_invalid rfl⟩

end Sys2Proof.Machine
end

section
/-! SUPPORT. What a transaction does at a place that it reaches, and the offsets of the registers (10_state.md R34,
20_memory.md R101 to R109). -/

namespace Sys2Proof.Machine

open Sys2Proof

/-! ### A transaction at its place -/

theorem busRead_of_access {s : State} {size : AccessSize} {off : Word} {n : Nat} {p : Place}
    (h : access s.cfg size off = some (n, p)) (hdefined : s.status.busy = false ∨ p.unspecifiedWhileBusy = false) :
    busRead size off s = (⟨readPlace s n p, false⟩, s) := by
  obtain ⟨hnone, -⟩ | ⟨n', p', hp, ⟨hbusy, hfree, -⟩ | ⟨-, hread⟩⟩ := busRead_cases size off s
  · cases h.symm.trans hnone
  · cases h.symm.trans hp
    simp [hbusy, hfree] at hdefined
  · cases h.symm.trans hp
    exact hread

theorem busRead_free {s : State} {size : AccessSize} {off : Word} {n : Nat} {p : Place}
    (h : access s.cfg size off = some (n, p)) (hbusy : s.status.busy = true) (hfree : p.unspecifiedWhileBusy = true) :
    (busRead size off s).1 = ⟨lowBytes n (Config.freeWord s.draws), false⟩ := by
  obtain ⟨hnone, -⟩ | ⟨n', p', hp, ⟨-, -, hread⟩ | ⟨hdefined, -⟩⟩ := busRead_cases size off s
  · cases h.symm.trans hnone
  · cases h.symm.trans hp
    rw [hread]
  · cases h.symm.trans hp
    simp [hbusy, hfree] at hdefined

theorem busRead_of_no_access {s : State} {size : AccessSize} {off : Word} (h : access s.cfg size off = none) :
    busRead size off s = (⟨0, true⟩, s) := by
  obtain ⟨-, hread⟩ | ⟨n, p, hp, -⟩ := busRead_cases size off s
  · exact hread
  · cases h.symm.trans hp

theorem busWrite_of_access {s : State} {size : AccessSize} {off v : Word} {n : Nat} {p : Place}
    (h : access s.cfg size off = some (n, p)) : busWrite size off v s = (⟨0, false⟩, writePlace n v p s) := by
  obtain ⟨hnone, -⟩ | ⟨n', p', hp, hwrite⟩ := busWrite_cases size off v s
  · cases h.symm.trans hnone
  · cases h.symm.trans hp
    exact hwrite

theorem unlessBusy_idle {s : State} (h : s.status.busy = false) (f : State → State) : unlessBusy f s = f s := by
  simp [unlessBusy, h]

theorem unlessBusy_busy {s : State} (h : s.status.busy = true) (f : State → State) : unlessBusy f s = dropWrite s := by
  simp [unlessBusy, h]

/-! ### The offsets of words -/

/-- An aligned word below 0x0010_0000 reaches what the map has there (20_memory.md R101). -/
theorem access_word {off : Word} {p : Place} (c : Config) (halign : off.toNat % 4 = 0) (hlow : off.toNat < 0x100000)
    (h : wordPlace off.toNat = some p) : access c .word off = some (4, p) := by
  simp [access, AccessSize.bytes, placeAt, halign, hlow, h]

theorem wordPlace_of_mem : ∀ e ∈ registerMap, wordPlace e.1 = some (.reg e.2) ∧ e.1 % 4 = 0 ∧ e.1 < 0x100000 := by decide

theorem access_reg {off : Word} {r : Reg} (c : Config) (h : (off.toNat, r) ∈ registerMap) :
    access c .word off = some (4, .reg r) := by
  obtain ⟨hplace, halign, hlow⟩ := wordPlace_of_mem _ h
  exact access_word c halign hlow hplace

theorem busRead_reg {s : State} {off : Word} {r : Reg} (h : (off.toNat, r) ∈ registerMap)
    (hdefined : s.status.busy = false ∨ (Place.reg r).unspecifiedWhileBusy = false) :
    busRead .word off s = (⟨readReg s r, false⟩, s) := busRead_of_access (access_reg s.cfg h) hdefined

theorem busWrite_reg {s : State} {off : Word} {r : Reg} (v : Word) (h : (off.toNat, r) ∈ registerMap) :
    busWrite .word off v s = (⟨0, false⟩, writePlace 4 v (.reg r) s) := busWrite_of_access (access_reg s.cfg h)

/-- What the map has at an offset below 0x1000 is the register of that offset. -/
theorem wordPlace_low {off : Nat} {p : Place} (hoff : off < 0x1000) (h : wordPlace off = some p) :
    ∃ r, p = .reg r ∧ (off, r) ∈ registerMap := by
  rw [wordPlace, if_pos hoff] at h
  obtain ⟨r, hr, rfl⟩ := Option.map_eq_some_iff.mp h
  obtain ⟨l₁, l₂, hl, -⟩ := List.lookup_eq_some_iff.mp hr
  exact ⟨r, rfl, hl ▸ List.mem_append_right l₁ List.mem_cons_self⟩

/-- No write at the place changes anything (10_state.md R47). -/
def Place.IgnoresWrites (p : Place) : Prop := ∀ n v s, writePlace n v p s = s

/-- What the map has from 0x1000 on is a word of a window: unspecified while busy, and read-only (20_memory.md R109). -/
theorem wordPlace_window {off : Nat} {p : Place} (hoff : 0x1000 ≤ off) (h : wordPlace off = some p) :
    p.unspecifiedWhileBusy = true ∧ p.IgnoresWrites := by
  rw [wordPlace, if_neg (Nat.not_lt.mpr hoff)] at h
  split_ifs at h <;> cases h <;> exact ⟨rfl, fun _ _ _ => rfl⟩

/-! ### The places of legal accesses -/

theorem config_wf_iff (c : Config) :
    c.wf = true ↔ 1 ≤ c.ibufBytes ∧ c.ibufBytes ≤ 1048576 ∧ 1 ≤ c.obufBytes ∧ c.obufBytes ≤ 1048576 := by
  simp [Config.wf, and_assoc]

theorem accessSize_bytes_cases {size : AccessSize} {n : Nat} (h : size.bytes = some n) : n = 1 ∨ n = 2 ∨ n = 4 := by
  cases size <;> cases h <;> decide

theorem access_of_bytes (c : Config) {size : AccessSize} {n : Nat} (h : size.bytes = some n) (off : Word) :
    access c size off = (placeAt c n off.toNat).map fun p => (n, p) := by
  rw [access, h]

theorem registerMap_complete : ∀ k < 19, ((registerMap.lookup (4 * k)).isSome) = true := by decide

/-- The map has something at every aligned offset of a mapped byte below 0x0010_0000 (20_memory.md R101). -/
theorem wordPlace_of_mapped {c : Config} {off : Nat} (halign : off % 4 = 0) (hlow : off < 0x100000)
    (h : MappedByte c off) : ∃ p, wordPlace off = some p := by
  rw [← Option.isSome_iff_exists]
  obtain hreg | hhigh : off < 0x4C ∨ 0x1000 ≤ off := by omega
  · have found := registerMap_complete (off / 4) (by omega)
    rw [show 4 * (off / 4) = off by omega] at found
    rw [wordPlace, if_pos (by omega), Option.isSome_map, found]
  · unfold wordPlace
    split_ifs <;> simp <;> omega

/-- What a legal access reaches: a word of the map, or bytes of a buffer from the index on (20_memory.md R101 to R106). -/
theorem placeAt_of_legal {c : Config} {n off : Nat} (hwf : c.wf = true) (hn : n = 1 ∨ n = 2 ∨ n = 4)
    (h : LegalAccess c n off) :
    (off < 0x100000 ∧ ∃ p, placeAt c n off = some p ∧ wordPlace off = some p) ∨
      (0x100000 ≤ off ∧ off < 0x200000 ∧ placeAt c n off = some (.ibuf (off - 0x100000))) ∨
      (0x200000 ≤ off ∧ placeAt c n off = some (.obuf (off - 0x200000))) := by
  obtain ⟨halign, hword, hmapped⟩ := h
  obtain ⟨-, hibuf, -, hobuf⟩ := (config_wf_iff c).mp hwf
  have firstByte := hmapped 0 (by omega)
  have lastByte := hmapped (n - 1) (by omega)
  have aligned : ¬ off % n ≠ 0 := not_not.mpr halign
  rw [placeAt, if_neg aligned]
  by_cases hlow : off < 0x100000
  · obtain rfl := hword hlow
    obtain ⟨p, hp⟩ := wordPlace_of_mapped halign hlow firstByte
    exact .inl ⟨hlow, p, by rw [if_pos hlow, if_pos rfl, hp], hp⟩
  · rw [if_neg hlow]
    by_cases hmid : off < 0x200000
    · rw [if_pos hmid, if_pos]
      · exact .inr (.inl ⟨by omega, hmid, rfl⟩)
      · obtain rfl | rfl | rfl := hn <;> omega
    · rw [if_neg hmid, if_pos (by omega), if_pos]
      · exact .inr (.inr ⟨by omega, rfl⟩)
      · omega

/-! ### Read-only places -/

/-- The only registers that a write can change are at four offsets (10_state.md R34, R47). -/
theorem registerMap_writable : ∀ e ∈ registerMap, e.2 ∈ [Reg.ctrl, .cmd, .status, .srcLen] →
    e.1 ∈ [0x008, 0x00C, 0x010, 0x018] := by decide

theorem reg_ignoresWrites {r : Reg} (h : r ∉ [Reg.ctrl, .cmd, .status, .srcLen]) : (Place.reg r).IgnoresWrites := by
  cases r
  case ctrl | cmd | status | srcLen => exact absurd (by decide) h
  all_goals exact fun _ _ _ => rfl

theorem wordPlace_ignoresWrites {off : Nat} {p : Place} (h : wordPlace off = some p)
    (hoff : off ∉ [0x008, 0x00C, 0x010, 0x018]) : p.IgnoresWrites := by
  by_cases hreg : off < 0x1000
  · obtain ⟨r, rfl, hmem⟩ := wordPlace_low hreg h
    exact reg_ignoresWrites (mt (registerMap_writable _ hmem) hoff)
  · exact (wordPlace_window (by omega) h).2

/-- Settles O8: what such a write reaches is a read-only register, a window, or OBUF. -/
theorem readOnlyPlacesIgnoreWrites : Obligations.ReadOnlyPlacesIgnoreWrites := by
  intro s size n off v hwf hsize hlegal h008 h00C h010 h018 hrange
  have hoff : off.toNat ∉ [0x008, 0x00C, 0x010, 0x018] := by
    simp only [← BitVec.toNat_inj, ne_eq] at h008 h00C h010 h018
    simp only [List.mem_cons, List.not_mem_nil, or_false, not_or]
    exact ⟨h008, h00C, h010, h018⟩
  obtain ⟨p, hplace, hignores⟩ : ∃ p, placeAt s.cfg n off.toNat = some p ∧ p.IgnoresWrites := by
    obtain ⟨-, p, hp, hword⟩ | ⟨hlo, hhi, -⟩ | ⟨-, hobuf⟩ :=
      placeAt_of_legal hwf (accessSize_bytes_cases hsize) hlegal
    · exact ⟨p, hp, wordPlace_ignoresWrites hword hoff⟩
    · omega
    · exact ⟨_, hobuf, fun _ _ _ => rfl⟩
  rw [busWrite_of_access (n := n) (p := p) (by rw [access_of_bytes _ hsize, hplace, Option.map_some]), hignores]

/-! ### Unspecified places (10_state.md R63) -/

theorem registerMap_results : ∀ e ∈ registerMap, 0x01C ≤ e.1 → e.1 < 0x040 →
    (Place.reg e.2).unspecifiedWhileBusy = true := by decide

/-- Every place among the result registers, the windows and OBUF is unspecified while BUSY = 1. -/
theorem placeAt_unspecified {c : Config} {n off : Nat} {p : Place} (h : placeAt c n off = some p)
    (hoff : (0x01C ≤ off ∧ off < 0x040) ∨ (0x1000 ≤ off ∧ off < 0x100000) ∨ 0x200000 ≤ off) :
    p.unspecifiedWhileBusy = true := by
  unfold placeAt at h
  split_ifs at h
  · obtain ⟨hlo, hhi⟩ | hwindow : (0x01C ≤ off ∧ off < 0x040) ∨ 0x1000 ≤ off := by omega
    · obtain ⟨r, rfl, hmem⟩ := wordPlace_low (by omega) h
      exact registerMap_results _ hmem hlo hhi
    · exact (wordPlace_window hwindow h).1
  · omega
  · cases h
    rfl

/-- An access is of its size's bytes, at what the map has there. -/
theorem access_eq_some {c : Config} {size : AccessSize} {off : Word} {n : Nat} {p : Place}
    (h : access c size off = some (n, p)) : size.bytes = some n ∧ placeAt c n off.toNat = some p := by
  unfold access at h
  cases hsize : size.bytes with
  | none => simp [hsize] at h
  | some m =>
    simp only [hsize, Option.map_eq_some_iff, Prod.mk.injEq] at h
    obtain ⟨q, hq, rfl, rfl⟩ := h
    exact ⟨rfl, hq⟩

/-- Settles O15: such a read is a bus error by the map alone, or a free value of its draw number alone. -/
theorem busyReadsRevealNothing : Obligations.BusyReadsRevealNothing := by
  intro s t size off hs ht hcfg hdraws hoff
  cases haccess : access s.cfg size off with
  | none => rw [busRead_of_no_access haccess, busRead_of_no_access (hcfg.symm ▸ haccess)]
  | some np =>
    have free : np.2.unspecifiedWhileBusy = true := placeAt_unspecified (access_eq_some haccess).2 hoff
    rw [busRead_free haccess hs free, busRead_free (hcfg.symm ▸ haccess) ht free, hdraws]

end Sys2Proof.Machine
end

section
/-! SUPPORT. The bits and fields of register and window words (10_state.md R36, R38, R52 to R56). -/

namespace Sys2Proof.Machine

open Sys2Proof

/-! ### Fields of words -/

theorem bitWord_getLsbD (b : Bool) {i : Nat} (hi : i < 32) (j : Nat) :
    (bitWord b i).getLsbD j = (b && decide (j = i)) := by
  cases b with
  | false => simp [bitWord]
  | true =>
    have power : (bitWord true i).getLsbD j = (decide (i < 32) && decide (i = j)) := BitVec.getLsbD_twoPow i j
    rw [power, decide_eq_true hi, Bool.true_and, Bool.true_and]
    exact decide_eq_decide.mpr eq_comm

/-- A field that does not hold a bit sees nothing of it. -/
theorem extract_bitWord (b : Bool) {i start len : Nat} (hi : i < 32) (h : i < start ∨ start + len ≤ i) :
    (bitWord b i).extractLsb' start len = 0#len := by
  apply BitVec.eq_of_getLsbD_eq
  intro j hj
  have other : start + j ≠ i := by omega
  simp [bitWord_getLsbD b hi, other]

/-- The value of `w` bits placed at bit `i` is read back from its own field. -/
theorem extract_placed_self {w i : Nat} (v : BitVec w) (h : i + w ≤ 32) :
    (v.setWidth 32 <<< i).extractLsb' i w = v := by
  apply BitVec.eq_of_getLsbD_eq
  intro j hj
  have inside : i + j < 32 := by omega
  simp [hj, inside]

/-- A field apart from a placed value sees nothing of it. -/
theorem extract_placed_apart {w i start len : Nat} (v : BitVec w) (h : i + w ≤ start ∨ start + len ≤ i) :
    (v.setWidth 32 <<< i).extractLsb' start len = 0#len := by
  apply BitVec.eq_of_getLsbD_eq
  intro j hj
  simp only [BitVec.getLsbD_extractLsb', BitVec.getLsbD_shiftLeft, BitVec.getLsbD_setWidth]
  obtain above | below := h
  · simp [BitVec.getLsbD_of_ge v (start + j - i) (by omega)]
  · simp [show start + j < i by omega]

/-- A bit outside a placed value is not set by it. -/
theorem placed_getLsbD_apart {w i j : Nat} (v : BitVec w) (h : j < i ∨ i + w ≤ j) :
    (v.setWidth 32 <<< i).getLsbD j = false := by
  rw [BitVec.getLsbD_shiftLeft, BitVec.getLsbD_setWidth]
  obtain below | above := h
  · simp [below]
  · simp [BitVec.getLsbD_of_ge v (j - i) (by omega)]

/-- A value placed at bit 0 is not shifted. -/
theorem placed_zero {w : Nat} (v : BitVec w) : v.setWidth 32 = v.setWidth 32 <<< 0 := (BitVec.shiftLeft_zero _).symm

/-! ### CTRL and STATUS -/

/-- CTRL keeps bits [1:0] of the word written, and reads them back with the rest 0 (10_state.md R36). -/
theorem ctrl_word_ofWord (v : Word) : (Ctrl.ofWord v).word = v &&& 3 := by
  apply BitVec.eq_of_getLsbD_eq
  intro i _
  rw [Ctrl.word, BitVec.getLsbD_or, bitWord_getLsbD _ (by decide), bitWord_getLsbD _ (by decide), BitVec.getLsbD_and]
  obtain rfl | rfl | hi : i = 0 ∨ i = 1 ∨ 2 ≤ i := by omega
  · simp [Ctrl.ofWord]
  · simp [Ctrl.ofWord]
  · have high : (3#32).getLsbD i = false := by
      rw [BitVec.getLsbD_ofNat, Nat.testBit_lt_two_pow (Nat.lt_of_lt_of_le (by decide) (Nat.pow_le_pow_right (by decide) hi)),
        Bool.and_false]
    simp [high, show i ≠ 0 by omega, show i ≠ 1 by omega]

theorem status_word_fields (t : Status) :
    t.word.getLsbD 0 = t.busy ∧ t.word.getLsbD 1 = t.done ∧ t.word.getLsbD 2 = t.err ∧ t.word.getLsbD 3 = t.wbusy ∧
      t.word.extractLsb' 4 4 = 0 ∧ t.word.extractLsb' 8 8 = t.errCode ∧ t.word.extractLsb' 16 8 = t.lastOp ∧
      t.word.extractLsb' 24 8 = 0 := by
  have bits (j : Nat) (hj : j < 8) : t.word.getLsbD j =
      (t.busy && decide (j = 0) || t.done && decide (j = 1) || t.err && decide (j = 2) || t.wbusy && decide (j = 3)) := by
    simp (disch := omega) only [Status.word, BitVec.getLsbD_or, bitWord_getLsbD, placed_getLsbD_apart, Bool.or_false]
  have fields (start len : Nat) (h : 4 ≤ start) : t.word.extractLsb' start len =
      (t.errCode.setWidth 32 <<< 8).extractLsb' start len ||| (t.lastOp.setWidth 32 <<< 16).extractLsb' start len := by
    simp (disch := omega) only [Status.word, BitVec.extractLsb'_or, extract_bitWord, BitVec.zero_or]
  refine ⟨(bits 0 (by decide)).trans ?_, (bits 1 (by decide)).trans ?_, (bits 2 (by decide)).trans ?_,
    (bits 3 (by decide)).trans ?_, (fields 4 4 (by decide)).trans ?_, (fields 8 8 (by decide)).trans ?_,
    (fields 16 8 (by decide)).trans ?_, (fields 24 8 (by decide)).trans ?_⟩
  case refine_6 => rw [extract_placed_self _ (by decide), extract_placed_apart _ (by decide), BitVec.or_zero]
  case refine_7 => rw [extract_placed_apart _ (by decide), extract_placed_self _ (by decide), BitVec.zero_or]
  case refine_5 | refine_8 => rw [extract_placed_apart _ (by decide), extract_placed_apart _ (by decide)]; rfl
  all_goals simp

/-! ### The registers -/

/-- Settles O5: the write of CMD is the accept of its word unless BUSY = 1, and CMD has no value to read. -/
theorem cmdWriteAcceptsOrIsDropped : Obligations.CmdWriteAcceptsOrIsDropped := by
  intro s v
  have write := busWrite_reg (s := s) (off := 0x00C) (r := .cmd) v (by decide)
  refine ⟨fun hidle => ?_, busRead_reg (r := .cmd) (by decide) (.inr rfl), fun hbusy => ?_⟩
  · rw [write, writePlace, unlessBusy_idle hidle]
    rfl
  · rw [write, writePlace, unlessBusy_busy hbusy]
    rfl

/-- Settles O10: the write of STATUS acknowledges, and its word has each field in its place. -/
theorem statusWordAndWrite : Obligations.StatusWordAndWrite := fun s v =>
  ⟨busWrite_reg (r := .status) v (by decide), s.status.word, busRead_reg (r := .status) (by decide) (.inr rfl),
    status_word_fields s.status⟩

/-- Settles O11: the registers are stored when idle and read back, and the writes are dropped when busy. -/
theorem ctrlKeepsTwoBits : Obligations.CtrlKeepsTwoBits := by
  intro s v
  have writeCtrl := busWrite_reg (s := s) (off := 0x008) (r := .ctrl) v (by decide)
  have writeSrcLen := busWrite_reg (s := s) (off := 0x018) (r := .srcLen) v (by decide)
  have readCtrl (t : State) := busRead_reg (s := t) (off := 0x008) (r := .ctrl) (by decide) (.inr rfl)
  have readSrcLen (t : State) := busRead_reg (s := t) (off := 0x018) (r := .srcLen) (by decide) (.inr rfl)
  rw [writeCtrl, writeSrcLen, readCtrl, readSrcLen, writePlace, writePlace]
  constructor
  · intro hidle
    rw [unlessBusy_idle hidle, unlessBusy_idle hidle]
    exact ⟨rfl, congrArg (Response.mk · false) (ctrl_word_ofWord v), rfl, rfl⟩
  · intro hbusy
    rw [unlessBusy_busy hbusy, unlessBusy_busy hbusy]
    exact ⟨rfl, rfl⟩

/-- Settles O12: the five registers are read-only and show constants of the configuration, whose capacities fit a word. -/
theorem identityAndParameterRegisters : Obligations.IdentityAndParameterRegisters := by
  intro s v hwf
  obtain ⟨-, hibuf, -, hobuf⟩ := (config_wf_iff s.cfg).mp hwf
  have fits {n : Nat} (h : n ≤ 1048576) : (BitVec.ofNat 32 n).toNat = n := by rw [BitVec.toNat_ofNat]; omega
  refine ⟨busRead_reg (r := .id) (by decide) (.inr rfl), busRead_reg (r := .version) (by decide) (.inr rfl),
    ⟨_, busRead_reg (r := .paramIbuf) (by decide) (.inr rfl), fits hibuf⟩,
    ⟨_, busRead_reg (r := .paramObuf) (by decide) (.inr rfl), fits hobuf⟩,
    busRead_reg (r := .paramDnodes) (by decide) (.inr rfl), fun off hoff => ?_⟩
  simp only [List.mem_cons, List.not_mem_nil, or_false] at hoff
  obtain rfl | rfl | rfl | rfl | rfl := hoff
  · exact busWrite_reg (r := .id) v (by decide)
  · exact busWrite_reg (r := .version) v (by decide)
  · exact busWrite_reg (r := .paramIbuf) v (by decide)
  · exact busWrite_reg (r := .paramObuf) v (by decide)
  · exact busWrite_reg (r := .paramDnodes) v (by decide)

end Sys2Proof.Machine
end

section
/-! SUPPORT. What reads show of the results, OBUF and the windows while idle (10_state.md R39 to R45, R50 to R56;
20_memory.md R101, R103, R109). -/

namespace Sys2Proof.Machine

open Sys2Proof

/-! ### The words of table entries -/

theorem codeLenWord_fields (e : CodeEntry) :
    (codeLenWord e).extractLsb' 0 8 = e.len ∧ (codeLenWord e).extractLsb' 8 23 = 0 ∧ (codeLenWord e).getLsbD 31 = e.valid := by
  rw [codeLenWord, placed_zero]
  refine ⟨?_, ?_, ?_⟩
  · rw [BitVec.extractLsb'_or, extract_placed_self _ (by decide), extract_bitWord _ (by decide) (by decide), BitVec.or_zero]
  · rw [BitVec.extractLsb'_or, extract_placed_apart _ (by decide), extract_bitWord _ (by decide) (by decide)]
    rfl
  · rw [BitVec.getLsbD_or, placed_getLsbD_apart _ (by decide), bitWord_getLsbD _ (by decide)]
    simp

theorem codeBitsWord_getLsbD (e : CodeEntry) (x : Nat) {j : Nat} (hj : j < 32) :
    (codeBitsWord e x).getLsbD j = e.bits.getLsbD (32 * x + j) := by
  rw [codeBitsWord, BitVec.getLsbD_extractLsb', decide_eq_true hj, Bool.true_and]

theorem enodeWord_zero_fields (e : ENode) :
    (enodeWord e 0).getLsbD 0 = e.valid ∧ (enodeWord e 0).getLsbD 1 = e.leaf ∧ (enodeWord e 0).extractLsb' 2 6 = 0 ∧
      (enodeWord e 0).extractLsb' 8 8 = e.sym ∧ (enodeWord e 0).extractLsb' 16 16 = 0 := by
  have bits (j : Nat) (hj : j < 8) :
      (enodeWord e 0).getLsbD j = (e.valid && decide (j = 0) || e.leaf && decide (j = 1)) := by
    simp (disch := omega) only [enodeWord, BitVec.getLsbD_or, bitWord_getLsbD, placed_getLsbD_apart, Bool.or_false]
  have fields (start len : Nat) (h : 2 ≤ start) :
      (enodeWord e 0).extractLsb' start len = (e.sym.setWidth 32 <<< 8).extractLsb' start len := by
    simp (disch := omega) only [enodeWord, BitVec.extractLsb'_or, extract_bitWord, BitVec.zero_or]
  refine ⟨(bits 0 (by decide)).trans ?_, (bits 1 (by decide)).trans ?_, (fields 2 6 (by decide)).trans ?_,
    (fields 8 8 (by decide)).trans ?_, (fields 16 16 (by decide)).trans ?_⟩
  case refine_3 | refine_5 => exact extract_placed_apart _ (by decide)
  case refine_4 => exact extract_placed_self _ (by decide)
  all_goals simp

/-- A word of two links: one in its low half and one in its high half, the rest of each half 0. -/
theorem linkWord_fields {w : Nat} (hw : w ≤ 16) (l r : BitVec w) :
    (l.setWidth 32 ||| (r.setWidth 32 <<< 16)).extractLsb' 0 w = l ∧
      (l.setWidth 32 ||| (r.setWidth 32 <<< 16)).extractLsb' w (16 - w) = 0 ∧
      (l.setWidth 32 ||| (r.setWidth 32 <<< 16)).extractLsb' 16 w = r ∧
      (l.setWidth 32 ||| (r.setWidth 32 <<< 16)).extractLsb' (16 + w) (16 - w) = 0 := by
  rw [placed_zero l]
  simp only [BitVec.extractLsb'_or]
  refine ⟨?_, ?_, ?_, ?_⟩
  · rw [extract_placed_self _ (by omega), extract_placed_apart _ (by omega), BitVec.or_zero]
  · rw [extract_placed_apart _ (by omega), extract_placed_apart _ (by omega)]
    exact BitVec.or_zero
  · rw [extract_placed_apart _ (by omega), extract_placed_self _ (by omega), BitVec.zero_or]
  · rw [extract_placed_apart _ (by omega), extract_placed_apart _ (by omega)]
    exact BitVec.or_zero

theorem dnodeWord_zero_fields (e : DNode) :
    (dnodeWord e 0).extractLsb' 0 2 = e.kind.field ∧ (dnodeWord e 0).extractLsb' 2 6 = 0 ∧
      (dnodeWord e 0).extractLsb' 8 8 = e.sym ∧ (dnodeWord e 0).extractLsb' 16 16 = 0 := by
  rw [dnodeWord, placed_zero e.kind.field]
  simp only [BitVec.extractLsb'_or]
  refine ⟨?_, ?_, ?_, ?_⟩
  · rw [extract_placed_self _ (by decide), extract_placed_apart _ (by decide), BitVec.or_zero]
  · rw [extract_placed_apart _ (by decide), extract_placed_apart _ (by decide)]
    rfl
  · rw [extract_placed_apart _ (by decide), extract_placed_self _ (by decide), BitVec.zero_or]
  · rw [extract_placed_apart _ (by decide), extract_placed_apart _ (by decide)]
    rfl

/-! ### The words of the windows (20_memory.md R101) -/

theorem wordPlace_freq {i : Nat} (hi : i < 256) : wordPlace (0x1000 + 4 * i) = some (.freq i) := by
  have index : (0x1000 + 4 * i - 0x1000) / 4 = i := by omega
  rw [wordPlace, if_neg (by omega), if_pos (by omega), index]

theorem wordPlace_codeLen {i : Nat} (hi : i < 256) : wordPlace (0x1400 + 4 * i) = some (.codeLen i) := by
  have index : (0x1400 + 4 * i - 0x1400) / 4 = i := by omega
  rw [wordPlace, if_neg (by omega), if_neg (by omega), if_pos (by omega), index]

theorem wordPlace_codeBits {i x : Nat} (hi : i < 256) (hx : x < 8) :
    wordPlace (0x2000 + 32 * i + 4 * x) = some (.codeBits i x) := by
  have index : (0x2000 + 32 * i + 4 * x - 0x2000) / 32 = i := by omega
  have word : (0x2000 + 32 * i + 4 * x - 0x2000) / 4 % 8 = x := by omega
  rw [wordPlace, if_neg (by omega), if_neg (by omega), if_neg (by omega), if_neg (by omega), if_pos (by omega), index, word]

theorem wordPlace_enode {i x : Nat} (hi : i < 511) (hx : x < 4) :
    wordPlace (0x4000 + 16 * i + 4 * x) = some (.enode i x) := by
  have index : (0x4000 + 16 * i + 4 * x - 0x4000) / 16 = i := by omega
  have word : (0x4000 + 16 * i + 4 * x - 0x4000) / 4 % 4 = x := by omega
  rw [wordPlace, if_neg (by omega), if_neg (by omega), if_neg (by omega), if_neg (by omega), if_neg (by omega),
    if_pos (by omega), index, word]

theorem wordPlace_dnode {i x : Nat} (hi : i < 511) (hx : x < 2) :
    wordPlace (0x6000 + 8 * i + 4 * x) = some (.dnode i x) := by
  have index : (0x6000 + 8 * i + 4 * x - 0x6000) / 8 = i := by omega
  have word : (0x6000 + 8 * i + 4 * x - 0x6000) / 4 % 2 = x := by omega
  rw [wordPlace, if_neg (by omega), if_neg (by omega), if_neg (by omega), if_neg (by omega), if_neg (by omega),
    if_neg (by omega), if_neg (by omega), if_pos (by omega), index, word]

/-- An idle read of an aligned word of the map shows its place. -/
theorem busRead_word {s : State} (hidle : s.status.busy = false) {off : Nat} {p : Place} (halign : off % 4 = 0)
    (hlow : off < 0x100000) (h : wordPlace off = some p) :
    busRead .word (BitVec.ofNat 32 off) s = (⟨readPlace s 4 p, false⟩, s) := by
  have hoff : (BitVec.ofNat 32 off).toNat = off := by rw [BitVec.toNat_ofNat]; omega
  exact busRead_of_access (access_word s.cfg (by rwa [hoff]) (by rwa [hoff]) (by rwa [hoff])) (.inl hidle)

/-! ### Bytes of a buffer (20_memory.md R103) -/

/-- Byte `j` of the little-endian value of a byte sequence. -/
theorem leNat_div_mod {bs : List Byte} {j : Nat} (hj : j < bs.length) : leNat bs / 256 ^ j % 256 = bs[j].toNat := by
  induction bs generalizing j with
  | nil => cases hj
  | cons b bs ih =>
    have hb := b.isLt
    cases j with
    | zero =>
      simp only [leNat, Nat.pow_zero, Nat.div_one, List.getElem_cons_zero]
      omega
    | succ j =>
      have rest : leNat (b :: bs) / 256 ^ (j + 1) = leNat bs / 256 ^ j := by
        have low : (b.toNat + 256 * leNat bs) / 256 = leNat bs := by omega
        rw [leNat, Nat.pow_succ', ← Nat.div_div_eq_div_mul, low]
      rw [rest, List.getElem_cons_succ, ih (Nat.lt_of_succ_lt_succ hj)]

theorem readBytes_toNat (m : Memory) (k : Nat) {n : Nat} (hn : n ≤ 4) :
    (readBytes m k n).toNat = leNat ((List.range n).map fun j => m.read (k + j)) ∧ (readBytes m k n).toNat < 256 ^ n := by
  have small := leNat_lt ((List.range n).map fun j => m.read (k + j))
  rw [List.length_map, List.length_range] at small
  have fits : 256 ^ n ≤ 2 ^ 32 := Nat.pow_le_pow_right (by decide : 0 < 256) hn
  have value : (readBytes m k n).toNat = leNat ((List.range n).map fun j => m.read (k + j)) := by
    rw [readBytes, BitVec.toNat_ofNat, Nat.mod_eq_of_lt (Nat.lt_of_lt_of_le small fits)]
  exact ⟨value, value ▸ small⟩

theorem readBytes_extract (m : Memory) (k : Nat) {n j : Nat} (hn : n ≤ 4) (hj : j < n) :
    (readBytes m k n).extractLsb' (8 * j) 8 = m.read (k + j) := by
  have byte := leNat_div_mod (bs := (List.range n).map fun j => m.read (k + j)) (j := j) (by simpa using hj)
  apply BitVec.eq_of_toNat_eq
  rw [BitVec.extractLsb'_toNat, (readBytes_toNat m k hn).1, Nat.shiftRight_eq_div_pow, Nat.pow_mul]
  simpa using byte

/-- An idle read of bytes inside OBUF shows them (20_memory.md R106, R109). -/
theorem busRead_obuf {s : State} (hwf : s.cfg.wf = true) (hidle : s.status.busy = false) {size : AccessSize} {n k : Nat}
    (hsize : size.bytes = some n) (halign : k % n = 0) (hk : k + n ≤ s.cfg.obufBytes) :
    busRead size (BitVec.ofNat 32 (0x200000 + k)) s = (⟨readBytes s.obuf k n, false⟩, s) := by
  obtain ⟨-, hibuf, -, hobuf⟩ := (config_wf_iff s.cfg).mp hwf
  have hn := accessSize_bytes_cases hsize
  have hoff : (BitVec.ofNat 32 (0x200000 + k)).toNat = 0x200000 + k := by rw [BitVec.toNat_ofNat]; omega
  have aligned : (0x200000 + k) % n = 0 := by obtain rfl | rfl | rfl := hn <;> omega
  have place : placeAt s.cfg n (0x200000 + k) = some (.obuf k) := by
    have index : 0x200000 + k - 0x200000 = k := by omega
    rw [placeAt, if_neg (not_not.mpr aligned), if_neg (by omega), if_neg (by omega), if_pos (by omega), index, if_pos hk]
  exact busRead_of_access (by rw [access_of_bytes _ hsize, hoff, place, Option.map_some]) (.inl hidle)

/-! ### The results and the windows -/

/-- An idle read of a narrow result register is its value, zero-extended (10_state.md R43 to R45). -/
theorem busRead_resultRegister {s : State} (hidle : s.status.busy = false) {off : Word} {n : Nat}
    (h : (off, n) ∈ [((0x024 : Word), (List.range 256).countP fun b => decide (freqAt s.freq (BitVec.ofNat 8 b) ≠ 0)),
      (0x028, s.encNodes.toNat), (0x02C, s.encRoot.toNat), (0x030, s.decNcodes.toNat), (0x034, s.decNodes.toNat),
      (0x038, s.decPayloadOff.toNat), (0x03C, s.decValid.toNat)]) :
    ∃ w, busRead .word off s = (⟨w, false⟩, s) ∧ w.toNat = n := by
  have read {off : Word} (r : Reg) (hr : (off.toNat, r) ∈ registerMap) := busRead_reg (s := s) hr (.inl hidle)
  have extended {w : Nat} (v : BitVec w) (hw : w ≤ 32) : (v.setWidth 32).toNat = v.toNat :=
    BitVec.toNat_setWidth_of_le hw
  simp only [List.mem_cons, List.not_mem_nil, or_false, Prod.mk.injEq] at h
  obtain ⟨rfl, rfl⟩ | ⟨rfl, rfl⟩ | ⟨rfl, rfl⟩ | ⟨rfl, rfl⟩ | ⟨rfl, rfl⟩ | ⟨rfl, rfl⟩ | ⟨rfl, rfl⟩ := h
  · refine ⟨_, read .encNsym (by decide), ?_⟩
    have few := encNsym_le s.freq
    rw [← encNsym_eq_countP, readReg, BitVec.toNat_ofNat]
    omega
  · exact ⟨_, read .encNodes (by decide), extended _ (by decide)⟩
  · exact ⟨_, read .encRoot (by decide), extended _ (by decide)⟩
  · exact ⟨_, read .decNcodes (by decide), extended _ (by decide)⟩
  · exact ⟨_, read .decNodes (by decide), extended _ (by decide)⟩
  · exact ⟨_, read .decPayloadOff (by decide), rfl⟩
  · refine ⟨_, read .decStatus (by decide), ?_⟩
    rw [readReg]
    cases s.decValid <;> rfl

/-- An idle read of word `x` of an ENODE entry shows that word (10_state.md R54). -/
theorem busRead_enode {s : State} (hidle : s.status.busy = false) {i x : Nat} (hi : i < 511) (hx : x < 4) :
    (busRead .word (BitVec.ofNat 32 (0x4000 + 16 * i + 4 * x)) s).1 = ⟨enodeWord (enodeAt s.enode i) x, false⟩ :=
  congrArg Prod.fst (busRead_word hidle (by omega) (by omega) (wordPlace_enode hi hx))

/-- An idle read of word `x` of a DNODE entry shows that word (10_state.md R56). -/
theorem busRead_dnode {s : State} (hidle : s.status.busy = false) {i x : Nat} (hi : i < 511) (hx : x < 2) :
    (busRead .word (BitVec.ofNat 32 (0x6000 + 8 * i + 4 * x)) s).1 =
      ⟨dnodeWord (s.dnode.get i DNode.cleared) x, false⟩ :=
  congrArg Prod.fst (busRead_word hidle (by omega) (by omega) (wordPlace_dnode hi hx))

/-- Settles O14: an idle read shows the word of its place, whose fields are those of the entry it is made from. -/
theorem windowsShowTheTables : Obligations.WindowsShowTheTables := by
  intro s
  refine ⟨busRead_reg (r := .errInfo) (by decide) (.inr rfl), busRead_reg (r := .srcLen) (by decide) (.inr rfl),
    fun hidle => ⟨busRead_reg (r := .dstLen) (by decide) (.inl hidle),
      busRead_reg (r := .payloadBits) (by decide) (.inl hidle), fun off n h => busRead_resultRegister hidle h,
      ?obuf, ?freq, ?codeLen, ?codeBits, ?enode, ?dnode⟩⟩
  case obuf =>
    intro size n k hwf hsize halign hk
    have hn : n ≤ 4 := by
      obtain rfl | rfl | rfl := accessSize_bytes_cases hsize <;> decide
    exact ⟨_, busRead_obuf hwf hidle hsize halign hk, fun j hj => readBytes_extract _ _ hn hj, (readBytes_toNat _ _ hn).2⟩
  case freq =>
    intro b
    have hb := b.isLt
    exact congrArg Prod.fst (busRead_word hidle (by omega) (by omega) (wordPlace_freq hb))
  case codeLen =>
    intro b
    have hb := b.isLt
    exact ⟨_, congrArg Prod.fst (busRead_word hidle (by omega) (by omega) (wordPlace_codeLen hb)), codeLenWord_fields _⟩
  case codeBits =>
    intro b x hx
    have hb := b.isLt
    exact ⟨_, congrArg Prod.fst (busRead_word hidle (by omega) (by omega) (wordPlace_codeBits hb hx)),
      fun j hj => codeBitsWord_getLsbD _ x hj⟩
  case enode =>
    intro i hi
    have links := linkWord_fields (w := 9) (by decide) (enodeAt s.enode i).left (enodeAt s.enode i).right
    exact ⟨⟨_, busRead_enode hidle hi (x := 0) (by decide), enodeWord_zero_fields _⟩,
      ⟨_, busRead_enode hidle hi (x := 1) (by decide), links⟩, busRead_enode hidle hi (x := 2) (by decide),
      busRead_enode hidle hi (x := 3) (by decide)⟩
  case dnode =>
    intro i hi
    have word := dnodeWord_zero_fields (s.dnode.get i DNode.cleared)
    obtain ⟨hkind, hrest⟩ := word
    obtain ⟨left, -, right, -⟩ := linkWord_fields (w := 16) (by decide) (s.dnode.get i DNode.cleared).left
      (s.dnode.get i DNode.cleared).right
    refine ⟨⟨_, busRead_dnode hidle hi (x := 0) (by decide), hkind.trans ?_, hrest⟩,
      ⟨_, busRead_dnode hidle hi (x := 1) (by decide), left, right⟩⟩
    cases (s.dnode.get i DNode.cleared).kind <;> rfl

end Sys2Proof.Machine
end

section
/-! SUPPORT. Which accesses are bus errors, and what transactions inside IBUF do (20_memory.md R101 to R114, 60_exceptions.md
R408). -/

namespace Sys2Proof.Machine

open Sys2Proof

/-- Settles O9: a read ends in the state it began in, or has drawn one free value. -/
theorem readsHaveNoSideEffect : Obligations.ReadsHaveNoSideEffect := by
  intro s size off
  obtain ⟨-, h⟩ | ⟨n, p, -, ⟨-, -, h⟩ | ⟨-, h⟩⟩ := busRead_cases size off s <;> rw [h]

/-! ### Bus errors -/

theorem registerMap_below : ∀ e ∈ registerMap, e.1 ≤ 0x48 := by decide

/-- The four bytes of a word that the map has below 0x0010_0000 are mapped (20_memory.md R101). -/
theorem mappedByte_of_wordPlace {c : Config} {off j : Nat} {p : Place} (halign : off % 4 = 0)
    (h : wordPlace off = some p) (hj : j < 4) : MappedByte c (off + j) := by
  by_cases hreg : off < 0x1000
  · obtain ⟨r, -, hmem⟩ := wordPlace_low hreg h
    have below : off ≤ 0x48 := registerMap_below _ hmem
    exact .inl (by omega)
  · unfold wordPlace at h
    split_ifs at h <;> simp only [MappedByte] <;> omega

/-- An access that reaches something is legal: the converse of `placeAt_of_legal`. -/
theorem legal_of_placeAt {c : Config} {n off : Nat} {p : Place} (h : placeAt c n off = some p) : LegalAccess c n off := by
  unfold placeAt at h
  split_ifs at h with halign hlow hword hmid hibuf hhigh hobuf
  · subst hword
    have aligned : off % 4 = 0 := not_not.mp halign
    exact ⟨aligned, fun _ => rfl, fun j hj => mappedByte_of_wordPlace aligned h hj⟩
  · exact ⟨not_not.mp halign, fun h => absurd h hlow, fun j hj => by simp only [MappedByte]; omega⟩
  · exact ⟨not_not.mp halign, fun h => absurd h hlow, fun j hj => by simp only [MappedByte]; omega⟩

/-- An access reaches something exactly when its size has bytes and they are legal (20_memory.md R104 to R106). -/
theorem access_isSome_iff {c : Config} (hwf : c.wf = true) (size : AccessSize) (off : Word) :
    (access c size off).isSome = true ↔ ∃ n, size.bytes = some n ∧ LegalAccess c n off.toNat := by
  constructor
  · intro h
    obtain ⟨⟨n, p⟩, haccess⟩ := Option.isSome_iff_exists.mp h
    obtain ⟨hsize, hplace⟩ := access_eq_some haccess
    exact ⟨n, hsize, legal_of_placeAt hplace⟩
  · rintro ⟨n, hsize, hlegal⟩
    rw [access_of_bytes c hsize, Option.isSome_map]
    obtain ⟨-, p, hplace, -⟩ | ⟨-, -, hplace⟩ | ⟨-, hplace⟩ :=
      placeAt_of_legal hwf (accessSize_bytes_cases hsize) hlegal <;> rw [hplace] <;> rfl

/-- Settles O7: a transaction is a bus error exactly when its access reaches nothing. -/
theorem busErrorsExactly : Obligations.BusErrorsExactly := by
  intro s size off v hwf
  rw [← access_isSome_iff hwf size off]
  obtain ⟨hnone, hwrite⟩ | ⟨n, p, hsome, hwrite⟩ := busWrite_cases size off v s
  · exact ⟨fun _ => ⟨busRead_of_no_access hnone, hwrite⟩, fun h => by simp [hnone] at h⟩
  · refine ⟨fun h => by simp [hsome] at h, fun _ => ⟨?_, by rw [hwrite]⟩⟩
    obtain ⟨hnone, -⟩ | ⟨_, _, -, ⟨-, -, hread⟩ | ⟨-, hread⟩⟩ := busRead_cases size off s
    · cases hsome.symm.trans hnone
    all_goals rw [hread]

/-! ### IBUF (20_memory.md R103, R108) -/

/-- An aligned access inside IBUF reaches its bytes (20_memory.md R101, R104, R106). -/
theorem access_ibuf {c : Config} (hwf : c.wf = true) {size : AccessSize} {n k : Nat} (hsize : size.bytes = some n)
    (halign : k % n = 0) (hk : k + n ≤ c.ibufBytes) :
    access c size (BitVec.ofNat 32 (0x100000 + k)) = some (n, .ibuf k) := by
  obtain ⟨-, hibuf, -, -⟩ := (config_wf_iff c).mp hwf
  have hn := accessSize_bytes_cases hsize
  have hoff : (BitVec.ofNat 32 (0x100000 + k)).toNat = 0x100000 + k := by rw [BitVec.toNat_ofNat]; omega
  have aligned : (0x100000 + k) % n = 0 := by obtain rfl | rfl | rfl := hn <;> omega
  have index : 0x100000 + k - 0x100000 = k := by omega
  rw [access_of_bytes c hsize, hoff, placeAt, if_neg (not_not.mpr aligned), if_neg (by omega), if_pos (by omega), index,
    if_pos hk, Option.map_some]

/-- A read of bytes inside IBUF shows them, busy or idle (20_memory.md R108). -/
theorem busRead_ibuf {s : State} (hwf : s.cfg.wf = true) {size : AccessSize} {n k : Nat} (hsize : size.bytes = some n)
    (halign : k % n = 0) (hk : k + n ≤ s.cfg.ibufBytes) :
    busRead size (BitVec.ofNat 32 (0x100000 + k)) s = (⟨readBytes s.ibuf k n, false⟩, s) :=
  busRead_of_access (access_ibuf hwf hsize halign hk) (.inr rfl)

/-- Byte `j` of the little-endian bytes of a number. -/
theorem leBytes_getElem {n w j : Nat} (hj : j < (leBytes n w).length) :
    (leBytes n w)[j] = BitVec.ofNat 8 (w / 256 ^ j) := by
  induction n generalizing w j with
  | zero => cases hj
  | succ n ih =>
    cases j with
    | zero => simp [leBytes]
    | succ j =>
      rw [Nat.pow_succ', ← Nat.div_div_eq_div_mul]
      exact ih _

/-- The byte of a word that its write stores at index `k + j` (20_memory.md R103). -/
theorem read_writeBytes_word (m : Memory) (k : Nat) (v : Word) {n j : Nat} (hj : j < n) :
    (m.writeBytes k (leBytes n v.toNat)).read (k + j) = v.extractLsb' (8 * j) 8 := by
  have inside : j < (leBytes n v.toNat).length := by rwa [leBytes_length]
  rw [Memory.read_writeBytes_inside _ _ _ _ inside, leBytes_getElem inside, BitVec.extractLsb', Nat.shiftRight_eq_div_pow,
    Nat.pow_mul]

/-- Bytes written are read back (20_memory.md R103). -/
theorem readBytes_writeBytes (m : Memory) (k n w : Nat) :
    readBytes (m.writeBytes k (leBytes n w)) k n = BitVec.ofNat 32 (w % 256 ^ n) := by
  have bytes : ((List.range n).map fun j => (m.writeBytes k (leBytes n w)).read (k + j)) = leBytes n w := by
    apply List.ext_getElem
    · simp
    · intro j _ hj
      simpa using Memory.read_writeBytes_inside _ _ _ _ hj
  rw [readBytes, bytes, leNat_leBytes]

/-- Settles O13: an idle write stores the bytes that it reads back, a busy one is dropped, and IBUF is read at any time. -/
theorem ibufWriteAndReadBack : Obligations.IbufWriteAndReadBack := by
  intro s size n k v hwf hsize halign hk off
  have write := busWrite_of_access (v := v) (access_ibuf hwf hsize halign hk)
  have read (b : Memory) := busRead_ibuf (s := { s with ibuf := b }) hwf hsize halign hk
  refine ⟨fun hidle => ?_, fun hbusy => ?_, ?_⟩
  · rw [write, writePlace, unlessBusy_idle hidle]
    refine ⟨_, rfl, rfl, fun j hj => read_writeBytes_word _ _ _ hj, fun a ha => ?_, ?_⟩
    · exact Memory.read_writeBytes_outside _ _ _ _ (by rwa [leBytes_length])
    · rw [read, readBytes_writeBytes]
  · rw [write, writePlace, unlessBusy_busy hbusy]
    rfl
  · have hn : n ≤ 4 := by
      obtain rfl | rfl | rfl := accessSize_bytes_cases hsize <;> decide
    exact ⟨_, read s.ibuf, fun j hj => readBytes_extract _ _ hn hj, (readBytes_toNat _ _ hn).2⟩

end Sys2Proof.Machine
end

section
/-! SUPPORT. What the host and the commands leave alone: the pending command while BUSY = 1 (20_memory.md R111, R119), and
the operands of every command (20_memory.md R113, R115; 30_encoding.md R146). -/

namespace Sys2Proof.Machine

open Sys2Proof

/-! ### The host while BUSY = 1 -/

/-- `t` is `s` but for the host, the draws, and STATUS, of which BUSY = 1, ERR_CODE and LAST_OP are those of `s`. -/
def KeepsPendingCommand (s t : State) : Prop :=
  ∃ st h d, t = { s with status := st, host := h, draws := d } ∧ st.busy = true ∧
    st.errCode = s.status.errCode ∧ st.lastOp = s.status.lastOp

theorem KeepsPendingCommand.withHost {s t : State} (h : KeepsPendingCommand s t) (a : HostAgent) :
    KeepsPendingCommand s { t with host := a } := by
  obtain ⟨st, -, d, rfl, hst⟩ := h
  exact ⟨st, a, d, rfl, hst⟩

section
variable {s : State} (hbusy : s.status.busy = true)
include hbusy

theorem KeepsPendingCommand.refl : KeepsPendingCommand s s := ⟨s.status, s.host, s.draws, rfl, hbusy, rfl, rfl⟩

theorem busRead_keepsPendingCommand (size : AccessSize) (off : Word) : KeepsPendingCommand s (busRead size off s).2 := by
  obtain ⟨-, h⟩ | ⟨n, p, -, ⟨-, -, h⟩ | ⟨-, h⟩⟩ := busRead_cases size off s <;> rw [h]
  · exact .refl hbusy
  · exact ⟨s.status, s.host, s.draws + 1, rfl, hbusy, rfl, rfl⟩
  · exact .refl hbusy

theorem busWrite_keepsPendingCommand (size : AccessSize) (off v : Word) :
    KeepsPendingCommand s (busWrite size off v s).2 := by
  obtain ⟨-, h⟩ | ⟨n, p, -, h⟩ := busWrite_cases size off v s <;> rw [h]
  · exact .refl hbusy
  · obtain h | h | h := writePlace_busy hbusy n v p <;> rw [h]
    · exact ⟨(acknowledge v s).status, s.host, s.draws, rfl, hbusy, rfl, rfl⟩
    · exact ⟨(dropWrite s).status, s.host, s.draws, rfl, hbusy, rfl, rfl⟩
    · exact .refl hbusy

theorem hostStep_keepsPendingCommand : KeepsPendingCommand s (hostStep s) := by
  unfold hostStep
  split
  · exact .refl hbusy
  · next op _ =>
    cases op with
    | write size off v => exact (busWrite_keepsPendingCommand hbusy size off _).withHost _
    | read size off x => exact (busRead_keepsPendingCommand hbusy size off).withHost _
    | branchZero x mask target => exact (KeepsPendingCommand.refl hbusy).withHost _
    | branchNonZero x mask target => exact (KeepsPendingCommand.refl hbusy).withHost _

end

/-- Settles O16: while BUSY = 1 a transaction can change only STATUS and the draws, and the rest of a line only the host. -/
theorem hostStepsKeepPendingCommand : Obligations.HostStepsKeepPendingCommand :=
  fun _ hbusy => hostStep_keepsPendingCommand hbusy

/-! ### The operands of the commands -/

/-- What no command changes: CTRL, SRC_LEN and IBUF, and of the model's own fields the parameters, the host and
the agenda. -/
def operands (s : State) : Ctrl × Word × Memory × Config × HostAgent × List Turn :=
  (s.ctrl, s.srcLen, s.ibuf, s.cfg, s.host, s.agenda)

theorem sameOperands_of_operands {s t : State} (h : operands t = operands s) : SameOperands s t := by
  simp only [operands, Prod.mk.injEq] at h
  obtain ⟨hctrl, hsrcLen, hibuf, hcfg, hhost, hagenda⟩ := h
  exact ⟨hctrl, hsrcLen, fun k => by rw [hibuf], hcfg, hhost, hagenda⟩

theorem WritesOutput.operands_eq {s t : State} (h : WritesOutput s t) : operands t = operands s := by
  obtain ⟨frame, -, -⟩ := h
  exact (congrArg operands frame).trans rfl

theorem WritesDecoder.operands_eq {s t : State} (h : WritesDecoder s t) : operands t = operands s :=
  (congrArg operands h).trans rfl

theorem countBody_operands (s : State) : operands (countBody s).state = operands s := by
  obtain ⟨-, h⟩ | h := countBody_state_cases s
  · exact (congrArg operands h).trans rfl
  · exact congrArg operands h

theorem buildBody_operands (s : State) : operands (buildBody s).state = operands s := by
  obtain ⟨n, r, w, h⟩ | h := buildBody_state_cases s
  · exact (congrArg operands h).trans rfl
  · exact congrArg operands h

theorem gencodesBody_operands (s : State) : operands (gencodesBody s).state = operands s := by
  obtain h | h := gencodesBody_state_cases s
  · exact (congrArg operands h).trans rfl
  · exact congrArg operands h

/-- A sequence of two bodies keeps what each of them keeps. -/
theorem andThen_operands {s : State} {r : BodyEnd} {f : State → BodyEnd} (hr : operands r.state = operands s)
    (hf : ∀ u, operands (f u).state = operands u) : operands (r.andThen f).state = operands s :=
  andThen_state (P := fun u => operands u = operands s) hr fun u hu => (hf u).trans hu

theorem encodeTables_operands (s : State) : operands (encodeTables s).state = operands s := by
  unfold encodeTables
  split
  · rfl
  · exact andThen_operands (buildBody_operands s) gencodesBody_operands

theorem encodeBody_operands (s : State) : operands (encodeBody s).state = operands s := by
  unfold encodeBody
  split
  · exact andThen_operands (andThen_operands (countBody_operands s) encodeTables_operands)
      fun u => (emitBody_writesOutput u).operands_eq
  · exact (raiseOutput_writesOutput s _ _).operands_eq

theorem decodeBody_operands (s : State) : operands (decodeBody s).state = operands s := by
  have rebuilt := (rebuildBody_writesDecoder s).operands_eq
  unfold decodeBody
  cases hr : rebuildBody s with
  | ok t =>
    rw [hr] at rebuilt
    exact (walkBody_writesOutput t).operands_eq.trans rebuilt
  | raised t e =>
    rw [hr] at rebuilt
    exact (raiseOutput_writesOutput t _ _).operands_eq.trans rebuilt

theorem commandBody_operands (i : Instr) (s : State) : operands (commandBody i s).state = operands s := by
  cases i with
  | nop => rfl
  | clear => rfl
  | encode => exact encodeBody_operands s
  | count => exact countBody_operands s
  | build => exact buildBody_operands s
  | gencodes => exact gencodesBody_operands s
  | emit => exact (emitBody_writesOutput s).operands_eq
  | decode => exact decodeBody_operands s
  | rebuild => exact (rebuildBody_writesDecoder s).operands_eq
  | walk => exact (walkBody_writesOutput s).operands_eq

/-- Settles O21: neither the body of a command nor its completion changes an operand. -/
theorem commandsKeepTheirOperands : Obligations.CommandsKeepTheirOperands := by
  intro i s t ht
  have body := commandBody_operands i s
  rw [exec_eq_complete] at ht
  apply sameOperands_of_operands
  obtain ⟨u, hu, rfl⟩ | ⟨u, e, hu, rfl⟩ := complete_cases ht <;> rw [hu] at body <;> exact body

end Sys2Proof.Machine
end

section
/-! SUPPORT. Command words and their decoding (30_encoding.md R141 to R143). -/

namespace Sys2Proof

/-- A word is its RSVD field above its OP field (30_encoding.md R141). -/
theorem rsvdField_append_opField (v : Word) : rsvdField v ++ opField v = v := by
  have joined : v.extractLsb' 8 24 ++ v.extractLsb' 0 8 = v.extractLsb' 0 (24 + 8) :=
    BitVec.extractLsb'_append_extractLsb'_eq_extractLsb' rfl
  exact joined.trans BitVec.extractLsb'_eq_self

theorem opField_encode (i : Instr) : opField (encode i) = opcode i := by cases i <;> decide

theorem rsvdField_encode (i : Instr) : rsvdField (encode i) = 0 := by cases i <;> decide

/-- The opcode map has each command at its own opcode. -/
theorem opcodeMap_lookup_opcode (i : Instr) : opcodeMap.lookup (opcode i) = some i := by cases i <;> decide

theorem opcode_of_mem : ∀ e ∈ opcodeMap, opcode e.2 = e.1 := by decide

theorem opcode_of_lookup {op : Byte} {i : Instr} (h : opcodeMap.lookup op = some i) : opcode i = op := by
  obtain ⟨before, after, hmap, -⟩ := List.lookup_eq_some_iff.mp h
  exact opcode_of_mem (op, i) (by simp [hmap])

theorem decode_encode (i : Instr) : decode (encode i) = .ok i := by
  simp [decode, rsvdField_encode, opField_encode, opcodeMap_lookup_opcode]

/-- What a word that decodes to a command is made of. -/
theorem decode_ok {v : Word} {i : Instr} (h : decode v = .ok i) : rsvdField v = 0 ∧ opField v = opcode i := by
  unfold decode at h
  split at h
  · cases h
  · next rsvd =>
    split at h
    · next j hj =>
      cases h
      exact ⟨not_not.mp rsvd, (opcode_of_lookup hj).symm⟩
    · cases h

end Sys2Proof

namespace Sys2Proof.Machine

open Sys2Proof

/-- Settles O2: a word is its two fields, and the opcode map is one to one. -/
theorem decodeMatchesWholeWord : Obligations.DecodeMatchesWholeWord := by
  intro i v
  constructor
  · intro h
    obtain ⟨rsvd, op⟩ := decode_ok h
    rw [← rsvdField_append_opField v, rsvd, op, encode]
  · rintro rfl
    exact decode_encode i

/-- Settles O1: each of the words is the encoding of its command. -/
theorem assignedWordsDecode : Obligations.AssignedWordsDecode :=
  ⟨decode_encode .nop, decode_encode .clear, decode_encode .encode, decode_encode .count, decode_encode .build,
    decode_encode .gencodes, decode_encode .emit, decode_encode .decode, decode_encode .rebuild, decode_encode .walk⟩

end Sys2Proof.Machine
end

section
/-! SUPPORT. One host step is one line of the host program (30_encoding.md R147). -/

namespace Sys2Proof.Machine

open Sys2Proof

theorem hostStep_of_line {s : State} {op : HostOp} (h : s.host.program[s.host.line]? = some op) :
    hostStep s = hostLine op s := by
  simp [hostStep, h]

theorem lookup_setName_self (names : List (Nat × Word)) (x : Nat) (v : Word) : (setName names x v).lookup x = some v := by
  induction names with
  | nil => simp [setName]
  | cons p rest ih =>
    obtain ⟨z, w⟩ := p
    simp only [setName]
    split
    · simp
    · next hz => simp [List.lookup_cons, ih, beq_false_of_ne (Ne.symm hz)]

theorem lookup_setName_ne (names : List (Nat × Word)) {x y : Nat} (v : Word) (h : y ≠ x) :
    (setName names x v).lookup y = names.lookup y := by
  induction names with
  | nil => simp [setName, List.lookup_cons, beq_false_of_ne h]
  | cons p rest ih =>
    obtain ⟨z, w⟩ := p
    simp only [setName]
    split
    · next hz =>
      obtain rfl : z = x := hz
      simp [List.lookup_cons, beq_false_of_ne h]
    · simp [List.lookup_cons, ih]

theorem nameValue_of_lookup {names : List (Nat × Word)} {x : Nat} {w : Word} (h : names.lookup x = some w) :
    nameValue names x = w := by
  simp [nameValue, h]

/-- A branch line changes only the line of the host. -/
theorem hostBranch_eq (taken : Bool) (target : Nat) (s : State) :
    hostBranch taken target s = { s with host := { s.host with line := if taken then target else s.host.line + 1 } } := by
  cases taken <;> rfl

/-- Settles O17: the step runs the line, and the name of a read has its data from then on. -/
theorem hostStepIsOneLine : Obligations.HostStepIsOneLine := by
  rintro s h rfl
  refine ⟨fun size off v hline => hostStep_of_line hline, fun size off x hline => ?_, fun x mask target w hw hline => ?_,
    fun x mask target w hw hline => ?_⟩
  · exact ⟨setName s.host.names x (busRead size off s).1.data, lookup_setName_self _ _ _,
      fun y hy => lookup_setName_ne _ _ hy, hostStep_of_line hline⟩
  · simp only [hostStep_of_line hline, hostLine, nameValue_of_lookup hw, hostBranch_eq, decide_eq_true_eq]
  · simp only [hostStep_of_line hline, hostLine, nameValue_of_lookup hw, hostBranch_eq, decide_eq_true_eq]

end Sys2Proof.Machine
end

section
/-! SUPPORT. What each command writes (30_encoding.md R146). -/

namespace Sys2Proof.Machine

open Sys2Proof

/-- `s` with all that the row of command `i` in 30_encoding.md R146 lets it write taken from `t`, and so the handshake, the
working registers and the draws. -/
def rowFrame (i : Instr) (s t : State) : State :=
  let u := { s with
    status := t.status, errInfo := t.errInfo, pendingOp := t.pendingOp, work := t.work, draws := t.draws }
  match i with
  | .nop => u
  | .clear => clearTables u
  | .count => { u with freq := t.freq }
  | .build => { u with enode := t.enode, encNodes := t.encNodes, encRoot := t.encRoot }
  | .gencodes => { u with code := t.code }
  | .emit | .walk => { u with obuf := t.obuf, dstLen := t.dstLen, payloadBits := t.payloadBits }
  | .encode => { u with
      freq := t.freq, enode := t.enode, encNodes := t.encNodes, encRoot := t.encRoot, code := t.code,
      obuf := t.obuf, dstLen := t.dstLen, payloadBits := t.payloadBits }
  | .rebuild => { u with
      dnode := t.dnode, decNodes := t.decNodes, decNcodes := t.decNcodes, decPayloadOff := t.decPayloadOff,
      decValid := t.decValid }
  | .decode => { u with
      dnode := t.dnode, decNodes := t.decNodes, decNcodes := t.decNcodes, decPayloadOff := t.decPayloadOff,
      decValid := t.decValid, obuf := t.obuf, dstLen := t.dstLen, payloadBits := t.payloadBits }

/-- `t` is `s` but for what the row of command `i` lets it write. -/
def WritesRow (i : Instr) (s t : State) : Prop := t = rowFrame i s t

theorem WritesOutput.writesRow {s t : State} (h : WritesOutput s t) : WritesRow .emit s t := by
  obtain ⟨frame, -, -⟩ := h
  rw [frame]
  rfl

theorem WritesDecoder.writesRow {s t : State} (h : WritesDecoder s t) : WritesRow .rebuild s t := by
  rw [WritesDecoder] at h
  rw [h]
  rfl

/-- What a state in the row of `i` goes on to by a row that lies inside the row of `i` is in the row of `i`. -/
theorem WritesRow.then {i j : Instr} {s u v : State} (hu : WritesRow i s u) (hv : WritesRow j u v)
    (inside : ∀ s u v, rowFrame j (rowFrame i s u) v = rowFrame i s (rowFrame j u v)) : WritesRow i s v :=
  calc v = rowFrame j u v := hv
    _ = rowFrame j (rowFrame i s u) v := congrArg (rowFrame j · v) hu
    _ = rowFrame i s (rowFrame j u v) := inside s u v
    _ = rowFrame i s v := congrArg (rowFrame i s) (Eq.symm hv)

theorem countBody_writesRow (s : State) : WritesRow .count s (countBody s).state := by
  obtain ⟨-, h⟩ | h := countBody_state_cases s <;> rw [h] <;> rfl

theorem buildBody_writesRow (s : State) : WritesRow .build s (buildBody s).state := by
  obtain ⟨n, r, w, h⟩ | h := buildBody_state_cases s <;> rw [h] <;> rfl

theorem gencodesBody_writesRow (s : State) : WritesRow .gencodes s (gencodesBody s).state := by
  obtain h | h := gencodesBody_state_cases s <;> rw [h] <;> rfl

/-- Both parts of a sequence keep to the row of `i`, so the sequence does. -/
theorem andThen_writesRow {i j : Instr} {s : State} {r : BodyEnd} {f : State → BodyEnd}
    (hr : WritesRow i s r.state) (hf : ∀ u, WritesRow j u (f u).state)
    (inside : ∀ s u v, rowFrame j (rowFrame i s u) v = rowFrame i s (rowFrame j u v)) :
    WritesRow i s (r.andThen f).state :=
  andThen_state (P := WritesRow i s) hr fun u hu => hu.then (hf u) inside

/-- The tree stages of ENCODE write nothing that ENCODE may not. -/
theorem encodeTables_writesRow (s : State) : WritesRow .encode s (encodeTables s).state := by
  unfold encodeTables
  split
  · rfl
  · have start : WritesRow .encode s s := rfl
    exact andThen_writesRow (start.then (buildBody_writesRow s) fun _ _ _ => rfl) gencodesBody_writesRow fun _ _ _ => rfl

theorem encodeBody_writesRow (s : State) : WritesRow .encode s (encodeBody s).state := by
  have start : WritesRow .encode s s := rfl
  unfold encodeBody
  split
  · have counted : WritesRow .encode s (countBody s).state := start.then (countBody_writesRow s) fun _ _ _ => rfl
    have tables := andThen_writesRow counted encodeTables_writesRow fun _ _ _ => rfl
    exact andThen_writesRow tables (fun u => (emitBody_writesOutput u).writesRow) fun _ _ _ => rfl
  · exact start.then (raiseOutput_writesOutput s _ _).writesRow fun _ _ _ => rfl

theorem decodeBody_writesRow (s : State) : WritesRow .decode s (decodeBody s).state := by
  have start : WritesRow .decode s s := rfl
  have rebuilt := start.then (rebuildBody_writesDecoder s).writesRow fun _ _ _ => rfl
  unfold decodeBody
  cases hr : rebuildBody s with
  | ok t =>
    rw [hr] at rebuilt
    exact rebuilt.then (walkBody_writesOutput t).writesRow fun _ _ _ => rfl
  | raised t e =>
    rw [hr] at rebuilt
    exact rebuilt.then (raiseOutput_writesOutput t _ _).writesRow fun _ _ _ => rfl

theorem commandBody_writesRow (i : Instr) (s : State) : WritesRow i s (commandBody i s).state := by
  cases i with
  | nop => rfl
  | clear => rfl
  | encode => exact encodeBody_writesRow s
  | count => exact countBody_writesRow s
  | build => exact buildBody_writesRow s
  | gencodes => exact gencodesBody_writesRow s
  | emit => exact (emitBody_writesOutput s).writesRow
  | decode => exact decodeBody_writesRow s
  | rebuild => exact (rebuildBody_writesDecoder s).writesRow
  | walk => exact (walkBody_writesOutput s).writesRow

/-- A command writes only what its row has: its completion adds the handshake, which every row has. -/
theorem exec_writesRow {i : Instr} {s t : State} (h : exec i s = .next t) : WritesRow i s t := by
  have body := commandBody_writesRow i s
  have inside (s u v : State) : rowFrame .nop (rowFrame i s u) v = rowFrame i s (rowFrame .nop u v) := by
    cases i <;> rfl
  rw [exec_eq_complete] at h
  obtain ⟨u, hu, rfl⟩ | ⟨u, e, hu, rfl⟩ := complete_cases h <;> rw [hu] at body
  · have completed : WritesRow .nop u (completeOk u) := rfl
    exact body.then completed inside
  · have completed : WritesRow .nop u (completeError u e) := rfl
    exact body.then completed inside

/-- Settles O22: the row of each command, field by field. -/
theorem commandsWriteOnlyTheirTables : Obligations.CommandsWriteOnlyTheirTables := by
  intro i s t h
  have row : t = rowFrame i s t := exec_writesRow h
  rw [row]
  cases i <;> simp [rowFrame, SameEncTree, SameDecoder]

end Sys2Proof.Machine
end

section
/-! SUPPORT. REBUILD of a legal table (44_decoder.md R302 to R304): the tree under construction is numbered by the prefixes
of the codes, in the order in which `insert` makes their nodes. -/

namespace Sys2Proof.Machine

open Sys2Proof

/-! ### The tree of a list of paths -/

/-- The number of the node that a path leads to, when node `i` is that of the path at index `i`; NONE for a path not
listed. -/
def linkOf (paths : List (List Bool)) (p : List Bool) : BitVec 16 :=
  if p ∈ paths then BitVec.ofNat 16 (paths.idxOf p) else DNode.noChild

/-- Node `i` of the tree is the one that path number `i` leads to from the root, and the LEAFs are those of the symbols and
codes in `leaves`. -/
structure Tree.Spells (t : Tree) (paths : List (List Bool)) (leaves : List Entry) : Prop where
  ok : t.Ok
  root : paths.idxOf [] = 0
  count : paths.length = t.cnt
  nodup : paths.Nodup
  codes : ∀ e ∈ leaves, e.2 ∈ paths
  closed : ∀ p ∈ paths, ∀ q, q <+: p → q ∈ paths
  child : ∀ p ∈ paths, ∀ b, (t.node (paths.idxOf p)).child b = linkOf paths (p ++ [b])
  leaf : ∀ p ∈ paths, ∀ sym,
    ((t.node (paths.idxOf p)).kind = .leaf ∧ (t.node (paths.idxOf p)).sym = sym) ↔ (sym, p) ∈ leaves

theorem tree_empty_spells : Tree.empty.Spells [[]] [] where
  ok := tree_empty_ok
  root := rfl
  count := rfl
  nodup := List.nodup_singleton _
  codes e he := by cases he
  closed p hp q hq := by
    rw [List.mem_singleton] at hp ⊢
    exact List.prefix_nil.mp (hp ▸ hq)
  child p _ b := by simp [node_empty, linkOf]
  leaf p _ sym := by simp [node_empty, DNode.cleared]

section Spells

variable {t : Tree} {paths : List (List Bool)} {leaves : List Entry} (h : t.Spells paths leaves)
include h

theorem Tree.Spells.idxOf_lt {p : List Bool} (hp : p ∈ paths) : paths.idxOf p < t.cnt :=
  h.count ▸ List.idxOf_lt_length_of_mem hp

theorem Tree.Spells.nodup_append_new {p : List Bool} (hp : p ∉ paths) : (paths ++ [p]).Nodup := by
  rw [← List.concat_eq_append]
  exact h.nodup.concat hp

theorem Tree.Spells.root_mem : [] ∈ paths := by
  rw [← List.idxOf_lt_length_iff, h.root, h.count]
  exact h.ok.pos

/-- The link of a listed path is the number of its node. -/
theorem Tree.Spells.linkOf_toNat {p : List Bool} (hp : p ∈ paths) : (linkOf paths p).toNat = paths.idxOf p := by
  have lt := h.idxOf_lt hp
  have le := h.ok.le
  rw [linkOf, if_pos hp, BitVec.toNat_ofNat]
  omega

theorem Tree.Spells.linkOf_ne_noChild_iff {p : List Bool} : linkOf paths p ≠ DNode.noChild ↔ p ∈ paths := by
  constructor
  · intro hne
    by_contra hp
    exact hne (if_neg hp)
  · intro hp hnone
    have number := h.linkOf_toNat hp
    have lt := h.idxOf_lt hp
    have le := h.ok.le
    have none_toNat : (DNode.noChild).toNat = 65535 := rfl
    rw [hnone] at number
    omega

theorem Tree.Spells.linkOf_root : linkOf paths [] = 0 := by
  rw [linkOf, if_pos h.root_mem, h.root]
  rfl

theorem Tree.Spells.kind_leaf_iff {p : List Bool} (hp : p ∈ paths) :
    (t.node (paths.idxOf p)).kind = .leaf ↔ ∃ sym, (sym, p) ∈ leaves := by
  simp [← h.leaf p hp]

/-- A path that goes on below a node leads on from a node that is no LEAF. -/
theorem Tree.Spells.internal_of_child {p : List Bool} {b : Bool} (hp : p ∈ paths) (hb : p ++ [b] ∈ paths) :
    (t.node (paths.idxOf p)).kind = .internal :=
  (h.ok.internal _ (h.idxOf_lt hp)).mpr ⟨b, by rw [h.child p hp]; exact h.linkOf_ne_noChild_iff.mpr hb⟩

/-- A node of no code's path, below which there is none, is EMPTY. -/
theorem Tree.Spells.kind_empty {p : List Bool} (hp : p ∈ paths) (noCode : ∀ sym, (sym, p) ∉ leaves)
    (noneBelow : ∀ b, p ++ [b] ∉ paths) : (t.node (paths.idxOf p)).kind = .empty := by
  cases hkind : (t.node (paths.idxOf p)).kind with
  | empty => rfl
  | leaf =>
    obtain ⟨sym, hsym⟩ := (h.kind_leaf_iff hp).mp hkind
    exact absurd hsym (noCode sym)
  | internal =>
    obtain ⟨b, hb⟩ := (h.ok.internal _ (h.idxOf_lt hp)).mp hkind
    rw [h.child p hp] at hb
    exact absurd (h.linkOf_ne_noChild_iff.mp hb) (noneBelow b)

/-- The path of a code leads to the LEAF of its symbol, from any node on the way. -/
theorem Tree.Spells.leafOnPath {sym : Byte} {p bits : List Bool} (hleaf : (sym, p ++ bits) ∈ leaves) :
    leafOnPath t.dnode (linkOf paths p) bits = some sym := by
  have hp : p ∈ paths := h.closed _ (h.codes _ hleaf) _ (List.prefix_append _ _)
  have node : dnodeAt t.dnode (linkOf paths p) = t.node (paths.idxOf p) := by
    rw [← h.linkOf_toNat hp]
    rfl
  induction bits generalizing p with
  | nil =>
    rw [List.append_nil] at hleaf
    obtain ⟨hkind, hsym⟩ := (h.leaf p hp sym).mpr hleaf
    rw [Machine.leafOnPath, node, if_pos hkind, hsym]
  | cons b bs ih =>
    rw [List.append_cons] at hleaf
    have hb : p ++ [b] ∈ paths := h.closed _ (h.codes _ hleaf) _ (List.prefix_append _ _)
    have linked := h.linkOf_ne_noChild_iff.mpr hb
    have goesOn : ¬ ((t.node (paths.idxOf p)).kind = .leaf ∨ linkOf paths (p ++ [b]) = DNode.noChild) := by
      rw [h.internal_of_child hp hb]
      exact fun stop => stop.elim (fun hk => by cases hk) linked
    simp only [Machine.leafOnPath, node, h.child p hp, if_neg goesOn]
    exact ih hleaf hb (by rw [← h.linkOf_toNat hb]; rfl)

end Spells

/-! ### insert of a code with no conflict (44_decoder.md R304) -/

theorem idxOf_append_new {paths : List (List Bool)} {p : List Bool} (hp : p ∉ paths) :
    (paths ++ [p]).idxOf p = paths.length := by
  simp [List.idxOf_append_of_notMem hp]

/-- The new path is the only one whose link changes. -/
theorem linkOf_append {paths : List (List Bool)} {q : List Bool} (hq : q ∉ paths) (p : List Bool) :
    linkOf (paths ++ [q]) p = if p = q then BitVec.ofNat 16 paths.length else linkOf paths p := by
  by_cases hpq : p = q
  · subst hpq
    simp [linkOf, idxOf_append_new hq]
  · by_cases hp : p ∈ paths
    · simp [linkOf, hp, hpq, List.idxOf_append_of_mem hp]
    · simp [linkOf, hp, hpq]

/-- A node that `insert` puts below the node of path `q` is that of the path one bit longer. -/
theorem Tree.Spells.grow {t : Tree} {paths : List (List Bool)} {leaves : List Entry} (h : t.Spells paths leaves)
    {q : List Bool} {b : Bool} (hq : q ∈ paths) (hnew : q ++ [b] ∉ paths) (hcnt : t.cnt < 511)
    (hleaf : (t.node (paths.idxOf q)).kind ≠ .leaf) :
    (t.grow (paths.idxOf q) b).Spells (paths ++ [q ++ [b]]) leaves := by
  have number {p : List Bool} (hp : p ∈ paths) : (paths ++ [q ++ [b]]).idxOf p = paths.idxOf p :=
    List.idxOf_append_of_mem hp
  have numberNew : (paths ++ [q ++ [b]]).idxOf (q ++ [b]) = t.cnt := (idxOf_append_new hnew).trans h.count
  have same {p : List Bool} (hp : p ∈ paths) : paths.idxOf p = paths.idxOf q ↔ p = q := List.idxOf_inj hp
  have nodeNew : (t.grow (paths.idxOf q) b).node t.cnt = DNode.cleared :=
    (node_grow_ne (Nat.ne_of_gt (h.idxOf_lt hq))).trans (h.ok.unused _ (Nat.le_refl _))
  have free : (t.node (paths.idxOf q)).child b = DNode.noChild := (h.child q hq b).trans (if_neg hnew)
  constructor
  case ok => exact h.ok.grow (h.idxOf_lt hq) free hcnt
  case root => exact (number h.root_mem).trans h.root
  case count => simp [h.count, Tree.grow]
  case nodup => exact h.nodup_append_new hnew
  case codes => exact fun e he => List.mem_append_left _ (h.codes e he)
  case closed =>
    intro p hp r hr
    obtain hp | hp := List.mem_append.mp hp
    · exact List.mem_append_left _ (h.closed p hp r hr)
    · rw [List.mem_singleton.mp hp, List.prefix_concat_iff] at hr
      obtain rfl | hr := hr
      · exact List.mem_append_right _ (List.mem_singleton_self _)
      · exact List.mem_append_left _ (h.closed q hq r hr)
  case child =>
    intro p hp b'
    rw [linkOf_append hnew, h.count]
    obtain hp | hp := List.mem_append.mp hp
    · rw [number hp, h.ok.child_grow (h.idxOf_lt hq), h.child p hp]
      simp only [same hp, List.append_singleton_inj]
    · obtain rfl := List.mem_singleton.mp hp
      have deeper : q ++ [b] ++ [b'] ∉ paths := fun hmem => hnew (h.closed _ hmem _ (List.prefix_append _ _))
      rw [numberNew, nodeNew, child_cleared, if_neg (by simp), linkOf, if_neg deeper]
  case leaf =>
    intro p hp sym
    obtain hp | hp := List.mem_append.mp hp
    · rw [number hp, ← h.leaf p hp]
      by_cases hpq : p = q
      · subst hpq
        rw [h.ok.node_grow_self (h.idxOf_lt hq)]
        exact iff_of_false (fun hl => by cases hl.1) fun hl => hleaf hl.1
      · rw [node_grow_ne (mt (same hp).mp hpq)]
    · obtain rfl := List.mem_singleton.mp hp
      rw [numberNew, nodeNew]
      exact iff_of_false (fun hl => by cases hl.1) fun hl => hnew (h.codes _ hl)

/-- The walk of `insert` follows a link that is there. -/
theorem descend_cons_follow {ent : Nat} {b : Bool} {bs : List Bool} {p : BitVec 16} {t : Tree}
    (hkind : (t.node p.toNat).kind = .internal) (hb : (t.node p.toNat).child b ≠ DNode.noChild) :
    descend ent (b :: bs) p t = descend ent bs ((t.node p.toNat).child b) t := by
  have same : t.dnode.set p.toNat { t.node p.toNat with kind := .internal } = t.dnode := by
    rw [← hkind]
    exact table_set_get_self _ _ _
  have notLeaf : (t.node p.toNat).kind ≠ .leaf := fun hk => by
    rw [hkind] at hk
    cases hk
  have step : descend ent (b :: bs) p t =
      descend ent bs ((t.node p.toNat).child b)
        ⟨t.dnode.set p.toNat { t.node p.toNat with kind := .internal }, t.cnt⟩ :=
    (if_neg notLeaf).trans (if_neg hb)
  rw [step, same]

/-- The walk of `insert` makes the node it lacks. -/
theorem descend_cons_grow {ent : Nat} {b : Bool} {bs : List Bool} {p : BitVec 16} {t : Tree}
    (notLeaf : (t.node p.toNat).kind ≠ .leaf) (hb : (t.node p.toNat).child b = DNode.noChild) (hcnt : t.cnt < 511) :
    descend ent (b :: bs) p t = descend ent bs (BitVec.ofNat 16 t.cnt) (t.grow p.toNat b) :=
  (if_neg notLeaf).trans ((if_pos hb).trans (if_neg (Nat.ne_of_lt hcnt)))

section Walk

variable {t : Tree} {paths : List (List Bool)} {leaves : List Entry} (h : t.Spells paths leaves) {p : List Bool}
  (hp : p ∈ paths) {b : Bool}
include h hp

theorem Tree.Spells.child_linkOf : (t.node (linkOf paths p).toNat).child b = linkOf paths (p ++ [b]) := by
  rw [h.linkOf_toNat hp, h.child p hp]

/-- The walk of `insert` goes on along a listed path. -/
theorem Tree.Spells.descend_follow (hb : p ++ [b] ∈ paths) (ent : Nat) (bs : List Bool) :
    descend ent (b :: bs) (linkOf paths p) t = descend ent bs (linkOf paths (p ++ [b])) t := by
  have kind : (t.node (linkOf paths p).toNat).kind = .internal := by
    rw [h.linkOf_toNat hp]
    exact h.internal_of_child hp hb
  have linked : (t.node (linkOf paths p).toNat).child b ≠ DNode.noChild := by
    rw [h.child_linkOf hp]
    exact h.linkOf_ne_noChild_iff.mpr hb
  rw [descend_cons_follow kind linked, h.child_linkOf hp]

/-- The walk of `insert` makes the node of a path that is not listed. -/
theorem Tree.Spells.descend_grow (hb : p ++ [b] ∉ paths) (hcnt : t.cnt < 511)
    (hleaf : (t.node (paths.idxOf p)).kind ≠ .leaf) (ent : Nat) (bs : List Bool) :
    descend ent (b :: bs) (linkOf paths p) t =
      descend ent bs (linkOf (paths ++ [p ++ [b]]) (p ++ [b])) (t.grow (paths.idxOf p) b) := by
  have free : (t.node (linkOf paths p).toNat).child b = DNode.noChild := (h.child_linkOf hp).trans (if_neg hb)
  rw [← h.linkOf_toNat hp] at hleaf ⊢
  rw [descend_cons_grow hleaf free hcnt, linkOf_append hb, if_pos rfl, h.count]

end Walk

/-- The walk of `insert` from the node of path `p`, along a code that begins with no code in the tree, ends at the node of
that code, when `all` has all that the code begins with and a tree of the paths in `all` has room; it makes just the nodes on
its way that the tree lacks. -/
theorem descend_spells {ent : Nat} {all : List (List Bool)} (room : all.dedup.length ≤ 511) {leaves : List Entry}
    {bits p : List Bool} (prefixes : ∀ q, q <+: p ++ bits → q ∈ all) (free : ∀ e ∈ leaves, ¬ e.2 <+: p ++ bits)
    {t : Tree} {paths : List (List Bool)} (h : t.Spells paths leaves) (hp : p ∈ paths) (hpaths : paths ⊆ all) :
    ∃ t' paths', descend ent bits (linkOf paths p) t = .ok (t', linkOf paths' (p ++ bits)) ∧ t'.Spells paths' leaves ∧
      p ++ bits ∈ paths' ∧ ∀ q, q ∈ paths' ↔ q ∈ paths ∨ q <+: p ++ bits := by
  induction bits generalizing p t paths with
  | nil =>
    refine ⟨t, paths, by simp [descend], h, by simpa using hp, fun q => ⟨.inl, ?_⟩⟩
    rintro (hq | hq)
    · exact hq
    · exact h.closed p hp q (by simpa using hq)
  | cons b bs ih =>
    have notLeaf : (t.node (paths.idxOf p)).kind ≠ .leaf := by
      rw [ne_eq, h.kind_leaf_iff hp]
      rintro ⟨sym, hsym⟩
      exact free _ hsym (List.prefix_append _ _)
    rw [List.append_cons] at prefixes free ⊢
    by_cases hb : p ++ [b] ∈ paths
    · rw [h.descend_follow hp hb]
      exact ih prefixes free h hb hpaths
    · have hlast : p ++ [b] ∈ all := prefixes _ (List.prefix_append _ _)
      have hpaths' : paths ++ [p ++ [b]] ⊆ all := by simpa [hlast] using hpaths
      have hcnt : t.cnt < 511 := by
        have fits := ((h.nodup_append_new hb).subperm fun q hq => List.mem_dedup.mpr (hpaths' hq)).length_le
        rw [List.length_append, h.count, List.length_singleton] at fits
        omega
      obtain ⟨t', paths', hwalk, h', hmem, hiff⟩ := ih prefixes free (h.grow hp hb hcnt notLeaf)
        (List.mem_append_right _ (List.mem_singleton_self _)) hpaths'
      refine ⟨t', paths', (h.descend_grow hp hb hcnt notLeaf _ _).trans hwalk, h', hmem, fun q => (hiff q).trans ?_⟩
      have onTheWay : q = p ++ [b] → q <+: p ++ [b] ++ bs := fun hq => hq ▸ List.prefix_append _ _
      rw [List.mem_append, List.mem_singleton]
      tauto

/-- The prefixes of the codes of a table: the nodes of its tree as paths (44_decoder.md R304). -/
def codePaths (entries : List Entry) : List (List Bool) := [] :: entries.flatMap fun e => e.2.inits

theorem nodeCount_eq (entries : List Entry) : nodeCount entries = (codePaths entries).dedup.length := rfl

theorem mem_codePaths {entries : List Entry} {p : List Bool} :
    p ∈ codePaths entries ↔ p = [] ∨ ∃ e ∈ entries, p <+: e.2 := by
  simp [codePaths]

theorem mem_codePaths_append {entries : List Entry} {e : Entry} {p : List Bool} :
    p ∈ codePaths (entries ++ [e]) ↔ p ∈ codePaths entries ∨ p <+: e.2 := by
  simp [mem_codePaths, or_and_right, exists_or, or_assoc]

theorem codePaths_subset {entries all : List Entry} (h : entries ⊆ all) : codePaths entries ⊆ codePaths all := by
  intro p hp
  rw [mem_codePaths] at hp ⊢
  exact hp.imp_right fun ⟨e, he, hpe⟩ => ⟨e, h he, hpe⟩

/-- The tree is that of the codes in a table. -/
def Tree.SpellsTable (t : Tree) (entries : List Entry) : Prop :=
  ∃ paths, t.Spells paths entries ∧ ∀ p, p ∈ paths ↔ p ∈ codePaths entries

theorem tree_empty_spellsTable : Tree.empty.SpellsTable [] := ⟨[[]], tree_empty_spells, fun _ => Iff.rfl⟩

theorem Tree.SpellsTable.leafOnPath {t : Tree} {entries : List Entry} (h : t.SpellsTable entries) {e : Entry}
    (he : e ∈ entries) : leafOnPath t.dnode 0 e.2 = some e.1 := by
  obtain ⟨paths, spells, -⟩ := h
  have path := spells.leafOnPath (p := []) he
  rwa [spells.linkOf_root] at path

theorem Tree.Spells.setLeaf {t : Tree} {paths : List (List Bool)} {leaves : List Entry} (h : t.Spells paths leaves)
    {sym : Byte} {c : List Bool} (hc : c ∈ paths) (hkind : (t.node (paths.idxOf c)).kind = .empty) :
    Tree.Spells ⟨t.dnode.set (paths.idxOf c) { t.node (paths.idxOf c) with kind := .leaf, sym := sym }, t.cnt⟩ paths
      (leaves ++ [(sym, c)]) := by
  have hc511 : paths.idxOf c < 511 := Nat.lt_of_lt_of_le (h.idxOf_lt hc) h.ok.le
  have other {p : List Bool} (hp : p ∈ paths) : paths.idxOf p = paths.idxOf c ↔ p = c := List.idxOf_inj hp
  constructor
  case ok =>
    refine h.ok.set_same_links (h.idxOf_lt hc) (fun b => by cases b <;> rfl) (iff_of_false (fun hk => by cases hk) ?_)
    rw [hkind]
    exact fun hk => by cases hk
  case root => exact h.root
  case count => exact h.count
  case nodup => exact h.nodup
  case codes => simpa [or_imp, forall_and, hc] using h.codes
  case closed => exact h.closed
  case child =>
    intro p hp b
    rw [← h.child p hp b]
    by_cases hpc : p = c
    · rw [hpc, node_set_self t hc511]
      cases b <;> rfl
    · rw [node_set_ne t (mt (other hp).mp hpc)]
  case leaf =>
    intro p hp sym'
    by_cases hpc : p = c
    · subst hpc
      have notYet : (sym', p) ∉ leaves := fun hmem => by
        have hleaf := (h.kind_leaf_iff hp).mpr ⟨sym', hmem⟩
        rw [hkind] at hleaf
        cases hleaf
      rw [node_set_self t hc511]
      simp [notYet, eq_comm]
    · rw [node_set_ne t (mt (other hp).mp hpc), h.leaf p hp]
      simp [hpc]

/-- `insert` makes the EMPTY node at the end of its walk the LEAF of the symbol. -/
theorem insertCode_of_descend {ent : Nat} {sym : Byte} {bits : List Bool} {t u : Tree} {p : BitVec 16}
    (hwalk : descend ent bits 0 t = .ok (u, p)) (hkind : (u.node p.toNat).kind = .empty) :
    insertCode sym bits ent t =
      .ok ⟨u.dnode.set p.toNat { u.node p.toNat with kind := .leaf, sym := sym }, u.cnt⟩ := by
  simp only [insertCode, hwalk]
  exact if_pos hkind

/-- `insert` of a code that conflicts with none in the tree, when the tree has room for its prefixes. -/
theorem insertCode_spells {ent : Nat} {all entries : List Entry} (room : nodeCount all ≤ 511) {e : Entry}
    (hsub : entries ++ [e] ⊆ all) (free : ∀ a ∈ entries, ¬ a.2 <+: e.2 ∧ ¬ e.2 <+: a.2) {t : Tree}
    (h : t.SpellsTable entries) : ∃ t', insertCode e.1 e.2 ent t = .ok t' ∧ t'.SpellsTable (entries ++ [e]) := by
  obtain ⟨paths, spells, hpaths⟩ := h
  rw [nodeCount_eq] at room
  have inAll := codePaths_subset hsub
  obtain ⟨u, paths', hwalk, spells', hmem, hiff⟩ := descend_spells (ent := ent) (p := []) (bits := e.2) room
    (fun q hq => inAll (mem_codePaths_append.mpr (.inr hq))) (fun a ha => (free a ha).1) spells spells.root_mem
    (fun q hq => inAll (mem_codePaths_append.mpr (.inl ((hpaths q).mp hq))))
  rw [List.nil_append] at hwalk hmem hiff
  rw [spells.linkOf_root] at hwalk
  have terminal : (u.node (paths'.idxOf e.2)).kind = .empty := by
    refine spells'.kind_empty hmem (fun sym hsym => (free _ hsym).1 (List.prefix_refl _)) fun b hb => ?_
    obtain hb | hb := (hiff _).mp hb
    · obtain hnil | ⟨a, ha, hba⟩ := mem_codePaths.mp ((hpaths _).mp hb)
      · simp at hnil
      · exact (free a ha).2 ((List.prefix_append _ _).trans hba)
    · simpa using hb.length_le
  refine ⟨_, ?_, paths', spells'.setLeaf (sym := e.1) hmem terminal, fun q => ?_⟩
  · rw [← spells'.linkOf_toNat hmem] at terminal ⊢
    exact insertCode_of_descend hwalk terminal
  · rw [hiff, hpaths, mem_codePaths_append]

end Sys2Proof.Machine
end

section
/-! SUPPORT. REBUILD reads back the bytes of a legal table (30_encoding.md R160 to R163, R172, R173; 44_decoder.md R301 to
R303). -/

namespace Sys2Proof.Machine

open Sys2Proof

/-! ### The fields of a frame -/

/-- The bytes of one table entry (30_encoding.md R161 to R163). -/
def frameEntry (e : Entry) : List Byte := e.1 :: (leBytes 8 e.2.length ++ e.2.map codeChar)

theorem tableBytes_eq (entries : List Entry) :
    tableBytes entries = leBytes 8 entries.length ++ entries.flatMap frameEntry := rfl

@[simp] theorem frameEntry_length (e : Entry) : (frameEntry e).length = 9 + e.2.length := by
  simp [frameEntry]
  omega

theorem slice_of_append {frame pre mid post : List Byte} (h : frame = pre ++ (mid ++ post)) {k n : Nat}
    (hk : k = pre.length) (hn : n = mid.length) : slice frame k n = mid := by
  subst h hk hn
  simp [slice]

/-- A 64-bit field is read back where it stands. -/
theorem le64_of_append {frame pre post : List Byte} {v k : Nat} (h : frame = pre ++ (leBytes 8 v ++ post))
    (hk : k = pre.length) (hv : v < 2 ^ 64) : le64 frame k = v := by
  rw [le64, slice_of_append h hk (leBytes_length 8 v).symm, leNat_leBytes]
  exact Nat.mod_eq_of_lt hv

theorem readCodeChars_map (bits : List Bool) (at_ : Nat) : readCodeChars at_ (bits.map codeChar) = .ok bits := by
  induction bits generalizing at_ with
  | nil => rfl
  | cons b bs ih =>
    have char : bitOfChar (codeChar b) = some b := by cases b <;> rfl
    simp only [List.map_cons, readCodeChars, char, ih]

theorem need_of_le {limit pos k at_ : Nat} (h : pos + k ≤ limit) : need limit pos k at_ = .ok () :=
  if_neg (Nat.not_lt.mpr h)

/-! ### The entries -/

/-- An entry of a new symbol, with a code of at most 255 bits that `insert` takes, is read (44_decoder.md R303). -/
theorem parseEntry_frameEntry {frame pre post : List Byte} {e : Entry} {limit : Nat} {r : Parser} {tree : Tree}
    (hframe : frame = pre ++ (frameEntry e ++ post)) (hpos : r.pos = pre.length)
    (hlimit : pre.length + (frameEntry e).length ≤ limit) (hnew : e.1 ∉ r.seen) (hlen : e.2.length ≤ 255)
    (hinsert : insertCode e.1 e.2 pre.length r.tree = .ok tree) :
    parseEntry frame limit r = .ok ⟨tree, pre.length + (frameEntry e).length, e.1 :: r.seen⟩ := by
  rw [frameEntry_length] at hlimit ⊢
  have symbol : frame.getD r.pos 0 = e.1 := by simp [hframe, hpos, frameEntry]
  have length : le64 frame (r.pos + 1) = e.2.length :=
    le64_of_append (pre := pre ++ [e.1]) (post := e.2.map codeChar ++ post) (by simp [hframe, frameEntry]) (by simp [hpos])
      (by omega)
  have code : slice frame (r.pos + 9) e.2.length = e.2.map codeChar :=
    slice_of_append (pre := pre ++ e.1 :: leBytes 8 e.2.length) (post := post) (by simp [hframe, frameEntry])
      (by simp [hpos]) (by simp)
  simp only [parseEntry, symbol, if_neg hnew, length, if_neg (Nat.not_lt.mpr hlen), code, readCodeChars_map]
  rw [need_of_le (by omega), need_of_le (by omega), need_of_le (by omega)]
  simp [hpos, hinsert, bind, Except.bind, Nat.add_assoc]

/-- REBUILD stands after the entries of a legal table, with their tree. -/
structure Parser.HasRead (r : Parser) (entries : List Entry) : Prop where
  tree : r.tree.SpellsTable entries
  pos : r.pos = (tableBytes entries).length
  seen : ∀ b, b ∈ r.seen ↔ b ∈ entries.map Prod.fst

theorem tableBytes_length (entries : List Entry) :
    (tableBytes entries).length = 8 + (entries.flatMap frameEntry).length := by
  simp [tableBytes_eq]

theorem parser_start_hasRead : Parser.HasRead ⟨Tree.empty, 8, []⟩ [] where
  tree := tree_empty_spellsTable
  pos := rfl
  seen _ := Iff.rfl

/-- The next entry of a legal table is read. -/
theorem parseEntry_hasRead {frame header post : List Byte} {done more : List Entry} {e : Entry} {limit : Nat} {r : Parser}
    (legal : LegalTable (done ++ e :: more)) (hheader : header.length = 8)
    (hframe : frame = header ++ ((done ++ [e]).flatMap frameEntry ++ post))
    (hlimit : (tableBytes (done ++ [e])).length ≤ limit) (h : r.HasRead done) :
    ∃ r', parseEntry frame limit r = .ok r' ∧ r'.HasRead (done ++ [e]) := by
  obtain ⟨nodup, short, noPrefix, room⟩ := legal
  have pre_length : (header ++ done.flatMap frameEntry).length = (tableBytes done).length := by
    rw [List.length_append, hheader, tableBytes_length]
  have total : (tableBytes (done ++ [e])).length = (tableBytes done).length + (frameEntry e).length := by
    simp [tableBytes_length, Nat.add_assoc]
  have hnew : e.1 ∉ r.seen := by
    rw [h.seen]
    intro hmem
    rw [List.map_append] at nodup
    exact List.disjoint_of_nodup_append nodup hmem List.mem_cons_self
  have free : ∀ a ∈ done, ¬ a.2 <+: e.2 ∧ ¬ e.2 <+: a.2 := by
    obtain ⟨-, -, apart⟩ := List.pairwise_append.mp noPrefix
    exact fun a ha => apart a ha e List.mem_cons_self
  obtain ⟨tree, hinsert, htree⟩ := insertCode_spells (ent := (tableBytes done).length) room (e := e) (by simp) free h.tree
  refine ⟨_, parseEntry_frameEntry (pre := header ++ done.flatMap frameEntry) (post := post) (by simpa using hframe)
    (h.pos.trans pre_length.symm) (by omega) hnew (short e (by simp)) (pre_length ▸ hinsert), htree, ?_, fun b => ?_⟩
  · simp only [total, pre_length]
  · simp [h.seen, or_comm]

/-- The entries of a legal table are read, whatever number is still to come. -/
theorem parseEntries_hasRead {frame header post : List Byte} {done entries : List Entry} {limit : Nat} {r : Parser}
    (legal : LegalTable (done ++ entries)) (hheader : header.length = 8)
    (hframe : frame = header ++ ((done ++ entries).flatMap frameEntry ++ post))
    (hlimit : (tableBytes (done ++ entries)).length ≤ limit) (h : r.HasRead done) :
    ∃ r', r'.HasRead (done ++ entries) ∧
      ∀ m, parseEntries frame limit (entries.length + m) r = parseEntries frame limit m r' := by
  induction entries generalizing done r with
  | nil => exact ⟨r, by simpa using h, fun m => by simp⟩
  | cons e es ih =>
    have fits : (tableBytes (done ++ [e])).length ≤ limit := by
      rw [tableBytes_length] at hlimit ⊢
      simp only [List.flatMap_append, List.flatMap_cons, List.flatMap_nil, List.length_append, List.length_nil] at hlimit ⊢
      omega
    obtain ⟨r₁, hentry, h₁⟩ := parseEntry_hasRead (post := es.flatMap frameEntry ++ post) legal hheader
      (by simpa using hframe) fits h
    rw [List.append_cons] at legal hframe hlimit ⊢
    obtain ⟨r', h', hrest⟩ := ih legal hframe hlimit h₁
    refine ⟨r', h', fun m => ?_⟩
    rw [List.length_cons, Nat.add_right_comm, parseEntries, hentry]
    exact hrest m

/-- A legal table has at most one entry for each symbol (30_encoding.md R172). -/
theorem legalTable_length_le {entries : List Entry} (h : LegalTable entries) : entries.length ≤ 256 := by
  obtain ⟨nodup, -⟩ := h
  have := (nodup.map BitVec.toFin_injective).length_le_card
  simpa using this

/-- REBUILD reads a legal table that lies below the limit (44_decoder.md R302, R303). -/
theorem parseTable_hasRead {frame rest : List Byte} {entries : List Entry} {limit : Nat} (legal : LegalTable entries)
    (hframe : frame = tableBytes entries ++ rest) (hlimit : (tableBytes entries).length ≤ limit) :
    ∃ r, parseTable frame limit = .ok (entries.length, r) ∧ r.HasRead entries := by
  have few := legalTable_length_le legal
  have long := tableBytes_length entries
  rw [tableBytes_eq, List.append_assoc] at hframe
  have num : le64 frame 0 = entries.length := le64_of_append (pre := []) hframe rfl (by omega)
  obtain ⟨r, hread, hentries⟩ := parseEntries_hasRead (done := []) legal (leBytes_length _ _) hframe hlimit
    parser_start_hasRead
  have parsed : parseEntries frame limit entries.length ⟨Tree.empty, 8, []⟩ = .ok r := hentries 0
  refine ⟨r, ?_, hread⟩
  simp only [parseTable, num, parsed, if_neg (Nat.not_lt.mpr few)]
  rw [need_of_le (by omega)]
  rfl

/-! ### The body of REBUILD -/

theorem frameLimit_eq {s : State} (h : s.ctrl.trailer = true → 8 ≤ s.srcLen.toNat) :
    frameLimit s = .ok (if s.ctrl.trailer then s.srcLen.toNat - 8 else s.srcLen.toNat) := by
  unfold frameLimit
  split
  · next ht => rw [if_neg (Nat.not_lt.mpr (h ht))]
  · rfl

/-- `s` after REBUILD of a table of `num` entries that ended with `r` (44_decoder.md R305). -/
def State.rebuilt (s : State) (num : Nat) (r : Parser) : State :=
  { s with
    dnode := r.tree.dnode
    decNodes := BitVec.ofNat 10 r.tree.cnt
    decNcodes := BitVec.ofNat 9 num
    decPayloadOff := BitVec.ofNat 32 r.pos
    decValid := true
    work := { s.work with seen := r.seen } }

/-- REBUILD succeeds on a legal table that fits below the limit, and ends with what it has read (44_decoder.md R305). -/
theorem rebuildBody_legalTable {s : State} {entries : List Entry} {rest : List Byte} (legal : LegalTable entries)
    (hfits : s.srcLen.toNat ≤ s.cfg.ibufBytes) (hinput : input s = tableBytes entries ++ rest)
    (htrailer : s.ctrl.trailer = true → 8 ≤ rest.length) :
    ∃ r : Parser, r.HasRead entries ∧ rebuildBody s = .ok (s.rebuilt entries.length r) := by
  have length : s.srcLen.toNat = (tableBytes entries).length + rest.length := by
    rw [← input_length, hinput, List.length_append]
  have below : (tableBytes entries).length ≤ if s.ctrl.trailer then s.srcLen.toNat - 8 else s.srcLen.toNat := by
    split
    · next ht =>
      have := htrailer ht
      omega
    · omega
  obtain ⟨r, hparse, hread⟩ := parseTable_hasRead legal hinput below
  refine ⟨r, hread, ?_⟩
  have limit := frameLimit_eq (s := s) fun ht => Nat.le_trans (htrailer ht) (by omega)
  simp only [rebuildBody, srcFits, hfits, decide_true, if_true, limit, hparse, State.rebuilt]

end Sys2Proof.Machine
end

section
/-! SUPPORT. WALK reads back the payload of a message (30_encoding.md R164, R165; 44_decoder.md R311 to R315). -/

namespace Sys2Proof.Machine

open Sys2Proof

/-! ### The bits of the payload -/

theorem ite_two_pow (b : Bool) (n : Nat) : (if b then 2 ^ n else 0) = b.toNat * 2 ^ n := by
  cases b <;> simp

/-- A payload byte is the number whose bits are those of the string, the last one lowest (30_encoding.md R164). -/
theorem payloadByte_eq_natOfPath (bits : List Bool) (j : Nat) :
    payloadByte bits j = BitVec.ofNat 8 (natOfPath ((List.range 8).map fun i => bits.getD (8 * j + (7 - i)) false)) := by
  simp only [payloadByte, ite_two_pow, List.range_succ, List.range_zero, List.nil_append, List.cons_append, List.map_cons,
    List.map_nil, List.sum_cons, List.sum_nil, natOfPath, Nat.reduceSub, Nat.add_zero]
  congr 1
  omega

/-- The bits of a payload byte are those of the string from its place on, padded with 0. -/
theorem bitsOfByte_payloadByte (bits : List Bool) (j : Nat) :
    bitsOfByte (payloadByte bits j) = (List.range 8).map fun i => bits.getD (8 * j + i) false := by
  rw [payloadByte_eq_natOfPath]
  refine List.map_congr_left fun i hi => ?_
  have hi : i < 8 := List.mem_range.mp hi
  have turned : 7 - (7 - i) = i := by omega
  rw [BitVec.getLsbD_ofNat, natOfPath_testBit]
  simp [show 7 - i < 8 by omega, turned]

/-- The payload of a bit string is read back as the string (44_decoder.md R312). -/
theorem payloadBitList_payloadBytes (bits : List Bool) : payloadBitList (payloadBytes bits) bits.length = bits := by
  have padded (n : Nat) : ((List.range n).map (payloadByte bits)).flatMap bitsOfByte =
      (List.range (8 * n)).map fun i => bits.getD i false := by
    induction n with
    | zero => rfl
    | succ n ih =>
      simp [List.range_succ (n := n), ih, bitsOfByte_payloadByte, Nat.mul_succ, List.range_add, Function.comp_def]
  rw [payloadBitList, payloadBytes, padded]
  refine List.ext_getElem (by simp; omega) fun i hi hi' => ?_
  simp [hi']

/-! ### The walk over codes -/

theorem put_of_room {b : Byte} {k : Sink} (h : k.written < k.room) :
    put b k = .ok { k with written := k.written + 1, rev := b :: k.rev } := (put_eq b k).trans (if_pos h)

theorem leafOnPath_nil_some {dnode : Table DNode 511} {p : BitVec 16} {sym : Byte}
    (h : leafOnPath dnode p [] = some sym) : (dnodeAt dnode p).kind = .leaf ∧ (dnodeAt dnode p).sym = sym := by
  simpa [leafOnPath] using h

theorem leafOnPath_cons_some {dnode : Table DNode 511} {p : BitVec 16} {b : Bool} {bs : List Bool} {sym : Byte}
    (h : leafOnPath dnode p (b :: bs) = some sym) :
    (dnodeAt dnode p).kind ≠ .leaf ∧ (dnodeAt dnode p).child b ≠ DNode.noChild ∧
      leafOnPath dnode ((dnodeAt dnode p).child b) bs = some sym := by
  simp only [leafOnPath] at h
  split at h
  · cases h
  · next goesOn =>
    rw [not_or] at goesOn
    exact ⟨goesOn.1, goesOn.2, h⟩

/-- One payload bit below a root that is no LEAF, with the child it takes (44_decoder.md R313). -/
theorem walkBit_child {dnode : Table DNode 511} {p : BitVec 16} {b : Bool} {k : Sink} (i : Nat)
    (hroot : (dnodeAt dnode 0).kind ≠ .leaf) (hb : (dnodeAt dnode p).child b ≠ DNode.noChild) :
    walkBit dnode i b ⟨p, k⟩ =
      if (dnodeAt dnode ((dnodeAt dnode p).child b)).kind = .leaf then
        (put (dnodeAt dnode ((dnodeAt dnode p).child b)).sym k).map fun k' => ⟨0, k'⟩
      else .ok ⟨(dnodeAt dnode p).child b, k⟩ := by
  simp only [walkBit, if_neg hroot, if_neg hb]
  split
  · cases put (dnodeAt dnode ((dnodeAt dnode p).child b)).sym k <;> rfl
  · rfl

/-- A path to a LEAF puts out its symbol and goes back to the root. -/
theorem walkBits_leafOnPath {dnode : Table DNode 511} (hroot : (dnodeAt dnode 0).kind ≠ .leaf) {p : BitVec 16}
    {path : List Bool} {sym : Byte} (h : leafOnPath dnode p path = some sym) (hne : path ≠ []) {k : Sink}
    (hroom : k.written < k.room) (i : Nat) (rest : List Bool) :
    walkBits dnode i (path ++ rest) ⟨p, k⟩ =
      walkBits dnode (i + path.length) rest ⟨0, { k with written := k.written + 1, rev := sym :: k.rev }⟩ := by
  induction path generalizing p i with
  | nil => exact absurd rfl hne
  | cons b bs ih =>
    obtain ⟨-, hb, hbs⟩ := leafOnPath_cons_some h
    rw [List.cons_append, walkBits, walkBit_child i hroot hb]
    cases bs with
    | nil =>
      obtain ⟨hkind, rfl⟩ := leafOnPath_nil_some hbs
      rw [if_pos hkind, put_of_room hroom]
      rfl
    | cons b' bs' =>
      obtain ⟨notLeaf, -, -⟩ := leafOnPath_cons_some hbs
      rw [if_neg notLeaf, List.length_cons, Nat.add_comm (b' :: bs').length, ← Nat.add_assoc]
      exact ih hbs (List.cons_ne_nil _ _) (i + 1)

/-- Paths to LEAFs put out their symbols in order (44_decoder.md R313). -/
theorem walkBits_codes {dnode : Table DNode 511} {codes : List Entry}
    (hcodes : ∀ c ∈ codes, leafOnPath dnode 0 c.2 = some c.1 ∧ c.2 ≠ []) {k : Sink}
    (hroom : k.written + codes.length ≤ k.room) (i : Nat) (tail : List Bool) :
    walkBits dnode i ((codes.map Prod.snd).flatten ++ tail) ⟨0, k⟩ =
      walkBits dnode (i + (codes.map Prod.snd).flatten.length) tail
        ⟨0, { k with written := k.written + codes.length, rev := (codes.map Prod.fst).reverse ++ k.rev }⟩ := by
  induction codes generalizing i k with
  | nil => rfl
  | cons c cs ih =>
    obtain ⟨hpath, hne⟩ := hcodes c List.mem_cons_self
    have hroot : (dnodeAt dnode 0).kind ≠ .leaf := by
      obtain ⟨b, bs, hbs⟩ := List.exists_cons_of_ne_nil hne
      exact (leafOnPath_cons_some (hbs ▸ hpath)).1
    rw [List.length_cons] at hroom
    rw [List.map_cons, List.flatten_cons, List.append_assoc, walkBits_leafOnPath hroot hpath hne (by omega),
      ih (fun a ha => hcodes a (List.mem_cons_of_mem _ ha)) (by dsimp only; omega)]
    simp [Nat.add_assoc, Nat.add_comm 1]

/-- WALK of a payload that is whole codes ends at the root, with their symbols as its output. -/
theorem walkPayload_codes {dnode : Table DNode 511} {trailer : Bool} {room nbits : Nat} {payload : List Byte}
    {codes : List Entry} (hcodes : ∀ c ∈ codes, leafOnPath dnode 0 c.2 = some c.1 ∧ c.2 ≠ [])
    (hbits : payloadBitList payload nbits = (codes.map Prod.snd).flatten) (hroom : codes.length ≤ room) :
    walkPayload dnode trailer room payload nbits = .ok ⟨0, room, codes.length, (codes.map Prod.fst).reverse⟩ := by
  have walk := walkBits_codes hcodes (k := Sink.start room) (by simpa [Sink.start] using hroom) 0 []
  rw [List.append_nil, ← hbits] at walk
  rw [walkPayload, walk]
  simp [walkBits, Sink.start, bind, Except.bind]

/-- `s` after a WALK of `nbits` bits that ended at the root with the symbols `syms` as its output. -/
def State.walked (s : State) (syms : List Byte) (nbits : Nat) : State :=
  { storeOutput ⟨s.cfg.obufBytes, syms.length, syms.reverse⟩ nbits s with work := { s.work with walkPos := 0 } }

/-- OBUF begins with the symbols and is unchanged above them. -/
theorem hasOutput_walked (s : State) {syms : List Byte} (nbits : Nat) (h : syms.length < 2 ^ 32) :
    HasOutput s (s.walked syms nbits) syms := by
  have bytes : Sink.bytes ⟨s.cfg.obufBytes, syms.length, syms.reverse⟩ = syms := List.reverse_reverse syms
  simp only [HasOutput, State.walked, storeOutput_dstLen, storeOutput_obuf, bytes, BitVec.toNat_ofNat, Nat.mod_eq_of_lt h]
  refine ⟨trivial, fun k hk => ?_, fun k hk => Memory.read_writeOutput_above _ _ _ hk⟩
  rw [Memory.read_writeOutput_inside _ _ _ hk, List.getElem?_eq_getElem hk]

/-- WALK of a payload that is whole codes writes their symbols (44_decoder.md R313, R315). -/
theorem walkBody_codes {s : State} {codes : List Entry} {off len nbits : Nat} (hfits : s.srcLen.toNat ≤ s.cfg.ibufBytes)
    (hvalid : s.decValid = true) (hregion : payloadRegion s = .ok (off, len, nbits))
    (hcodes : ∀ c ∈ codes, leafOnPath s.dnode 0 c.2 = some c.1 ∧ c.2 ≠ [])
    (hbits : payloadBitList (slice (input s) off len) nbits = (codes.map Prod.snd).flatten)
    (hroom : codes.length ≤ s.cfg.obufBytes) : walkBody s = .ok (s.walked (codes.map Prod.fst) nbits) := by
  simp only [walkBody, srcFits, hfits, decide_true, if_true, hvalid, hregion, walkPayload_codes hcodes hbits hroom,
    State.walked, List.length_map]

/-! ### The frame of a message -/

theorem frameBytes_hardened (entries : List Entry) (bits : List Bool) :
    frameBytes entries bits true = tableBytes entries ++ (payloadBytes bits ++ leBytes 8 bits.length) := by
  simp [frameBytes]

theorem payloadBytes_length (bits : List Bool) : (payloadBytes bits).length = ceil8 bits.length := by
  simp [payloadBytes, ceil8]

/-- In hardened mode WALK finds the payload between the table and the trailer (44_decoder.md R311). -/
theorem payloadRegion_frameBytes {s : State} {entries : List Entry} {bits : List Bool} (htrailer : s.ctrl.trailer = true)
    (hinput : input s = frameBytes entries bits true) (hoff : s.decPayloadOff.toNat = (tableBytes entries).length)
    (hbits : bits.length < 2 ^ 64) :
    payloadRegion s = .ok ((tableBytes entries).length, (payloadBytes bits).length, bits.length) := by
  rw [frameBytes_hardened] at hinput
  have length : s.srcLen.toNat = (tableBytes entries).length + ((payloadBytes bits).length + 8) := by
    rw [← input_length, hinput, List.length_append, List.length_append, leBytes_length]
  have limit : frameLimit s = .ok ((tableBytes entries).length + (payloadBytes bits).length) := by
    rw [frameLimit_eq fun _ => by omega, htrailer, if_pos rfl, length]
    congr 1
  have count : le64 (input s) ((tableBytes entries).length + (payloadBytes bits).length) = bits.length :=
    le64_of_append (pre := tableBytes entries ++ payloadBytes bits) (post := []) (by simp [hinput]) (by simp) hbits
  simp [payloadRegion, limit, hoff, htrailer, count, ← payloadBytes_length, bind, Except.bind]

/-- The code that a table gives to one of its symbols is in the table. -/
theorem mem_of_entryBits {entries : List Entry} {b : Byte} (h : b ∈ entries.map Prod.fst) :
    (b, entryBits entries b) ∈ entries := by
  cases hlookup : entries.lookup b with
  | none =>
    obtain ⟨e, he, rfl⟩ := List.mem_map.mp h
    simpa using List.lookup_eq_none_iff.mp hlookup e he
  | some c =>
    obtain ⟨before, after, hsplit, -⟩ := List.lookup_eq_some_iff.mp hlookup
    have code : entryBits entries b = c := by rw [entryBits, hlookup, Option.getD_some]
    rw [code, hsplit]
    exact List.mem_append_right _ List.mem_cons_self

/-- The symbols of a message with their codes in the table. -/
def messageEntries (entries : List Entry) (message : List Byte) : List Entry :=
  message.map fun b => (b, entryBits entries b)

theorem messageEntries_symbols (entries : List Entry) (message : List Byte) :
    (messageEntries entries message).map Prod.fst = message := by
  simp [messageEntries, Function.comp_def]

theorem messageEntries_bits (entries : List Entry) (message : List Byte) :
    ((messageEntries entries message).map Prod.snd).flatten = entryMessage entries message := by
  simp [messageEntries, entryMessage, List.flatMap, Function.comp_def]

theorem messageEntries_subset {entries : List Entry} {message : List Byte} (h : ∀ b ∈ message, b ∈ entries.map Prod.fst) :
    messageEntries entries message ⊆ entries := by
  intro e he
  obtain ⟨b, hb, rfl⟩ := List.mem_map.mp he
  exact mem_of_entryBits (h b hb)

/-- The table and the bits of a frame that fits IBUF have lengths below 2^32 (00_scope.md R10). -/
theorem frame_lengths_lt {s : State} {entries : List Entry} {bits : List Bool} (hwf : s.cfg.wf = true)
    (hfits : s.srcLen.toNat ≤ s.cfg.ibufBytes) (hinput : input s = frameBytes entries bits true) :
    (tableBytes entries).length < 2 ^ 32 ∧ bits.length < 2 ^ 32 := by
  have length := input_length s
  rw [hinput, frameBytes_hardened, List.length_append, List.length_append, payloadBytes_length, ceil8] at length
  obtain ⟨-, small, -⟩ := (config_wf_iff _).mp hwf
  omega

/-- DECODE of the hardened frame of a legal table and a message over it ends with the message as its output. -/
theorem decodeBody_frameBytes {s : State} {entries : List Entry} {message : List Byte} (hwf : s.cfg.wf = true)
    (legal : LegalTable entries) (hcodes : ∀ e ∈ entries, e.2 ≠ []) (hmessage : ∀ b ∈ message, b ∈ entries.map Prod.fst)
    (htrailer : s.ctrl.trailer = true) (hfits : s.srcLen.toNat ≤ s.cfg.ibufBytes)
    (hinput : input s = frameBytes entries (entryMessage entries message) true)
    (hroom : message.length ≤ s.cfg.obufBytes) :
    ∃ r : Parser, decodeBody s =
      .ok ((s.rebuilt entries.length r).walked message (entryMessage entries message).length) := by
  obtain ⟨table_lt, bits_lt⟩ := frame_lengths_lt hwf hfits hinput
  have hframe := hinput.trans (frameBytes_hardened _ _)
  obtain ⟨r, hread, hrebuild⟩ := rebuildBody_legalTable legal hfits hframe fun _ => by simp
  have off : (s.rebuilt entries.length r).decPayloadOff.toNat = (tableBytes entries).length := by
    rw [State.rebuilt, hread.pos, BitVec.toNat_ofNat, Nat.mod_eq_of_lt table_lt]
  have region := payloadRegion_frameBytes (s := s.rebuilt entries.length r) htrailer hinput off (by omega)
  have bits : payloadBitList (slice (input s) (tableBytes entries).length
      (payloadBytes (entryMessage entries message)).length) (entryMessage entries message).length =
        ((messageEntries entries message).map Prod.snd).flatten := by
    rw [slice_of_append hframe rfl rfl, payloadBitList_payloadBytes, messageEntries_bits]
  have symbols (c : Entry) (hc : c ∈ messageEntries entries message) :
      leafOnPath r.tree.dnode 0 c.2 = some c.1 ∧ c.2 ≠ [] :=
    have mem := messageEntries_subset hmessage hc
    ⟨hread.tree.leafOnPath mem, hcodes c mem⟩
  have walk := walkBody_codes (s := s.rebuilt entries.length r) hfits rfl region symbols bits
    (by simpa [messageEntries, State.rebuilt] using hroom)
  rw [messageEntries_symbols] at walk
  exact ⟨r, by rw [decodeBody, hrebuild]; exact walk⟩

/-- Settles O57: REBUILD makes the tree in which the code of each symbol leads to its LEAF, so WALK, which is at the root
after each symbol of the message, puts out the message. -/
theorem decodeReadsLegalFrames : Obligations.DecodeReadsLegalFrames := by
  intro s entries message bits hwf legal hcodes hmessage htrailer hfits hinput hroom
  obtain ⟨r, hbody⟩ := decodeBody_frameBytes hwf legal hcodes hmessage htrailer hfits hinput hroom
  obtain ⟨-, bits_lt⟩ := frame_lengths_lt hwf hfits hinput
  obtain ⟨-, -, -, obuf_le⟩ := (config_wf_iff _).mp hwf
  have few := legalTable_length_le legal
  have hexec : exec .decode s = .next (completeOk ((s.rebuilt entries.length r).walked message bits.length)) :=
    (exec_eq_complete .decode s).trans (congrArg complete hbody)
  have written : HasOutput s (completeOk ((s.rebuilt entries.length r).walked message bits.length)) message :=
    hasOutput_walked (s.rebuilt entries.length r) bits.length (by omega)
  have payloadBits : (BitVec.ofNat 32 bits.length).toNat = bits.length := by
    rw [BitVec.toNat_ofNat, Nat.mod_eq_of_lt bits_lt]
  have ncodes : (BitVec.ofNat 9 entries.length).toNat = entries.length := by
    rw [BitVec.toNat_ofNat]
    omega
  exact ⟨_, hexec, ⟨rfl, rfl, rfl⟩, written, payloadBits, rfl, ncodes, commandsKeepTheirOperands _ _ _ hexec, rfl,
    ⟨rfl, rfl, rfl⟩, rfl⟩

end Sys2Proof.Machine
end

section
/-! SUPPORT. The control commands NOP and CLEAR, and illegal command words (41_control_commands.md). -/

namespace Sys2Proof.Machine

open Sys2Proof

/-! ### The core's turn on an illegal word -/

/-- While BUSY = 1 the step is the core's when the agenda has the core next or is used up (log entry 3). -/
theorem step_eq_coreStep {s : State} {rest : List Turn} (hbusy : s.status.busy = true)
    (hturn : (s.agenda = [] ∧ rest = []) ∨ s.agenda = .core :: rest) : step s = coreStep { s with agenda := rest } := by
  obtain ⟨hagenda, rfl⟩ | hagenda := hturn
  · rw [step, takeTurn_nil hagenda, ← hagenda]
    simp [runTurn, hbusy]
  · rw [step, takeTurn_cons hagenda]
    simp [runTurn, hbusy]

/-- Every command has one of the ten opcodes of 30_encoding.md R142. -/
theorem opcode_assigned (i : Instr) :
    opcode i ∈ ([0x00, 0x01, 0x10, 0x11, 0x12, 0x13, 0x14, 0x20, 0x21, 0x22] : List Byte) := by
  cases i <;> decide

/-- A word with a non-zero RSVD field or an unassigned opcode is no command (30_encoding.md R143). -/
theorem decode_illegal {v : Word}
    (h : rsvdField v ≠ 0 ∨
      opField v ∉ ([0x00, 0x01, 0x10, 0x11, 0x12, 0x13, 0x14, 0x20, 0x21, 0x22] : List Byte)) :
    ∃ e, decode v = .error e := by
  cases hd : decode v with
  | error e => exact ⟨e, rfl⟩
  | ok i =>
    obtain ⟨rsvd, op⟩ := decode_ok hd
    exact (h.elim (· rsvd) (· (op ▸ opcode_assigned i))).elim

theorem coreStep_illegal {s : State} {v : Word} {e : DecodeReject} (hpending : s.pendingOp = some v)
    (hd : decode v = .error e) : coreStep s = .next (completeError s ⟨.badCmd, v⟩) := by
  simp [coreStep, fetch, hpending, hd, execIllegal, complete]

/-- Settles O3: the core's turn follows the accept, and a word that does not decode completes with BAD_CMD. -/
theorem illegalWordCompletesWithBadCmd : Obligations.IllegalWordCompletesWithBadCmd := by
  intro s v rest hturn hillegal
  obtain ⟨e, hd⟩ := decode_illegal hillegal
  calc step (accept v s)
      = coreStep { accept v s with agenda := rest } := step_eq_coreStep rfl hturn
    _ = .next (completeError { accept v s with agenda := rest } ⟨.badCmd, v⟩) := coreStep_illegal rfl hd

/-! ### NOP and CLEAR -/

theorem exec_nop (s : State) : exec .nop s = .next (completeOk s) := exec_eq_complete .nop s

theorem exec_clear (s : State) : exec .clear s = .next (completeOk (clearTables s)) := exec_eq_complete .clear s

/-- Settles O32: NOP is a completion without an error, and its accept made ERR, ERR_INFO and LAST_OP 0. -/
theorem nopOnlyCompletes : Obligations.NopOnlyCompletes :=
  fun s => ⟨exec_nop s, exec_nop (accept 0x00000000 s)⟩

/-- Settles O33: CLEAR fills every table with its reset entry, and neither it nor its completion touches an operand. -/
theorem clearResetsTheTables : Obligations.ClearResetsTheTables := by
  intro s
  refine ⟨_, exec_clear s, ⟨rfl, rfl, rfl⟩, commandsKeepTheirOperands _ _ _ (exec_clear s), fun _ => rfl, rfl, ?_, ?_, ?_,
    ?_, rfl, rfl, rfl, rfl, rfl, rfl, rfl, rfl⟩
  · exact fun b => Table.get_fill 256 0 b.toNat
  · exact fun b => Table.get_fill 256 CodeEntry.none b.toNat
  · exact fun i => Table.get_fill 511 ENode.cleared i
  · exact fun i => Table.get_fill 511 DNode.cleared i.toNat

end Sys2Proof.Machine
end

section
/-! SUPPORT. COUNT counts the input, and what COUNT, BUILD and GENCODES end in when their checks pass
(42_encoder_front.md R221, R230, R240). -/

namespace Sys2Proof.Machine

open Sys2Proof

/-! ### COUNT -/

theorem freqAt_countByte (freq : Table Word 256) (b c : Byte) :
    freqAt (countByte freq b) c = if c = b then freqAt freq b + 1 else freqAt freq c := by
  by_cases h : c = b
  · rw [if_pos h, h]
    exact Table.get_set_self _ _ _ _ b.isLt
  · rw [if_neg h]
    exact Table.get_set_ne _ _ _ _ _ fun hn => h (BitVec.eq_of_toNat_eq hn.symm)

/-- Counting from `freq` on adds the number of occurrences, modulo 2^32. -/
theorem freqAt_foldl_countByte (bytes : List Byte) (freq : Table Word 256) (c : Byte) :
    freqAt (bytes.foldl countByte freq) c = freqAt freq c + BitVec.ofNat 32 (bytes.count c) := by
  induction bytes generalizing freq with
  | nil => simp
  | cons b bytes ih =>
    rw [List.foldl_cons, ih, freqAt_countByte]
    by_cases h : c = b
    · subst h
      rw [if_pos rfl, List.count_cons_self, BitVec.ofNat_add, BitVec.add_assoc, BitVec.add_comm (BitVec.ofNat 32 _)]
      rfl
    · rw [if_neg h, List.count_cons_of_ne (Ne.symm h)]

/-- No counter wraps, as a symbol occurs at most once per byte. -/
theorem freqAt_countBytes {bytes : List Byte} (h : bytes.length < 2 ^ 32) (c : Byte) :
    (freqAt (countBytes bytes) c).toNat = bytes.count c := by
  have occurs : bytes.count c ≤ bytes.length := List.count_le_length
  have start : freqAt (Table.fill 256 0) c = 0 := Table.get_fill _ _ _
  rw [countBytes, freqAt_foldl_countByte, start, zero_add, BitVec.toNat_ofNat]
  exact Nat.mod_eq_of_lt (by omega)

theorem exec_count_fits {s : State} (h : s.srcLen.toNat ≤ s.cfg.ibufBytes) :
    exec .count s = .next (completeOk { s with freq := countBytes (input s) }) := by
  rw [exec_eq_complete]
  exact congrArg complete (if_pos (decide_eq_true h))

theorem exec_count_tooLong {s : State} (h : s.cfg.ibufBytes < s.srcLen.toNat) :
    exec .count s = .next (completeError s (srcLenError s)) := by
  have notFits : ¬ srcFits s = true := fun fits => Nat.not_le.mpr h (of_decide_eq_true fits)
  rw [exec_eq_complete]
  exact congrArg complete (if_neg notFits)

/-- Settles O34: each byte of the input adds 1 to its own counter, and an input that is too long changes no table. -/
theorem countCountsTheInput : Obligations.CountCountsTheInput := by
  intro s
  refine ⟨fun fits => ?_, fun tooLong => ?_⟩
  · have exec := exec_count_fits fits
    have short : (input s).length < 2 ^ 32 := input_length s ▸ s.srcLen.isLt
    exact ⟨_, exec, ⟨rfl, rfl, rfl⟩, freqAt_countBytes short, commandsKeepTheirOperands _ _ _ exec, ⟨rfl, rfl, rfl⟩, rfl,
      ⟨rfl, rfl, rfl, rfl, rfl⟩, ⟨rfl, rfl, fun _ => rfl⟩, rfl⟩
  · have exec := exec_count_tooLong tooLong
    exact ⟨_, exec, ⟨rfl, rfl, rfl⟩, rfl, commandsKeepTheirOperands _ _ _ exec, ⟨rfl, rfl, rfl⟩, rfl,
      ⟨rfl, rfl, rfl, rfl, rfl⟩, ⟨rfl, rfl, fun _ => rfl⟩, rfl⟩

/-! ### BUILD and GENCODES as functions of what they read -/

/-- The state after the body of BUILD over at least one symbol. -/
def State.built (s : State) : State :=
  { s with
    enode := (buildTree s.freq).enode
    encNodes := BitVec.ofNat 10 (2 * encNsym s.freq - 1)
    encRoot := if encNsym s.freq = 1 then 0 else BitVec.ofNat 9 (2 * encNsym s.freq - 2)
    work := { s.work with live := (buildTree s.freq).live } }

theorem exec_build {s : State} (h : encNsym s.freq ≠ 0) : exec .build s = .next (completeOk s.built) := by
  rw [exec_eq_complete]
  exact congrArg complete (if_neg h)

theorem exec_gencodes {s : State} (h : s.encNodes ≠ 0) :
    exec .gencodes s = .next (completeOk { s with code := codesOf s.enode s.encRoot.toNat }) := by
  rw [exec_eq_complete]
  exact congrArg complete (if_neg h)

/-- What BUILD ends in, given that it ended. -/
theorem eq_built_of_exec {s t : State} (h : encNsym s.freq ≠ 0) (ht : exec .build s = .next t) :
    t = completeOk s.built := by
  rw [exec_build h] at ht
  cases ht
  rfl

/-- What GENCODES leaves in CODE, given that it ended. -/
theorem code_of_exec_gencodes {s t : State} (h : s.encNodes ≠ 0) (ht : exec .gencodes s = .next t) :
    t.code = codesOf s.enode s.encRoot.toNat := by
  rw [exec_gencodes h] at ht
  cases ht
  rfl

/-- Settles O39: the tree that BUILD ends in is written in terms of FREQ, and the codes of GENCODES in terms of the tree. -/
theorem buildAndGencodesAreFunctions : Obligations.BuildAndGencodesAreFunctions := by
  constructor
  · intro s s' t t' hfreq hpos ht ht'
    rw [eq_built_of_exec hpos ht, eq_built_of_exec (hfreq ▸ hpos) ht']
    simp [SameEncTree, State.built, hfreq]
  · intro s s' t t' ⟨henode, hnodes, hroot⟩ hpos ht ht'
    rw [code_of_exec_gencodes hpos ht, code_of_exec_gencodes (hnodes ▸ hpos) ht', henode, hroot]

end Sys2Proof.Machine
end

section
/-! SUPPORT. The encoder's tree as a tree (10_state.md R55): exactly one path leads from its root to each of its nodes, and
what a node shares out among its children, the root shares out among the Leaves. -/

namespace Sys2Proof.Machine

open Sys2Proof

/-- The child of node `m` that a code bit takes (00_scope.md R13). -/
def childAt (enode : Table ENode 511) (m : Nat) (b : Bool) : Nat :=
  if b then (enodeAt enode m).right.toNat else (enodeAt enode m).left.toNat

theorem childAt_isChild (enode : Table ENode 511) (m : Nat) (b : Bool) :
    (enodeAt enode m).left.toNat = childAt enode m b ∨ (enodeAt enode m).right.toNat = childAt enode m b := by
  cases b
  · exact .inl rfl
  · exact .inr rfl

theorem childAt_injective {enode : Table ENode 511} {m : Nat}
    (different : (enodeAt enode m).left ≠ (enodeAt enode m).right) : Function.Injective (childAt enode m) := by
  have different := mt BitVec.eq_of_toNat_eq different
  intro b c h
  cases b <;> cases c
  · rfl
  · exact absurd h different
  · exact absurd h.symm different
  · rfl

/-- A path of one bit more leads to the child that this bit takes. -/
theorem nodeOnPath_concat (enode : Table ENode 511) (r : Nat) (p : List Bool) (b : Bool) (i : Nat) :
    nodeOnPath enode r (p ++ [b]) = some i ↔
      ∃ m, nodeOnPath enode r p = some m ∧ (enodeAt enode m).leaf = false ∧ childAt enode m b = i := by
  rw [nodeOnPath_append]
  cases nodeOnPath enode r p with
  | none => simp
  | some m => cases h : (enodeAt enode m).leaf <;> simp [nodeOnPath, h, childAt]

/-! ### The sum over the Leaves -/

/-- The children of a node. -/
def childrenOf (enode : Table ENode 511) (m : Nat) : Finset Nat :=
  {(enodeAt enode m).left.toNat, (enodeAt enode m).right.toNat}

theorem mem_childrenOf {enode : Table ENode 511} {m i : Nat} :
    i ∈ childrenOf enode m ↔ (enodeAt enode m).left.toNat = i ∨ (enodeAt enode m).right.toNat = i := by
  simp [childrenOf, eq_comm]

namespace IsEncTree

variable {enode : Table ENode 511} {n : Nat}

/-- Every node but the root is the child of one Internal node. -/
theorem biUnion_childrenOf (tree : IsEncTree enode n) :
    (Finset.Ico n (2 * n - 1)).biUnion (childrenOf enode) = Finset.range (2 * n - 2) := by
  obtain ⟨-, -, -, -, internals, parents, -⟩ := tree
  ext i
  simp only [Finset.mem_biUnion, Finset.mem_Ico, mem_childrenOf, Finset.mem_range]
  constructor
  · rintro ⟨m, ⟨hm, hlt⟩, hchild⟩
    obtain ⟨-, -, -, left_lt, right_lt, -⟩ := internals m hm hlt
    omega
  · intro hi
    obtain ⟨m, ⟨hm, hlt, hchild⟩, -⟩ := parents i hi
    exact ⟨m, ⟨hm, hlt⟩, hchild⟩

theorem disjoint_childrenOf (tree : IsEncTree enode n) :
    (Finset.Ico n (2 * n - 1) : Set Nat).PairwiseDisjoint (childrenOf enode) := by
  obtain ⟨-, -, -, -, internals, parents, -⟩ := tree
  intro m hm k hk hmk
  obtain ⟨hm, hlt⟩ := Finset.mem_Ico.mp hm
  obtain ⟨hk, hklt⟩ := Finset.mem_Ico.mp hk
  obtain ⟨-, -, -, left_lt, right_lt, -⟩ := internals m hm hlt
  refine Finset.disjoint_left.mpr fun i him hik => hmk ?_
  rw [mem_childrenOf] at him hik
  exact (parents i (by omega)).unique ⟨hm, hlt, him⟩ ⟨hk, hklt, hik⟩

/-- If each Internal node's share is that of its two children together, the root's is that of the Leaves together: the
shares of all nodes but the root add up to those of all Internal nodes. -/
theorem sum_leaves_eq_root (tree : IsEncTree enode n) (share : Nat → Nat)
    (split : ∀ m, n ≤ m → m < 2 * n - 1 →
      share (enodeAt enode m).left.toNat + share (enodeAt enode m).right.toNat = share m) :
    ∑ i ∈ Finset.range n, share i = share (2 * n - 2) := by
  obtain ⟨hn, -, -, -, internals, -, -⟩ := id tree
  have children : ∑ i ∈ Finset.range (2 * n - 2), share i = ∑ m ∈ Finset.Ico n (2 * n - 1), share m := by
    rw [← tree.biUnion_childrenOf, Finset.sum_biUnion tree.disjoint_childrenOf]
    refine Finset.sum_congr rfl fun m hm => ?_
    obtain ⟨hm, hlt⟩ := Finset.mem_Ico.mp hm
    obtain ⟨-, -, -, -, -, different⟩ := internals m hm hlt
    rw [childrenOf, Finset.sum_pair (mt BitVec.eq_of_toNat_eq different), split m hm hlt]
  have all := Finset.sum_range_add_sum_Ico share (show n ≤ 2 * n - 1 by omega)
  rw [show 2 * n - 1 = 2 * n - 2 + 1 by omega, Finset.sum_range_succ, children,
    show 2 * n - 2 + 1 = 2 * n - 1 by omega] at all
  omega

/-! ### Paths from the root -/

/-- The indices fall along a path, and all nodes on it but the last are Internal, so that no path is longer than the tree
has Internal nodes. -/
theorem path_bounds (tree : IsEncTree enode n) {p : List Bool} {i : Nat}
    (hp : nodeOnPath enode (2 * n - 2) p = some i) : p.length + i ≤ 2 * n - 2 ∧ p.length ≤ n - 1 := by
  obtain ⟨hn, -⟩ := id tree
  induction p using List.reverseRecOn generalizing i with
  | nil =>
    cases hp
    simp
  | append_singleton p b ih =>
    obtain ⟨m, hm, notLeaf, hchild⟩ := (nodeOnPath_concat ..).mp hp
    obtain ⟨bound, -⟩ := ih hm
    obtain ⟨hnm, left_lt, right_lt⟩ := tree.internal_of_not_leaf (by omega) notLeaf
    have isChild := childAt_isChild enode m b
    rw [List.length_append, List.length_singleton]
    omega

theorem lt_of_path (tree : IsEncTree enode n) {p : List Bool} {i : Nat}
    (hp : nodeOnPath enode (2 * n - 2) p = some i) : i < 2 * n - 1 := by
  obtain ⟨hn, -⟩ := id tree
  have bounds := tree.path_bounds hp
  omega

/-- A path that is not empty ends below an Internal node. -/
theorem parent_of_path (tree : IsEncTree enode n) {p : List Bool} {b : Bool} {i : Nat}
    (hp : nodeOnPath enode (2 * n - 2) (p ++ [b]) = some i) :
    i < 2 * n - 2 ∧
      ∃ m, n ≤ m ∧ m < 2 * n - 1 ∧ nodeOnPath enode (2 * n - 2) p = some m ∧ childAt enode m b = i := by
  obtain ⟨bound, -⟩ := tree.path_bounds hp
  rw [List.length_append, List.length_singleton] at bound
  obtain ⟨m, hm, notLeaf, hchild⟩ := (nodeOnPath_concat ..).mp hp
  have hlt := tree.lt_of_path hm
  exact ⟨by omega, m, (tree.internal_of_not_leaf hlt notLeaf).1, hlt, hm, hchild⟩

/-- The path to a child is the path to its parent and one bit more. -/
theorem path_child (tree : IsEncTree enode n) {p : List Bool} {m : Nat} (hm : n ≤ m) (hlt : m < 2 * n - 1)
    (hp : nodeOnPath enode (2 * n - 2) p = some m) (b : Bool) :
    nodeOnPath enode (2 * n - 2) (p ++ [b]) = some (childAt enode m b) := by
  obtain ⟨-, -, -, -, internals, -⟩ := tree
  obtain ⟨-, notLeaf, -⟩ := internals m hm hlt
  exact (nodeOnPath_concat ..).mpr ⟨m, hp, notLeaf, rfl⟩

/-- A path leads to every node. -/
theorem exists_path (tree : IsEncTree enode n) {i : Nat} (hi : i < 2 * n - 1) :
    ∃ p, nodeOnPath enode (2 * n - 2) p = some i := by
  obtain ⟨-, -, -, -, internals, parents, -⟩ := id tree
  induction hd : 2 * n - 2 - i using Nat.strongRecOn generalizing i with
  | ind d ih =>
    by_cases root : i = 2 * n - 2
    · exact ⟨[], root ▸ rfl⟩
    · obtain ⟨m, ⟨hm, hlt, hchild⟩, -⟩ := parents i (by omega)
      obtain ⟨-, -, -, left_lt, right_lt, -⟩ := internals m hm hlt
      obtain ⟨p, hp⟩ := ih (2 * n - 2 - m) (by omega) hlt rfl
      obtain left | right := hchild
      · exact ⟨p ++ [false], left ▸ tree.path_child hm hlt hp false⟩
      · exact ⟨p ++ [true], right ▸ tree.path_child hm hlt hp true⟩

/-- Only one path leads to a node, as it has one parent and is one child of it. -/
theorem path_unique (tree : IsEncTree enode n) {p q : List Bool} {i : Nat}
    (hp : nodeOnPath enode (2 * n - 2) p = some i) (hq : nodeOnPath enode (2 * n - 2) q = some i) : p = q := by
  obtain ⟨-, -, -, -, internals, parents, -⟩ := id tree
  induction p using List.reverseRecOn generalizing q i with
  | nil =>
    cases q using List.reverseRecOn with
    | nil => rfl
    | append_singleton q c =>
      cases hp
      exact absurd (tree.parent_of_path hq).1 (Nat.lt_irrefl _)
  | append_singleton p b ih =>
    obtain ⟨hi, m, hm, hlt, hpm, hb⟩ := tree.parent_of_path hp
    cases q using List.reverseRecOn with
    | nil =>
      cases hq
      exact absurd hi (Nat.lt_irrefl _)
    | append_singleton q c =>
      obtain ⟨-, k, hk, hklt, hqk, hc⟩ := tree.parent_of_path hq
      have oneParent : m = k := (parents i hi).unique ⟨hm, hlt, hb ▸ childAt_isChild enode m b⟩
        ⟨hk, hklt, hc ▸ childAt_isChild enode k c⟩
      subst oneParent
      obtain ⟨-, -, -, -, -, different⟩ := internals m hm hlt
      rw [ih hpm hqk, childAt_injective different (hb.trans hc.symm)]

end IsEncTree

end Sys2Proof.Machine
end

section
/-! SUPPORT. The merges of BUILD, one by one: each takes the two least keys of the live set, and later merges leave the
nodes it made (42_encoder_front.md R231, R232, R234). -/

namespace Sys2Proof.Machine

open Sys2Proof

/-! ### The order of the queue -/

/-- The key of a node in the priority queue (42_encoder_front.md R231), in the lexicographic order. -/
def keyOf (enode : Table ENode 511) (i : Nat) : Nat ×ₗ Nat := toLex (weightAt enode i, i)

theorem keyOf_lt_iff (enode : Table ENode 511) (i j : Nat) :
    keyOf enode i < keyOf enode j ↔
      weightAt enode i < weightAt enode j ∨ (weightAt enode i = weightAt enode j ∧ i < j) :=
  Prod.Lex.toLex_lt_toLex

theorem eq_of_keyOf_eq {enode : Table ENode 511} {i j : Nat} (h : keyOf enode i = keyOf enode j) : i = j :=
  congrArg (fun key => (ofLex key).2) h

theorem keyLess_iff (enode : Table ENode 511) (x y : Nat) : keyLess enode x y = true ↔ keyOf enode x < keyOf enode y := by
  simp [keyLess, keyOf_lt_iff, weightAt]

theorem keyOf_leastKey_le (enode : Table ENode 511) {x z : Nat} {rest : List Nat} (hz : z ∈ x :: rest) :
    keyOf enode (leastKey enode x rest) ≤ keyOf enode z := by
  induction rest generalizing x z with
  | nil => rw [List.mem_singleton.mp hz, leastKey]
  | cons y rest ih =>
    have winner : keyOf enode (if keyLess enode y x then y else x) ≤ keyOf enode x ∧
        keyOf enode (if keyLess enode y x then y else x) ≤ keyOf enode y := by
      split
      · next less => exact ⟨((keyLess_iff enode y x).mp less).le, le_rfl⟩
      · next notLess => exact ⟨le_rfl, not_lt.mp (mt (keyLess_iff enode y x).mpr notLess)⟩
    rw [leastKey]
    obtain hx | hy | hrest : z = x ∨ z = y ∨ z ∈ rest := by simpa using hz
    · rw [hx]
      exact (ih List.mem_cons_self).trans winner.1
    · rw [hy]
      exact (ih List.mem_cons_self).trans winner.2
    · exact ih (List.mem_cons_of_mem _ hrest)

/-- The node extracted from a live set has the least key in it. -/
theorem eq_or_keyOf_extractLeast_lt (enode : Table ENode 511) {z : Nat} {live : List Nat} (hz : z ∈ live) :
    z = extractLeast enode live ∨ keyOf enode (extractLeast enode live) < keyOf enode z := by
  cases live with
  | nil => cases hz
  | cons x rest => exact (keyOf_leastKey_le enode hz).eq_or_lt.imp_left fun h => (eq_of_keyOf_eq h).symm

/-! ### The two nodes that a merge takes -/

/-- The LEFT child of the next merge. -/
def Builder.first (b : Builder) : Nat := extractLeast b.enode b.live

/-- The RIGHT child of the next merge. -/
def Builder.second (b : Builder) : Nat := extractLeast b.enode (b.live.erase b.first)

theorem mergeStep_eq (b : Builder) (m : Nat) :
    mergeStep b m =
      ⟨b.enode.set m (ENode.mkInternal b.enode b.first b.second), (b.live.erase b.first).erase b.second ++ [m]⟩ := rfl

theorem Builder.first_mem {b : Builder} (h : 2 ≤ b.live.length) : b.first ∈ b.live :=
  extractLeast_mem b.enode (List.ne_nil_of_length_pos (by omega))

theorem Builder.second_mem_erase {b : Builder} (h : 2 ≤ b.live.length) : b.second ∈ b.live.erase b.first := by
  have len := List.length_erase_of_mem (b.first_mem h)
  exact extractLeast_mem b.enode (List.ne_nil_of_length_pos (by omega))

theorem Builder.second_mem {b : Builder} (h : 2 ≤ b.live.length) : b.second ∈ b.live :=
  List.mem_of_mem_erase (b.second_mem_erase h)

theorem Builder.first_ne_second {b : Builder} (h : 2 ≤ b.live.length) (nodup : b.live.Nodup) : b.first ≠ b.second :=
  (nodup.mem_erase_iff.mp (b.second_mem_erase h)).1.symm

theorem Builder.first_least {b : Builder} {i : Nat} (hi : i ∈ b.live) :
    i = b.first ∨ keyOf b.enode b.first < keyOf b.enode i := eq_or_keyOf_extractLeast_lt b.enode hi

theorem Builder.second_least {b : Builder} {i : Nat} (hi : i ∈ b.live) :
    i = b.first ∨ i = b.second ∨ keyOf b.enode b.second < keyOf b.enode i := by
  by_cases h : i = b.first
  · exact .inl h
  · exact .inr (eq_or_keyOf_extractLeast_lt b.enode ((List.mem_erase_of_ne h).mpr hi))

theorem Builder.weight_first_add_second_le {b : Builder} (h : 2 ≤ b.live.length) :
    weightAt b.enode b.first + weightAt b.enode b.second ≤ totalWeight b.enode b.live := by
  have first := totalWeight_erase b.enode (b.first_mem h)
  have second := totalWeight_erase b.enode (b.second_mem_erase h)
  omega

/-! ### BUILD after some of its merges -/

/-- The arena and the live set after the first `j` merges of BUILD. -/
def builderAfter (freq : Table Word 256) (j : Nat) : Builder :=
  ((List.range j).map fun k => encNsym freq + k).foldl mergeStep ⟨arenaOf (leavesOf freq), List.range (encNsym freq)⟩

theorem buildTree_eq_builderAfter (freq : Table Word 256) : buildTree freq = builderAfter freq (encNsym freq - 1) := by
  rw [buildTree, leavesOf_length]
  rfl

theorem builderAfter_succ (freq : Table Word 256) (j : Nat) :
    builderAfter freq (j + 1) = mergeStep (builderAfter freq j) (encNsym freq + j) := by
  simp [builderAfter, List.range_succ]

theorem forestOk_builderAfter {freq : Table Word 256} (hpos : encNsym freq ≠ 0) {j : Nat} (hj : j ≤ encNsym freq - 1) :
    ForestOk (encNsym freq) (encNsym freq + j) (builderAfter freq j) :=
  forestOk_merges (forestOk_leaves freq hpos) (encNsym_le freq) j hj

theorem builderOk_builderAfter (freq : Table Word 256) {j : Nat} (hj : j ≤ encNsym freq - 1) :
    BuilderOk (freqSum freq) (encNsym freq) (encNsym freq + j) (builderAfter freq j) := by
  have leaves := builderOk_leaves (leavesOf freq)
  rw [leavesOf_weight_sum, leavesOf_length] at leaves
  exact builderOk_merges leaves j hj

/-- A merge makes one new node and leaves the others. -/
theorem enodeAt_builderAfter_of_lt (freq : Table Word 256) {i j k : Nat} (hjk : j ≤ k) (hi : i < encNsym freq + j) :
    enodeAt (builderAfter freq k).enode i = enodeAt (builderAfter freq j).enode i := by
  induction k, hjk using Nat.le_induction with
  | base => rfl
  | succ k hjk ih =>
    rw [builderAfter_succ, mergeStep_eq, enodeAt_set_ne _ _ (by omega), ih]

/-- `b` is the arena and the live set from which BUILD makes node `m`. -/
structure BeforeMerge (freq : Table Word 256) (m : Nat) (b : Builder) : Prop where
  forest : ForestOk (encNsym freq) m b
  weights : BuilderOk (freqSum freq) (encNsym freq) m b
  two_live : 2 ≤ b.live.length
  older : ∀ i, i < m → enodeAt (buildTree freq).enode i = enodeAt b.enode i
  made : enodeAt (buildTree freq).enode m = ENode.mkInternal b.enode b.first b.second

theorem exists_beforeMerge {freq : Table Word 256} {m : Nat} (hm : encNsym freq ≤ m) (hlt : m < 2 * encNsym freq - 1) :
    ∃ b, BeforeMerge freq m b := by
  obtain ⟨j, rfl⟩ := Nat.exists_eq_add_of_le hm
  have hn := encNsym_le freq
  have forest := forestOk_builderAfter (freq := freq) (by omega) (j := j) (by omega)
  have count := forest.count
  refine ⟨builderAfter freq j, forest, builderOk_builderAfter freq (by omega), by omega, fun i hi => ?_, ?_⟩
  · rw [buildTree_eq_builderAfter, enodeAt_builderAfter_of_lt freq (by omega) hi]
  · rw [buildTree_eq_builderAfter, enodeAt_builderAfter_of_lt freq (j := j + 1) (by omega) (by omega), builderAfter_succ,
      mergeStep_eq, enodeAt_set_self _ _ (by omega)]

/-- The live nodes are those that no merge has taken. -/
theorem ForestOk.mem_live_iff {n m : Nat} {b : Builder} (h : ForestOk n m b) (i : Nat) :
    i ∈ b.live ↔ i < m ∧ ∀ k, ¬ IsParent b.enode n m i k := by
  constructor
  · exact fun hi => ⟨h.older i hi, h.root i hi⟩
  · rintro ⟨him, orphan⟩
    by_contra notLive
    obtain ⟨k, hk, -⟩ := h.parent i him notLive
    exact orphan k hk

namespace BeforeMerge

variable {freq : Table Word 256} {m : Nat} {b : Builder}

theorem weightAt_older (h : BeforeMerge freq m b) {i : Nat} (hi : i < m) :
    weightAt (buildTree freq).enode i = weightAt b.enode i := by
  rw [weightAt, h.older i hi, weightAt]

theorem keyOf_older (h : BeforeMerge freq m b) {i : Nat} (hi : i < m) :
    keyOf (buildTree freq).enode i = keyOf b.enode i := by
  rw [keyOf, h.weightAt_older hi, keyOf]

theorem first_lt (h : BeforeMerge freq m b) : b.first < m := h.forest.older _ (b.first_mem h.two_live)

theorem second_lt (h : BeforeMerge freq m b) : b.second < m := h.forest.older _ (b.second_mem h.two_live)

/-- A link has 9 bits, which hold the index of any node made before the last one. -/
theorem lt_two_pow (h : BeforeMerge freq m b) : m < 2 ^ 9 := by
  have count := h.forest.count
  have two_live := h.two_live
  have hn := encNsym_le freq
  omega

theorem left_eq (h : BeforeMerge freq m b) : (enodeAt (buildTree freq).enode m).left.toNat = b.first := by
  rw [h.made, ENode.mkInternal, BitVec.toNat_ofNat]
  exact Nat.mod_eq_of_lt (h.first_lt.trans h.lt_two_pow)

theorem right_eq (h : BeforeMerge freq m b) : (enodeAt (buildTree freq).enode m).right.toNat = b.second := by
  rw [h.made, ENode.mkInternal, BitVec.toNat_ofNat]
  exact Nat.mod_eq_of_lt (h.second_lt.trans h.lt_two_pow)

theorem mem_live_iff (h : BeforeMerge freq m b) (i : Nat) :
    i ∈ b.live ↔ i < m ∧ ∀ k, ¬ IsParent (buildTree freq).enode (encNsym freq) m i k := by
  rw [h.forest.mem_live_iff]
  refine and_congr_right fun _ => forall_congr' fun k => not_congr ?_
  unfold IsParent
  exact and_congr_right fun _ => and_congr_right fun hk => by rw [h.older k hk]

/-- Frequencies that add up below 2^32 let no weight wrap: the two children weigh no more than the live set. -/
theorem weightAt_made (h : BeforeMerge freq m b) (hsum : freqSum freq < 2 ^ 32) :
    weightAt (buildTree freq).enode m =
      weightAt (buildTree freq).enode b.first + weightAt (buildTree freq).enode b.second := by
  have children := b.weight_first_add_second_le h.two_live
  have total := h.weights.total_le
  rw [h.weightAt_older h.first_lt, h.weightAt_older h.second_lt, weightAt, h.made, ENode.mkInternal]
  exact BitVec.toNat_add_of_lt (children.trans_lt (total.trans_lt hsum))

end BeforeMerge

end Sys2Proof.Machine
end

section
/-! SUPPORT. What BUILD leaves in the encoder's tree (42_encoder_front.md R230 to R234). -/

namespace Sys2Proof.Machine

open Sys2Proof

/-! ### The registers and the Leaves -/

theorem built_encNodes (s : State) : s.built.encNodes.toNat = 2 * encNsym s.freq - 1 := by
  have hn := encNsym_le s.freq
  rw [State.built, BitVec.toNat_ofNat]
  omega

theorem built_encRoot (s : State) :
    s.built.encRoot.toNat = if encNsym s.freq = 1 then 0 else 2 * encNsym s.freq - 2 := by
  have hn := encNsym_le s.freq
  simp only [State.built]
  split
  · rfl
  · rw [BitVec.toNat_ofNat]
    omega

theorem mkLeaf_mem_leavesOf {freq : Table Word 256} {b : Byte} (h : freqAt freq b ≠ 0) :
    ENode.mkLeaf b (freqAt freq b) ∈ leavesOf freq := by
  rw [leavesOf_eq_filterMap]
  refine List.mem_filterMap.mpr ⟨b.toNat, List.mem_range.mpr b.isLt, ?_⟩
  rw [leafOf, BitVec.ofNat_toNat, BitVec.setWidth_eq, if_pos h]

/-- The merges leave the Leaves. -/
theorem enodeAt_buildTree_leaf {freq : Table Word 256} {i : Nat} (hi : i < (leavesOf freq).length) :
    enodeAt (buildTree freq).enode i = (leavesOf freq)[i] := by
  have hn := encNsym_le freq
  have hlen := leavesOf_length freq
  rw [buildTree_eq_builderAfter, enodeAt_builderAfter_of_lt freq (Nat.zero_le _) (by omega)]
  exact enodeAt_arenaOf_of_lt hi (by omega)

theorem exists_leaf_of_symbol {freq : Table Word 256} {b : Byte} (h : freqAt freq b ≠ 0) :
    ∃ i, i < encNsym freq ∧ enodeAt (buildTree freq).enode i = ENode.mkLeaf b (freqAt freq b) := by
  obtain ⟨i, hi, hleaf⟩ := List.getElem_of_mem (mkLeaf_mem_leavesOf h)
  exact ⟨i, leavesOf_length freq ▸ hi, (enodeAt_buildTree_leaf hi).trans hleaf⟩

/-- Settles O36: the sizes fit their registers, the merges leave the Leaves, and BUILD writes nothing but the tree. -/
theorem buildCompletes : Obligations.BuildCompletes := by
  intro s n hpos
  have exec := exec_build hpos
  exact ⟨_, exec, ⟨rfl, rfl, rfl⟩, built_encNodes s, built_encRoot s, fun _ => exists_leaf_of_symbol,
    commandsKeepTheirOperands _ _ _ exec, rfl, rfl, ⟨rfl, rfl, rfl, rfl, rfl⟩, ⟨rfl, rfl, fun _ => rfl⟩, rfl⟩

/-! ### The merges -/

theorem BeforeMerge.less_iff {freq : Table Word 256} {m : Nat} {b : Builder} (h : BeforeMerge freq m b) {i j : Nat}
    (hi : i ∈ b.live) (hj : j ∈ b.live) :
    keyOf b.enode i < keyOf b.enode j ↔
      weightAt (buildTree freq).enode i < weightAt (buildTree freq).enode j ∨
        (weightAt (buildTree freq).enode i = weightAt (buildTree freq).enode j ∧ i < j) := by
  rw [← h.keyOf_older (h.forest.older i hi), ← h.keyOf_older (h.forest.older j hj), keyOf_lt_iff]

/-- Settles O38: the live set of a merge holds the nodes that no earlier one took, and the two that it takes have the least
keys there. -/
theorem buildMergesTheLeastKeys : Obligations.BuildMergesTheLeastKeys := by
  intro s t n left right weight less free hpos ht m hm hlt
  have built : t.enode = (buildTree s.freq).enode := by rw [eq_built_of_exec hpos ht]; rfl
  obtain ⟨b, merge⟩ := exists_beforeMerge hm hlt
  have first_live := b.first_mem merge.two_live
  have second_live := b.second_mem merge.two_live
  have free_iff (i : Nat) : free m i ↔ i ∈ b.live := by
    rw [merge.mem_live_iff, ← built]
    simp only [free, left, right, n, IsParent, not_and, not_or, ne_eq]
  have left_eq : left m = b.first := by rw [← merge.left_eq, ← built]
  have right_eq : right m = b.second := by rw [← merge.right_eq, ← built]
  have less_of_key {i j : Nat} (hi : i ∈ b.live) (hj : j ∈ b.live) (h : keyOf b.enode i < keyOf b.enode j) :
      less i j := by
    have := (merge.less_iff hi hj).mp h
    rwa [← built] at this
  simp only [free_iff, left_eq, right_eq]
  refine ⟨first_live, second_live, b.first_ne_second merge.two_live merge.forest.nodup, fun i hi => ?_, fun i hi => ?_⟩
  · exact (b.first_least hi).imp_right (less_of_key first_live hi)
  · exact (b.second_least hi).imp_right (Or.imp_right (less_of_key second_live hi))

/-! ### The weights -/

/-- The Leaves weigh what the frequencies add up to. -/
theorem sum_weightAt_leaves (freq : Table Word 256) :
    ∑ i ∈ Finset.range (encNsym freq), weightAt (buildTree freq).enode i = freqSum freq := by
  rw [← leavesOf_weight_sum, ← leavesOf_length, Finset.sum_range, ← List.sum_ofFn]
  congr 1
  apply List.ext_getElem
  · simp
  · intro i h1 h2
    have hi : i < (leavesOf freq).length := by simpa using h2
    simp [weightAt, enodeAt_buildTree_leaf hi]

/-- Settles O37: the forest that the merges join is a tree; no weight wraps, so that each Internal node shares its weight out
among its children, and the root its weight among the Leaves; and the LEFT child was extracted first. -/
theorem buildMakesTree : Obligations.BuildMakesTree := by
  intro s t n hpos hsum ht
  have built : t.enode = (buildTree s.freq).enode := by rw [eq_built_of_exec hpos ht]; rfl
  have tree := buildTree_isEncTree hpos
  have weights {m : Nat} (hm : n ≤ m) (hlt : m < 2 * n - 1) :
      weightAt t.enode m =
        weightAt t.enode (enodeAt t.enode m).left.toNat + weightAt t.enode (enodeAt t.enode m).right.toNat := by
    obtain ⟨b, merge⟩ := exists_beforeMerge hm hlt
    rw [built, merge.left_eq, merge.right_eq]
    exact merge.weightAt_made hsum
  refine ⟨built ▸ tree, fun m hm hlt => ⟨weights hm hlt, ?_⟩, ?_⟩
  · obtain ⟨-, freeRight, different, least, -⟩ := buildMergesTheLeastKeys s t hpos ht m hm hlt
    obtain same | lighter | ⟨equal, -⟩ := least _ freeRight
    · exact absurd same.symm different
    · exact lighter.le
    · exact equal.le
  · calc weightAt t.enode (2 * n - 2)
        = ∑ i ∈ Finset.range n, weightAt t.enode i :=
          ((built ▸ tree).sum_leaves_eq_root _ fun m hm hlt => (weights hm hlt).symm).symm
      _ = freqSum s.freq := built ▸ sum_weightAt_leaves s.freq

end Sys2Proof.Machine
end

section
/-! SUPPORT. GENCODES reaches every Leaf, so that its table has the code of each Leaf and no other; and these codes are
complete (42_encoder_front.md R240 to R243). -/

namespace Sys2Proof.Machine

open Sys2Proof

/-! ### The traversal reaches every Leaf -/

theorem codeAt_set_ofPath_valid {code : Table CodeEntry 256} {b : Byte} (c : Byte) (p : List Bool)
    (h : (codeAt code b).valid = true) : (codeAt (code.set c.toNat (CodeEntry.ofPath p)) b).valid = true := by
  rw [codeAt_set]
  split
  · rfl
  · exact h

/-- The traversal takes no code away. -/
theorem visit_keeps_valid (enode : Table ENode 511) (fuel i : Nat) (p : List Bool) {code : Table CodeEntry 256} {b : Byte}
    (h : (codeAt code b).valid = true) : (codeAt (visit enode fuel i p code) b).valid = true := by
  induction fuel generalizing i p code with
  | zero => exact h
  | succ fuel ih =>
    rw [visit]
    split
    · exact codeAt_set_ofPath_valid _ _ h
    · exact ih _ _ (ih _ _ h)

/-- The traversal from a node gives a code to the symbol of every Leaf below it that its fuel can reach. -/
theorem visit_valid {enode : Table ENode 511} {fuel i j : Nat} {q : List Bool} (p : List Bool) (code : Table CodeEntry 256)
    (hq : nodeOnPath enode i q = some j) (leaf : (enodeAt enode j).leaf = true) (hfuel : q.length < fuel) :
    (codeAt (visit enode fuel i p code) (enodeAt enode j).sym).valid = true := by
  induction q generalizing fuel i p code with
  | nil =>
    obtain ⟨fuel, rfl⟩ := Nat.exists_eq_add_one_of_ne_zero (Nat.ne_of_gt hfuel)
    cases hq
    rw [visit, if_pos leaf, codeAt_set, if_pos rfl]
    rfl
  | cons b q ih =>
    obtain ⟨fuel, rfl⟩ := Nat.exists_eq_add_one_of_ne_zero (Nat.ne_zero_of_lt hfuel)
    have rest : q.length < fuel := Nat.lt_of_succ_lt_succ hfuel
    rw [nodeOnPath] at hq
    split at hq
    · cases hq
    · next notLeaf =>
      rw [visit, if_neg notLeaf]
      cases b with
      | false => exact visit_keeps_valid _ _ _ _ (ih _ _ hq rest)
      | true => exact ih _ _ hq rest

/-! ### The codes of the Leaves -/

namespace IsEncTree

variable {enode : Table ENode 511} {n : Nat}

theorem lt_of_leaf (tree : IsEncTree enode n) {i : Nat} (hi : i < 2 * n - 1) (leaf : (enodeAt enode i).leaf = true) :
    i < n := by
  obtain ⟨-, -, -, -, internals, -⟩ := tree
  by_contra hn
  obtain ⟨-, notLeaf, -⟩ := internals i (Nat.le_of_not_lt hn) hi
  rw [leaf] at notLeaf
  cases notLeaf

theorem isLeaf (tree : IsEncTree enode n) {i : Nat} (hi : i < n) : (enodeAt enode i).leaf = true := by
  obtain ⟨-, -, leaves, -⟩ := tree
  obtain ⟨-, leaf, -⟩ := leaves i hi
  exact leaf

/-- The Leaves have different symbols, as they stand in ascending order. -/
theorem symbol_injOn (tree : IsEncTree enode n) :
    Set.InjOn (fun i => (enodeAt enode i).sym.toNat) (Finset.range n : Set Nat) := by
  obtain ⟨-, -, -, rising, -⟩ := tree
  intro i hi j hj (same : (enodeAt enode i).sym.toNat = (enodeAt enode j).sym.toNat)
  have hi := Finset.mem_range.mp hi
  have hj := Finset.mem_range.mp hj
  obtain less | equal | greater := Nat.lt_trichotomy i j
  · exact absurd same (Nat.ne_of_lt (rising i j less hj))
  · exact equal
  · exact absurd same (Nat.ne_of_gt (rising j i greater hi))

theorem rootInternal (tree : IsEncTree enode n) (hn : n ≠ 1) : (enodeAt enode (2 * n - 2)).leaf = false := by
  obtain ⟨hpos, -, -, -, internals, -⟩ := tree
  obtain ⟨-, notLeaf, -⟩ := internals (2 * n - 2) (by omega) (by omega)
  exact notLeaf

end IsEncTree

/-- The code of Leaf `i` in a tree of `n` Leaves: its path from the root, or "0" if it is alone (42_encoder_front.md R241,
R242). -/
def IsLeafCode (enode : Table ENode 511) (n i : Nat) (p : List Bool) : Prop :=
  (n = 1 → p = [false]) ∧ (n ≠ 1 → nodeOnPath enode (2 * n - 2) p = some i)

theorem IsLeafCode.length_bounds {enode : Table ENode 511} {n i : Nat} {p : List Bool} (h : IsLeafCode enode n i p)
    (tree : IsEncTree enode n) (hi : i < n) : 1 ≤ p.length ∧ p.length ≤ if n = 1 then 1 else n - 1 := by
  obtain ⟨lone, path⟩ := h
  by_cases hn : n = 1
  · simp [lone hn, hn]
  · have bounds := tree.path_bounds (path hn)
    have nonempty : p ≠ [] := by
      rintro rfl
      have root : 2 * n - 2 = i := Option.some.inj (path hn)
      omega
    have hpos := List.length_pos_iff.mpr nonempty
    rw [if_neg hn]
    omega

/-- `code` has for the symbol of each of the `n` Leaves its code, and no other codes. -/
structure HasLeafCodes (enode : Table ENode 511) (n : Nat) (code : Table CodeEntry 256) : Prop where
  leaf : ∀ i, i < n → (codeAt code (enodeAt enode i).sym).valid = true ∧
    IsLeafCode enode n i (codeAt code (enodeAt enode i).sym).path
  other : ∀ b, (∀ i, i < n → (enodeAt enode i).sym ≠ b) → codeAt code b = CodeEntry.none

/-- The code table of a single Leaf has the one code "0". -/
theorem hasLeafCodes_lone (enode : Table ENode 511) :
    HasLeafCodes enode 1 ((Table.fill 256 CodeEntry.none).set (enodeAt enode 0).sym.toNat (CodeEntry.ofPath [false])) where
  leaf i hi := by
    obtain rfl : i = 0 := by omega
    rw [codeAt_set, if_pos rfl]
    exact ⟨rfl, fun _ => path_ofPath (by simp), fun hn => absurd rfl hn⟩
  other b hb := by
    rw [codeAt_set, if_neg (hb 0 Nat.one_pos).symm, codeAt_fill_none]

/-- A table of paths to Leaves with a code for every Leaf has the codes of the Leaves. -/
theorem CodesFromTree.hasLeafCodes {enode : Table ENode 511} {n : Nat} {code : Table CodeEntry 256}
    (h : CodesFromTree enode (2 * n - 2) code) (tree : IsEncTree enode n) (hn : n ≠ 1)
    (all : ∀ i, i < n → (codeAt code (enodeAt enode i).sym).valid = true) : HasLeafCodes enode n code := by
  have leafOf {b : Byte} (hb : (codeAt code b).valid = true) :
      ∃ j, j < n ∧ (enodeAt enode j).sym = b ∧ nodeOnPath enode (2 * n - 2) (codeAt code b).path = some j := by
    obtain ⟨j, hpath, leaf, hsym⟩ := h.path_of_valid hb
    exact ⟨j, tree.lt_of_leaf (tree.lt_of_path hpath) leaf, hsym, hpath⟩
  constructor
  case leaf =>
    intro i hi
    obtain ⟨j, hj, hsym, hpath⟩ := leafOf (all i hi)
    have same : j = i := tree.symbol_injOn (by simpa using hj) (by simpa using hi) (congrArg BitVec.toNat hsym)
    exact ⟨all i hi, fun hone => absurd hone hn, fun _ => same ▸ hpath⟩
  case other =>
    intro b hb
    obtain hnone | ⟨p, -, -, hp, -⟩ := h b
    · exact hnone
    · obtain ⟨j, hj, hsym, -⟩ := leafOf (b := b) (by rw [hp]; rfl)
      exact absurd hsym (hb j hj)

/-- GENCODES makes the codes of the Leaves. -/
theorem codesOf_hasLeafCodes {enode : Table ENode 511} {n : Nat} (tree : IsEncTree enode n) :
    HasLeafCodes enode n (codesOf enode (2 * n - 2)) := by
  obtain ⟨hpos, hn256, -⟩ := id tree
  by_cases hn : n = 1
  · subst hn
    rw [codesOf, if_pos (tree.isLeaf Nat.one_pos)]
    exact hasLeafCodes_lone enode
  · have root := tree.rootInternal hn
    have fromTree : CodesFromTree enode (2 * n - 2) (visit enode 511 (2 * n - 2) [] (Table.fill 256 CodeEntry.none)) :=
      visit_codesFromTree tree root rfl (by simp) (by simp) (codesFromTree_none _ _)
    rw [codesOf, if_neg (by simp [root])]
    refine fromTree.hasLeafCodes tree hn fun i hi => ?_
    obtain ⟨p, hp⟩ := tree.exists_path (show i < 2 * n - 1 by omega)
    have bounds := tree.path_bounds hp
    exact visit_valid [] _ hp (tree.isLeaf hi) (by omega)

namespace HasLeafCodes

variable {enode : Table ENode 511} {n : Nat} {code : Table CodeEntry 256}

theorem exists_leaf_of_valid (h : HasLeafCodes enode n code) {b : Byte} (hb : (codeAt code b).valid = true) :
    ∃ i, i < n ∧ (enodeAt enode i).sym = b := by
  by_contra absent
  rw [h.other b fun i hi hsym => absent ⟨i, hi, hsym⟩] at hb
  cases hb

theorem valid_iff (h : HasLeafCodes enode n code) (b : Byte) :
    (codeAt code b).valid = true ↔ ∃ i, i < n ∧ (enodeAt enode i).sym = b := by
  constructor
  · exact h.exists_leaf_of_valid
  · rintro ⟨i, hi, rfl⟩
    exact (h.leaf i hi).1

theorem eq_none_of_not_valid (h : HasLeafCodes enode n code) {b : Byte} (hb : (codeAt code b).valid = false) :
    codeAt code b = CodeEntry.none := by
  refine h.other b fun i hi hsym => ?_
  rw [(h.valid_iff b).mpr ⟨i, hi, hsym⟩] at hb
  cases hb

end HasLeafCodes

/-- ENC_NODES of a tree is not 0, so that GENCODES runs. -/
theorem exec_gencodes_tree {s : State} {n : Nat} (tree : IsEncTree s.enode n) (hnodes : s.encNodes.toNat = 2 * n - 1)
    (hroot : s.encRoot.toNat = 2 * n - 2) :
    exec .gencodes s = .next (completeOk { s with code := codesOf s.enode (2 * n - 2) }) := by
  obtain ⟨hpos, -⟩ := tree
  have nonzero : s.encNodes ≠ 0 := by
    intro hzero
    rw [hzero] at hnodes
    have : (0 : BitVec 10).toNat = 0 := rfl
    omega
  rw [exec_gencodes nonzero, hroot]

/-- Settles O40: the traversal writes a path to a Leaf for its symbol, and reaches every Leaf. -/
theorem gencodesRecordsRootPaths : Obligations.GencodesRecordsRootPaths := by
  intro s n tree hnodes hroot
  have exec := exec_gencodes_tree tree hnodes hroot
  have codes := codesOf_hasLeafCodes tree
  obtain ⟨entryOk, -⟩ := codesOf_codeTableOk tree
  refine ⟨_, exec, ⟨rfl, rfl, rfl⟩, codes.valid_iff, fun b => codes.eq_none_of_not_valid, fun b hb => ?_,
    commandsKeepTheirOperands _ _ _ exec, rfl, ⟨rfl, rfl, rfl⟩, ⟨rfl, rfl, rfl, rfl, rfl⟩, ⟨rfl, rfl, fun _ => rfl⟩, rfl⟩
  obtain ⟨i, hi, rfl⟩ := codes.exists_leaf_of_valid hb
  obtain ⟨-, lone, path⟩ := codes.leaf i hi
  exact ⟨(codesOf_codeTableOk tree).1 _, lone, fun hn => ⟨i, hi, rfl, path (by omega)⟩⟩

/-! ### The codes are complete -/

/-- Half of a node's share of 2^255 goes to each of its children, so that the Leaves have it all together. -/
theorem IsEncTree.sum_two_pow_paths {enode : Table ENode 511} {n : Nat} (tree : IsEncTree enode n) {path : Nat → List Bool}
    (hpath : ∀ i, i < 2 * n - 1 → nodeOnPath enode (2 * n - 2) (path i) = some i) :
    ∑ i ∈ Finset.range n, 2 ^ (255 - (path i).length) = 2 ^ 255 := by
  obtain ⟨hpos, hn256, -, -, internals, -⟩ := id tree
  have half {m : Nat} (hm : n ≤ m) (hlt : m < 2 * n - 1) (b : Bool) :
      2 ^ (255 - (path m).length) = 2 ^ (255 - (path (childAt enode m b)).length) * 2 := by
    have child := tree.path_child hm hlt (hpath m hlt) b
    have bounds := tree.path_bounds child
    rw [tree.path_unique (hpath _ (tree.lt_of_path child)) child, ← Nat.pow_succ]
    rw [List.length_append, List.length_singleton] at bounds ⊢
    congr 1
    omega
  have root : path (2 * n - 2) = [] := tree.path_unique (hpath _ (by omega)) rfl
  calc ∑ i ∈ Finset.range n, 2 ^ (255 - (path i).length)
      = 2 ^ (255 - (path (2 * n - 2)).length) :=
        tree.sum_leaves_eq_root (fun i => 2 ^ (255 - (path i).length)) fun m hm hlt => by
          have left := half hm hlt false
          have right := half hm hlt true
          simp only [childAt, Bool.false_eq_true, if_false, if_true] at left right
          omega
    _ = 2 ^ 255 := by rw [root]; rfl

theorem code_entries_eq_map (code : Table CodeEntry 256) :
    code.entries = (List.range 256).map fun s => codeAt code (BitVec.ofNat 8 s) := by
  apply List.ext_getElem
  · simp [code.size_eq]
  · intro i h1 h2
    have hi : i < 256 := by simpa using h2
    simp [codeAt, Table.get, Nat.mod_eq_of_lt hi, h1]

theorem CodeEntry.path_length (e : CodeEntry) : e.path.length = e.len.toNat := by simp [CodeEntry.path]

/-- A sum over the entries of CODE that counts nothing for an absent code is a sum over the Leaves. -/
theorem HasLeafCodes.sum_entries {enode : Table ENode 511} {n : Nat} {code : Table CodeEntry 256}
    (h : HasLeafCodes enode n code) (tree : IsEncTree enode n) {f : CodeEntry → Nat} (hf : f CodeEntry.none = 0) :
    (code.entries.map f).sum = ∑ i ∈ Finset.range n, f (codeAt code (enodeAt enode i).sym) := by
  rw [code_entries_eq_map, List.map_map]
  refine (Finset.sum_of_injOn (t := Finset.range 256) (g := fun s => f (codeAt code (BitVec.ofNat 8 s)))
    (fun i => (enodeAt enode i).sym.toNat) tree.symbol_injOn ?_ ?_ ?_).symm
  · exact fun i _ => by simpa using (enodeAt enode i).sym.isLt
  · intro s hs absent
    have hs := Finset.mem_range.mp hs
    rw [h.other _ fun i hi hsym => absent ⟨i, by simpa using hi, ?_⟩, hf]
    simp only [hsym, BitVec.toNat_ofNat]
    exact Nat.mod_eq_of_lt hs
  · intro i _
    simp

theorem countP_eq_sum_map {α : Type} (p : α → Bool) (l : List α) :
    l.countP p = (l.map fun a => if p a then 1 else 0).sum := by
  induction l with
  | nil => rfl
  | cons a l ih => rw [List.countP_cons, ih, List.map_cons, List.sum_cons, Nat.add_comm]

theorem HasLeafCodes.codeCount_eq {enode : Table ENode 511} {n : Nat} {code : Table CodeEntry 256}
    (h : HasLeafCodes enode n code) (tree : IsEncTree enode n) : codeCount code = n := by
  rw [codeCount, countP_eq_sum_map, h.sum_entries tree (if_neg (by simp [CodeEntry.none])),
    Finset.sum_congr rfl fun i hi => if_pos (h.leaf i (Finset.mem_range.mp hi)).1]
  simp

theorem HasLeafCodes.kraftSum_eq {enode : Table ENode 511} {n : Nat} {code : Table CodeEntry 256}
    (h : HasLeafCodes enode n code) (tree : IsEncTree enode n) :
    kraftSum code = if n = 1 then 2 ^ 254 else 2 ^ 255 := by
  obtain ⟨hpos, -⟩ := id tree
  rw [kraftSum, h.sum_entries tree (if_neg (by simp [CodeEntry.none])),
    Finset.sum_congr rfl fun i hi => by rw [if_pos (h.leaf i (Finset.mem_range.mp hi)).1, ← CodeEntry.path_length]]
  by_cases hn : n = 1
  · subst hn
    obtain ⟨-, lone, -⟩ := h.leaf 0 Nat.one_pos
    rw [Finset.sum_range_one, lone rfl]
    rfl
  · rw [if_neg hn]
    have paths : ∀ i, ∃ p, i < 2 * n - 1 → nodeOnPath enode (2 * n - 2) p = some i := fun i => by
      by_cases hi : i < 2 * n - 1
      · exact (tree.exists_path hi).imp fun _ hp _ => hp
      · exact ⟨[], fun hlt => absurd hlt hi⟩
    choose path hpath using paths
    rw [← tree.sum_two_pow_paths hpath]
    refine Finset.sum_congr rfl fun i hi => ?_
    have hi := Finset.mem_range.mp hi
    obtain ⟨-, -, codePath⟩ := h.leaf i hi
    rw [tree.path_unique (codePath hn) (hpath i (by omega))]

/-- Settles O41: a path to a Leaf goes no further, so no code begins another; and half of each node's share of the Kraft sum
goes to each of its children. -/
theorem gencodesIsACompletePrefixCode : Obligations.GencodesIsACompletePrefixCode := by
  intro s t n tree hnodes hroot ht
  have codes := codesOf_hasLeafCodes tree
  have made : t.code = codesOf s.enode (2 * n - 2) := by
    rw [exec_gencodes_tree tree hnodes hroot] at ht
    cases ht
    rfl
  obtain ⟨-, prefixFree⟩ := codesOf_codeTableOk tree
  rw [made]
  refine ⟨codes.codeCount_eq tree, prefixFree, fun b hb => ?_, codes.kraftSum_eq tree⟩
  obtain ⟨i, hi, rfl⟩ := codes.exists_leaf_of_valid hb
  obtain ⟨-, leafCode⟩ := codes.leaf i hi
  rw [← CodeEntry.path_length]
  exact leafCode.length_bounds tree hi

end Sys2Proof.Machine
end

section
/-! SUPPORT. The bit packer: after any bits of the input its output is the header and their full payload bytes, and its
accumulator the begun one (43_encoder_frame.md R264; 30_encoding.md R164, R165). -/

namespace Sys2Proof.Machine

open Sys2Proof

/-! ### Outputs as byte strings -/

/-- The output of capacity `room` that holds `bytes`. -/
def Sink.holding (room : Nat) (bytes : List Byte) : Sink := ⟨room, bytes.length, bytes.reverse⟩

@[simp] theorem Sink.bytes_holding (room : Nat) (bytes : List Byte) : (Sink.holding room bytes).bytes = bytes :=
  List.reverse_reverse bytes

/-- DST_OVERFLOW, which is raised when all `room` bytes of the output are written (43_encoder_frame.md R261). -/
def overflow (room : Nat) : Stop := ⟨room, errorAt .dstOverflow room⟩

theorem putAll_holding {room : Nat} {held : List Byte} (bytes : List Byte) (h : held.length ≤ room) :
    putAll bytes (Sink.holding room held) =
      if (held ++ bytes).length ≤ room then .ok (Sink.holding room (held ++ bytes)) else .error (overflow room) := by
  rw [putAll_eq bytes (Sink.holding room held) h, Sink.holding, List.length_append]
  split <;> simp [Sink.holding, overflow]

theorem put_holding {room : Nat} {held : List Byte} (b : Byte) (h : held.length ≤ room) :
    put b (Sink.holding room held) =
      if held.length + 1 ≤ room then .ok (Sink.holding room (held ++ [b])) else .error (overflow room) := by
  have one := putAll_holding [b] h
  rw [List.length_append, List.length_singleton] at one
  rw [← one]
  simp only [putAll]
  cases put b (Sink.holding room held) <;> rfl

/-! ### The payload byte under construction -/

theorem payloadByte_getLsbD (bits : List Bool) (j : Nat) {i : Nat} (hi : i < 8) :
    (payloadByte bits j).getLsbD i = bits.getD (8 * j + (7 - i)) false := by
  rw [payloadByte_eq_natOfPath, BitVec.getLsbD_ofNat, natOfPath_testBit]
  simp [hi]

/-- A byte that the bits fill does not depend on the bits after them. -/
theorem payloadByte_append_full {bits : List Bool} (more : List Bool) {j : Nat} (hj : j < bits.length / 8) :
    payloadByte (bits ++ more) j = payloadByte bits j := by
  apply BitVec.eq_of_getLsbD_eq
  intro i hi
  rw [payloadByte_getLsbD _ _ hi, payloadByte_getLsbD _ _ hi, List.getD_append _ _ _ _ (by omega)]

/-- One more bit goes below those of the begun byte. -/
theorem payloadByte_concat (bits : List Bool) (b : Bool) :
    payloadByte (bits ++ [b]) (bits.length / 8) >>> (7 - bits.length % 8) =
      ((payloadByte bits (bits.length / 8) >>> (8 - bits.length % 8)) <<< 1) ||| (if b then 1 else 0) := by
  apply BitVec.eq_of_getLsbD_eq
  intro i hi
  rw [BitVec.getLsbD_ushiftRight, BitVec.getLsbD_or, BitVec.getLsbD_shiftLeft, BitVec.getLsbD_ushiftRight]
  cases i with
  | zero =>
    have last : 8 * (bits.length / 8) + (7 - (7 - bits.length % 8 + 0)) = bits.length := by omega
    rw [payloadByte_getLsbD _ _ (by omega), last]
    cases b <;> simp
  | succ i =>
    have notLast : (if b then 1 else 0 : Byte).getLsbD (i + 1) = false := by cases b <;> simp
    rw [notLast]
    by_cases below : 8 - bits.length % 8 + i < 8
    · have same : 7 - bits.length % 8 + (i + 1) = 8 - bits.length % 8 + i := by omega
      rw [same, payloadByte_getLsbD _ _ below, payloadByte_getLsbD _ _ (by omega), List.getD_append _ _ _ _ (by omega)]
      simp [hi]
    · rw [BitVec.getLsbD_of_ge _ _ (by omega), BitVec.getLsbD_of_ge _ _ (by omega)]
      simp

/-- The bits of a begun byte stand at its top, above the padding. -/
theorem payloadByte_shiftRight_shiftLeft (bits : List Bool) :
    (payloadByte bits (bits.length / 8) >>> (8 - bits.length % 8)) <<< (8 - bits.length % 8) =
      payloadByte bits (bits.length / 8) := by
  apply BitVec.eq_of_getLsbD_eq
  intro i hi
  rw [BitVec.getLsbD_shiftLeft, BitVec.getLsbD_ushiftRight]
  by_cases padding : i < 8 - bits.length % 8
  · rw [payloadByte_getLsbD _ _ hi, List.getD_eq_default _ _ (by omega)]
    simp [padding]
  · rw [Nat.add_sub_cancel' (Nat.le_of_not_lt padding)]
    simp [padding, hi]

/-- The payload bytes that the bits fill. -/
def fullBytes (bits : List Bool) : List Byte := (List.range (bits.length / 8)).map (payloadByte bits)

@[simp] theorem fullBytes_length (bits : List Bool) : (fullBytes bits).length = bits.length / 8 := by simp [fullBytes]

/-- A bit fills the begun byte, or no byte. -/
theorem fullBytes_concat (bits : List Bool) (b : Bool) :
    fullBytes (bits ++ [b]) =
      fullBytes bits ++ if bits.length % 8 + 1 = 8 then [payloadByte (bits ++ [b]) (bits.length / 8)] else [] := by
  have kept : (List.range (bits.length / 8)).map (payloadByte (bits ++ [b])) = fullBytes bits :=
    List.map_congr_left fun j hj => payloadByte_append_full _ (List.mem_range.mp hj)
  rw [fullBytes, List.length_append, List.length_singleton]
  split
  · rw [show (bits.length + 1) / 8 = bits.length / 8 + 1 by omega, List.range_succ, List.map_append, kept]
    rfl
  · rw [show (bits.length + 1) / 8 = bits.length / 8 by omega, kept, List.append_nil]

/-- The payload is the full bytes and the begun one. -/
theorem payloadBytes_eq_fullBytes (bits : List Bool) :
    payloadBytes bits = fullBytes bits ++ if bits.length % 8 = 0 then [] else [payloadByte bits (bits.length / 8)] := by
  rw [payloadBytes, fullBytes]
  split
  · rw [show (bits.length + 7) / 8 = bits.length / 8 by omega, List.append_nil]
  · rw [show (bits.length + 7) / 8 = bits.length / 8 + 1 by omega, List.range_succ, List.map_append]
    rfl

/-! ### The packer -/

/-- The packer after `bits`, over an output of capacity `room` that began with `header` (43_encoder_frame.md R264). -/
def Packer.after (room : Nat) (header : List Byte) (bits : List Bool) : Packer where
  acc := payloadByte bits (bits.length / 8) >>> (8 - bits.length % 8)
  cnt := bits.length % 8
  total := bits.length
  sink := Sink.holding room (header ++ fullBytes bits)

/-- What packing answers when it comes to `bits`: the packer there, or DST_OVERFLOW when their full bytes do not fit. -/
def Packer.reach (room : Nat) (header : List Byte) (bits : List Bool) : Except Stop Packer :=
  if header.length + bits.length / 8 ≤ room then .ok (Packer.after room header bits) else .error (overflow room)

theorem packer_start (room : Nat) (header : List Byte) :
    Packer.after room header [] = ⟨0, 0, 0, Sink.holding room header⟩ := by
  have begun : payloadByte [] 0 >>> 8 = 0 := by decide
  simp [Packer.after, fullBytes, begun]

section

variable {room : Nat} {header : List Byte} {bits : List Bool}

theorem Packer.reach_fits (h : header.length + bits.length / 8 ≤ room) :
    Packer.reach room header bits = .ok (Packer.after room header bits) := if_pos h

theorem Packer.reach_full (h : room < header.length + bits.length / 8) :
    Packer.reach room header bits = .error (overflow room) := if_neg (Nat.not_le.mpr h)

/-- Bits that do not fit are in the way of all that come after them. -/
theorem Packer.reach_append_full (h : room < header.length + bits.length / 8) (more : List Bool) :
    Packer.reach room header (bits ++ more) = .error (overflow room) :=
  Packer.reach_full (by rw [List.length_append]; omega)

theorem packBit_after (h : header.length + bits.length / 8 ≤ room) (b : Bool) :
    packBit b (Packer.after room header bits) = Packer.reach room header (bits ++ [b]) := by
  have held : (header ++ fullBytes bits).length ≤ room := by simpa using h
  have length : (bits ++ [b]).length = bits.length + 1 := by simp
  have begun := payloadByte_concat bits b
  have full := fullBytes_concat bits b
  by_cases last : bits.length % 8 + 1 = 8
  · have index : (bits.length + 1) / 8 = bits.length / 8 + 1 := by omega
    rw [show 7 - bits.length % 8 = 0 by omega, BitVec.ushiftRight_zero] at begun
    rw [if_pos last] at full
    have next : Packer.after room header (bits ++ [b]) = ⟨0, 0, bits.length + 1, Sink.holding room
        (header ++ fullBytes bits ++ [payloadByte (bits ++ [b]) (bits.length / 8)])⟩ := by
      have rest : (bits.length + 1) % 8 = 0 := by omega
      have cleared (v : Byte) : v >>> 8 = 0 := BitVec.ushiftRight_eq_zero (Nat.le_refl _)
      simp [Packer.after, rest, full, cleared]
    rw [Packer.reach, next, length, index, packBit]
    simp only [Packer.after, if_pos last, ← begun, put_holding _ held, List.length_append, fullBytes_length,
      ← Nat.add_assoc]
    by_cases fits : header.length + bits.length / 8 + 1 ≤ room
    · rw [if_pos fits, if_pos fits]
    · rw [if_neg fits, if_neg fits]
  · have index : (bits.length + 1) / 8 = bits.length / 8 := by omega
    have rest : (bits.length + 1) % 8 = bits.length % 8 + 1 := by omega
    rw [if_neg last, List.append_nil] at full
    simp only [packBit, Packer.reach, Packer.after, if_neg last, ← begun, full, length, index, rest, if_pos h,
      Nat.reduceSubDiff]

theorem packBits_after (h : header.length + bits.length / 8 ≤ room) (more : List Bool) :
    packBits more (Packer.after room header bits) = Packer.reach room header (bits ++ more) := by
  induction more generalizing bits with
  | nil => rw [packBits, List.append_nil, Packer.reach_fits h]
  | cons b more ih =>
    rw [packBits, packBit_after h, List.append_cons bits b more]
    by_cases fits : header.length + (bits ++ [b]).length / 8 ≤ room
    · rw [Packer.reach_fits fits]
      exact ih fits
    · rw [Packer.reach_append_full (Nat.not_le.mp fits), Packer.reach_full (Nat.not_le.mp fits)]

/-- The codes of input bytes that all have one are packed in turn (43_encoder_frame.md R264). -/
theorem packInput_append {code : Table CodeEntry 256} {bytes : List Byte}
    (valid : ∀ b ∈ bytes, (codeAt code b).valid = true) (h : header.length + bits.length / 8 ≤ room) (j : Nat)
    (rest : List Byte) :
    packInput code j (bytes ++ rest) (Packer.after room header bits) =
      Packer.reach room header (bits ++ messageBits code bytes) >>= packInput code (j + bytes.length) rest := by
  induction bytes generalizing bits j with
  | nil =>
    have nothing : messageBits code [] = [] := rfl
    rw [nothing, List.append_nil, Packer.reach_fits h]
    rfl
  | cons b bytes ih =>
    obtain ⟨hb, hbytes⟩ := List.forall_mem_cons.mp valid
    have message : messageBits code (b :: bytes) = (codeAt code b).path ++ messageBits code bytes := rfl
    simp only [List.cons_append, packInput, if_pos hb, packBits_after h]
    rw [message, ← List.append_assoc]
    by_cases fits : header.length + (bits ++ (codeAt code b).path).length / 8 ≤ room
    · rw [Packer.reach_fits fits, List.length_cons, Nat.add_comm bytes.length, ← Nat.add_assoc]
      exact ih hbytes fits (j + 1)
    · rw [Packer.reach_append_full (Nat.not_le.mp fits), Packer.reach_full (Nat.not_le.mp fits)]
      rfl

theorem packInput_after {code : Table CodeEntry 256} {bytes : List Byte}
    (valid : ∀ b ∈ bytes, (codeAt code b).valid = true) (h : header.length + bits.length / 8 ≤ room) (j : Nat) :
    packInput code j bytes (Packer.after room header bits) =
      Packer.reach room header (bits ++ messageBits code bytes) := by
  have all := packInput_append valid h j []
  rw [List.append_nil] at all
  rw [all]
  cases Packer.reach room header (bits ++ messageBits code bytes) <;> rfl

/-- A byte without a code ends the packing (43_encoder_frame.md R264). -/
theorem packInput_noCode {code : Table CodeEntry 256} {b : Byte} (hb : (codeAt code b).valid = false) (j : Nat)
    (rest : List Byte) (p : Packer) :
    packInput code j (b :: rest) p = .error ⟨p.sink.written, errorAt .noCode (b.toNat * 2 ^ 24 + j)⟩ := by
  simp [packInput, hb]

/-- The begun byte is put out with its padding (43_encoder_frame.md R264). -/
theorem flushBits_after (h : header.length + bits.length / 8 ≤ room) :
    flushBits (Packer.after room header bits) =
      if (header ++ payloadBytes bits).length ≤ room then
        .ok { Packer.after room header bits with sink := Sink.holding room (header ++ payloadBytes bits) }
      else .error (overflow room) := by
  have held : (header ++ fullBytes bits).length ≤ room := by simpa using h
  rw [payloadBytes_eq_fullBytes]
  by_cases whole : bits.length % 8 = 0
  · have unchanged : flushBits (Packer.after room header bits) = .ok (Packer.after room header bits) := if_pos whole
    rw [unchanged, if_pos whole, List.append_nil, if_pos held]
    rfl
  · have longer : (header ++ (fullBytes bits ++ [payloadByte bits (bits.length / 8)])).length =
        (header ++ fullBytes bits).length + 1 := by simp [Nat.add_assoc]
    simp only [flushBits, Packer.after, if_neg whole, payloadByte_shiftRight_shiftLeft, put_holding _ held, longer,
      List.append_assoc]
    by_cases fits : (header ++ fullBytes bits).length + 1 ≤ room
    · rw [if_pos fits, if_pos fits]
    · rw [if_neg fits, if_neg fits]

end

end Sys2Proof.Machine
end

section
/-! SUPPORT. EMIT writes the frame of the codes and the input (43_encoder_frame.md R262 to R266; 30_encoding.md R160 to
R169). -/

namespace Sys2Proof.Machine

open Sys2Proof

/-! ### The table header -/

/-- The entry of a symbol that has a code (43_encoder_frame.md R263). -/
def codeEntryOf (code : Table CodeEntry 256) (s : Nat) : Option Entry :=
  if (codeAt code (BitVec.ofNat 8 s)).valid then some (BitVec.ofNat 8 s, (codeAt code (BitVec.ofNat 8 s)).path)
  else none

theorem codeEntries_eq_filterMap (code : Table CodeEntry 256) :
    codeEntries code = (List.range 256).filterMap (codeEntryOf code) := rfl

theorem codeEntries_length (code : Table CodeEntry 256) : (codeEntries code).length = codeCount code := by
  rw [codeEntries_eq_filterMap, List.length_filterMap_eq_countP, codeCount, code_entries_eq_map, List.countP_map]
  refine List.countP_congr fun s _ => ?_
  rw [codeEntryOf]
  split <;> simp [*]

theorem entryBytes_eq_frameEntry (sym : Byte) (e : CodeEntry) : entryBytes sym e = frameEntry (sym, e.path) := by
  rw [entryBytes, frameEntry, CodeEntry.path_length]

/-- The header that EMIT puts out is the table of the valid entries of CODE. -/
theorem headerBytes_eq_tableBytes (code : Table CodeEntry 256) : headerBytes code = tableBytes (codeEntries code) := by
  have entries (syms : List Nat) : (syms.flatMap fun s =>
      if (codeAt code (BitVec.ofNat 8 s)).valid then entryBytes (BitVec.ofNat 8 s) (codeAt code (BitVec.ofNat 8 s))
      else []) =
        (syms.filterMap (codeEntryOf code)).flatMap frameEntry := by
    induction syms with
    | nil => rfl
    | cons s syms ih =>
      rw [List.flatMap_cons, ih, List.filterMap_cons, codeEntryOf]
      split <;> simp [entryBytes_eq_frameEntry, *]
  rw [tableBytes_eq, codeEntries_length, codeEntries_eq_filterMap, ← entries]
  rfl

/-! ### The frame -/

theorem frameBytes_length (entries : List Entry) (bits : List Bool) (trailer : Bool) :
    (frameBytes entries bits trailer).length =
      (tableBytes entries).length + (payloadBytes bits).length + if trailer then 8 else 0 := by
  cases trailer <;> simp [frameBytes, Nat.add_assoc]

theorem putTrailer_holding {p : Packer} {room : Nat} {held : List Byte} (hsink : p.sink = Sink.holding room held)
    (h : held.length ≤ room) (trailer : Bool) :
    putTrailer trailer p =
      if (held ++ if trailer then leBytes 8 p.total else []).length ≤ room then
        .ok { p with sink := Sink.holding room (held ++ if trailer then leBytes 8 p.total else []) }
      else .error (overflow room) := by
  cases trailer with
  | false => simp [putTrailer, h, ← hsink]
  | true =>
    simp only [putTrailer, if_true, hsink, putAll_holding _ h]
    by_cases fits : (held ++ leBytes 8 p.total).length ≤ room
    · rw [if_pos fits, if_pos fits]
    · rw [if_neg fits, if_neg fits]

theorem except_ok_bind {ε α β : Type} (a : α) (f : α → Except ε β) : (Except.ok a >>= f) = f a := rfl

/-- EMIT's output starts with its header, and is at its end when that does not fit. -/
theorem emitFrame_header (code : Table CodeEntry 256) (trailer : Bool) (room : Nat) (bytes : List Byte) :
    emitFrame code trailer room bytes =
      if (tableBytes (codeEntries code)).length ≤ room then
        packInput code 0 bytes (Packer.after room (tableBytes (codeEntries code)) []) >>= flushBits >>=
          putTrailer trailer
      else .error (overflow room) := by
  have header : putAll (headerBytes code) (Sink.start room) = _ :=
    putAll_holding (held := []) (headerBytes code) (Nat.zero_le room)
  rw [headerBytes_eq_tableBytes, List.nil_append] at header
  simp only [emitFrame, headerBytes_eq_tableBytes, header, packer_start, bind_assoc]
  split <;> rfl

/-- With a code for every byte EMIT puts out the frame, when it fits. -/
theorem emitFrame_eq {code : Table CodeEntry 256} {bytes : List Byte}
    (valid : ∀ b ∈ bytes, (codeAt code b).valid = true) (trailer : Bool) (room : Nat) :
    emitFrame code trailer room bytes =
      if (frameBytes (codeEntries code) (messageBits code bytes) trailer).length ≤ room then
        .ok { Packer.after room (tableBytes (codeEntries code)) (messageBits code bytes) with
          sink := Sink.holding room (frameBytes (codeEntries code) (messageBits code bytes) trailer) }
      else .error (overflow room) := by
  have length := frameBytes_length (codeEntries code) (messageBits code bytes) trailer
  have whole := payloadBytes_length (messageBits code bytes)
  rw [emitFrame_header]
  by_cases table : (tableBytes (codeEntries code)).length ≤ room
  case neg => rw [if_neg table, if_neg (by omega)]
  rw [if_pos table, packInput_after valid (by simpa using table), List.nil_append]
  by_cases full : (tableBytes (codeEntries code)).length + (messageBits code bytes).length / 8 ≤ room
  case neg =>
    rw [Packer.reach_full (Nat.not_le.mp full), if_neg (by rw [ceil8] at whole; omega)]
    rfl
  rw [Packer.reach_fits full, except_ok_bind, flushBits_after full]
  by_cases payload : (tableBytes (codeEntries code) ++ payloadBytes (messageBits code bytes)).length ≤ room
  case neg =>
    rw [if_neg payload, if_neg (by rw [List.length_append] at payload; omega)]
    rfl
  rw [if_pos payload]
  exact putTrailer_holding rfl payload trailer

/-! ### What EMIT ends in -/

/-- The frame that EMIT makes in state `s` (43_encoder_frame.md R262). -/
def State.frame (s : State) : List Byte :=
  frameBytes (codeEntries s.code) (messageBits s.code (input s)) s.ctrl.trailer

/-- The bit packer when EMIT has made its frame in state `s`. -/
def State.packer (s : State) : Packer :=
  { Packer.after s.cfg.obufBytes (tableBytes (codeEntries s.code)) (messageBits s.code (input s)) with
    sink := Sink.holding s.cfg.obufBytes s.frame }

/-- `s` after EMIT has ended with the packer `p`. -/
def State.emitted (s : State) (p : Packer) : State :=
  { storeOutput p.sink p.total s with work := { s.work with acc := p.acc, accBits := p.cnt } }

theorem emitted_obuf (s : State) : (s.emitted s.packer).obuf = s.obuf.writeOutput s.frame :=
  congrArg s.obuf.writeOutput (Sink.bytes_holding _ _)

theorem emitted_dstLen (s : State) : (s.emitted s.packer).dstLen = BitVec.ofNat 32 s.frame.length := rfl

theorem emitted_payloadBits (s : State) :
    (s.emitted s.packer).payloadBits = BitVec.ofNat 32 (messageBits s.code (input s)).length := rfl

/-- CTRL, the operands and every table are as before. -/
abbrev SameAllTables (s t : State) : Prop :=
  SameOperands s t ∧ t.freq = s.freq ∧ SameEncTree s t ∧ t.code = s.code ∧ SameDecoder s t

theorem completeOk_emitted (s : State) (p : Packer) :
    CompletedOk s (completeOk (s.emitted p)) ∧ SameAllTables s (completeOk (s.emitted p)) :=
  ⟨⟨rfl, rfl, rfl⟩, ⟨rfl, rfl, fun _ => rfl, rfl, rfl, rfl⟩, rfl, ⟨rfl, rfl, rfl⟩, rfl, rfl, rfl, rfl, rfl, rfl⟩

theorem srcFits_iff (s : State) : srcFits s = true ↔ s.srcLen.toNat ≤ s.cfg.ibufBytes := decide_eq_true_iff

theorem exec_emit_tooLong {s : State} (h : s.cfg.ibufBytes < s.srcLen.toNat) :
    exec .emit s = complete (raiseOutput s 0 (srcLenError s)) :=
  (exec_eq_complete .emit s).trans (congrArg complete (if_neg (mt (srcFits_iff s).mp (Nat.not_le.mpr h))))

theorem exec_emit_of_error {s : State} {x : Stop} (hsrc : s.srcLen.toNat ≤ s.cfg.ibufBytes)
    (h : emitFrame s.code s.ctrl.trailer s.cfg.obufBytes (input s) = .error x) :
    exec .emit s = complete (raiseOutput s x.written x.error) := by
  rw [exec_eq_complete, commandBody, emitBody, if_pos ((srcFits_iff s).mpr hsrc), h]

theorem exec_emit_of_ok {s : State} {p : Packer} (hsrc : s.srcLen.toNat ≤ s.cfg.ibufBytes)
    (h : emitFrame s.code s.ctrl.trailer s.cfg.obufBytes (input s) = .ok p) :
    exec .emit s = .next (completeOk (s.emitted p)) := by
  rw [exec_eq_complete, commandBody, emitBody, if_pos ((srcFits_iff s).mpr hsrc), h]
  rfl

theorem exec_emit_fits {s : State} (hsrc : s.srcLen.toNat ≤ s.cfg.ibufBytes)
    (valid : ∀ b ∈ input s, (codeAt s.code b).valid = true) (hroom : s.frame.length ≤ s.cfg.obufBytes) :
    exec .emit s = .next (completeOk (s.emitted s.packer)) :=
  exec_emit_of_ok hsrc ((emitFrame_eq valid s.ctrl.trailer s.cfg.obufBytes).trans (if_pos hroom))

/-- An error of a command that writes OBUF zeroes the results and leaves the operands and the tables. -/
theorem complete_raiseOutput (s : State) (o : Nat) (e : CmdError) :
    ∃ t, complete (raiseOutput s o e) = .next t ∧ CompletedError s t e.code.value e.info ∧ t.dstLen = 0 ∧
      t.payloadBits = 0 ∧ SameAllTables s t ∧ (o = 0 → t.obuf = s.obuf) := by
  obtain ⟨b, d, h, hzero, -⟩ := raiseOutput_eq s o e
  rw [h]
  exact ⟨_, rfl, ⟨rfl, rfl, rfl⟩, rfl, rfl,
    ⟨⟨rfl, rfl, fun _ => rfl, rfl, rfl, rfl⟩, rfl, ⟨rfl, rfl, rfl⟩, rfl, rfl, rfl, rfl, rfl, rfl⟩,
    fun ho => (hzero ho).1⟩

theorem exec_emit_stop {s : State} {x : Stop} (hsrc : s.srcLen.toNat ≤ s.cfg.ibufBytes)
    (h : emitFrame s.code s.ctrl.trailer s.cfg.obufBytes (input s) = .error x) :
    ∃ t, exec .emit s = .next t ∧ CompletedError s t x.error.code.value x.error.info ∧ t.dstLen = 0 ∧
      t.payloadBits = 0 ∧ SameAllTables s t := by
  obtain ⟨t, ht, completed, dst, bits, tables, -⟩ := complete_raiseOutput s x.written x.error
  exact ⟨t, (exec_emit_of_error hsrc h).trans ht, completed, dst, bits, tables⟩

/-- A buffer in which `bytes` has been written from index 0 on begins with them and is unchanged above them. -/
theorem hasOutput_of_written {s t : State} {bytes : List Byte} (hdst : t.dstLen = BitVec.ofNat 32 bytes.length)
    (hobuf : t.obuf = s.obuf.writeOutput bytes) (h : bytes.length < 2 ^ 32) : HasOutput s t bytes := by
  refine ⟨by rw [hdst, BitVec.toNat_ofNat, Nat.mod_eq_of_lt h], fun k hk => ?_, fun k hk => ?_⟩
  · rw [hobuf, Memory.read_writeOutput_inside _ _ _ hk, List.getElem?_eq_getElem hk]
  · rw [hobuf, Memory.read_writeOutput_above _ _ _ hk]

/-- The frame and the code bits in it have lengths below 2^32 when OBUF has room for the frame (00_scope.md R10). -/
theorem frame_fits_words {c : Config} {entries : List Entry} {bits : List Bool} {trailer : Bool} (hwf : c.wf = true)
    (hroom : (frameBytes entries bits trailer).length ≤ c.obufBytes) :
    (frameBytes entries bits trailer).length < 2 ^ 32 ∧ bits.length < 2 ^ 32 := by
  obtain ⟨-, -, -, small⟩ := (config_wf_iff _).mp hwf
  have length := frameBytes_length entries bits trailer
  rw [payloadBytes_length, ceil8] at length
  omega

theorem tableBytes_length_eq_sum (entries : List Entry) :
    (tableBytes entries).length = 8 + (entries.map fun e => 9 + e.2.length).sum := by
  rw [tableBytes_length, List.length_flatMap]
  simp only [frameEntry_length]

/-- Settles O43: the header is the table of the valid codes, and the bit packer puts out the payload of the code
bits. -/
theorem emitWritesTheFrame : Obligations.EmitWritesTheFrame := by
  intro s entries bits frame hwf hsrc valid hroom
  obtain ⟨frame_lt, bits_lt⟩ := frame_fits_words hwf hroom
  have written : HasOutput s (completeOk (s.emitted s.packer)) frame :=
    hasOutput_of_written (emitted_dstLen s) (emitted_obuf s) frame_lt
  obtain ⟨completed, tables⟩ := completeOk_emitted s s.packer
  refine ⟨_, exec_emit_fits hsrc valid hroom, completed, written, ?_, ?_, tables⟩
  · rw [completeOk_payloadBits, emitted_payloadBits, BitVec.toNat_ofNat, Nat.mod_eq_of_lt bits_lt]
  · rw [frameBytes_length, tableBytes_length_eq_sum, payloadBytes_length, ceil8]

/-- The first byte without a code ends EMIT when the output before it fits, and otherwise the overflow came first. -/
theorem emitFrame_noCode {code : Table CodeEntry 256} {pre : List Byte} {b : Byte}
    (valid : ∀ c ∈ pre, (codeAt code c).valid = true) (hb : (codeAt code b).valid = false) (trailer : Bool) (room : Nat)
    (post : List Byte) :
    emitFrame code trailer room (pre ++ b :: post) =
      if (tableBytes (codeEntries code)).length + (messageBits code pre).length / 8 ≤ room then
        .error ⟨(tableBytes (codeEntries code)).length + (messageBits code pre).length / 8,
          errorAt .noCode (b.toNat * 2 ^ 24 + pre.length)⟩
      else .error (overflow room) := by
  rw [emitFrame_header]
  by_cases table : (tableBytes (codeEntries code)).length ≤ room
  case neg => rw [if_neg table, if_neg (by omega)]
  rw [if_pos table, packInput_append valid (by simpa using table), List.nil_append, Nat.zero_add]
  by_cases before : (tableBytes (codeEntries code)).length + (messageBits code pre).length / 8 ≤ room
  · rw [Packer.reach_fits before, except_ok_bind, packInput_noCode hb, if_pos before]
    simp [Packer.after, Sink.holding, bind, Except.bind]
  · rw [Packer.reach_full (Nat.not_le.mp before), if_neg before]
    rfl

/-- Settles O44: an error of EMIT is that of the first part of the output that cannot be made. -/
theorem emitErrors : Obligations.EmitErrors := by
  intro s entries same
  refine ⟨fun tooLong => ?_, fun pre b post hsrc hinput valid hb => ?_, fun hsrc valid full => ?_⟩
  · obtain ⟨t, ht, completed, dst, bits, tables, hobuf⟩ := complete_raiseOutput s 0 (srcLenError s)
    exact ⟨t, (exec_emit_tooLong tooLong).trans ht, completed, ⟨dst, bits, tables⟩, fun k => by rw [hobuf rfl]⟩
  · have stop := emitFrame_noCode valid hb s.ctrl.trailer s.cfg.obufBytes post
    rw [← hinput] at stop
    exact ⟨fun fits => exec_emit_stop hsrc (stop.trans (if_pos fits)),
      fun full => exec_emit_stop hsrc (stop.trans (if_neg (Nat.not_le.mpr full)))⟩
  · exact exec_emit_stop hsrc ((emitFrame_eq valid _ _).trans (if_neg (Nat.not_le.mpr full)))

end Sys2Proof.Machine
end

section
/-! SUPPORT. ENCODE ends where EMIT ends from the state that COUNT, BUILD and GENCODES make (43_encoder_frame.md R270 to
R272). -/

namespace Sys2Proof.Machine

open Sys2Proof

/-! ### The code of an input -/

theorem encNsym_ne_zero_of_freqAt {freq : Table Word 256} {b : Byte} (h : freqAt freq b ≠ 0) : encNsym freq ≠ 0 := by
  obtain ⟨i, hi, -⟩ := exists_leaf_of_symbol h
  exact Nat.ne_of_gt (Nat.zero_lt_of_lt hi)

theorem freqAt_countBytes_ne_zero {bytes : List Byte} (short : bytes.length < 2 ^ 32) {b : Byte} (hb : b ∈ bytes) :
    freqAt (countBytes bytes) b ≠ 0 := by
  intro zero
  have counted := freqAt_countBytes short b
  rw [zero] at counted
  exact Nat.ne_of_gt (List.count_pos_iff.mpr hb) counted.symm

@[simp] theorem encNsym_countBytes_nil : encNsym (countBytes []) = 0 := by
  rw [encNsym_eq_countP]
  exact List.countP_eq_zero.mpr fun s _ => by rw [countBytes, List.foldl_nil, freqAt, Table.get_fill]; decide

theorem encNsym_countBytes_ne_zero {bytes : List Byte} (short : bytes.length < 2 ^ 32) (h : bytes ≠ []) :
    encNsym (countBytes bytes) ≠ 0 := by
  obtain ⟨b, rest, rfl⟩ := List.exists_cons_of_ne_nil h
  exact encNsym_ne_zero_of_freqAt (freqAt_countBytes_ne_zero short List.mem_cons_self)

@[simp] theorem encoderCode_nil : encoderCode [] = Table.fill 256 CodeEntry.none := if_pos rfl

section

variable {bytes : List Byte} (short : bytes.length < 2 ^ 32)
include short

/-- A non-empty input has the tree of its frequencies, whose Leaves have the codes. -/
theorem encoderCode_hasLeafCodes (h : bytes ≠ []) :
    IsEncTree (buildTree (countBytes bytes)).enode (encNsym (countBytes bytes)) ∧
      HasLeafCodes (buildTree (countBytes bytes)).enode (encNsym (countBytes bytes)) (encoderCode bytes) := by
  have tree := buildTree_isEncTree (encNsym_countBytes_ne_zero short h)
  rw [encoderCode, if_neg h]
  exact ⟨tree, codesOf_hasLeafCodes tree⟩

/-- Every byte of the input has a code. -/
theorem encoderCode_valid {b : Byte} (hb : b ∈ bytes) : (codeAt (encoderCode bytes) b).valid = true := by
  obtain ⟨-, codes⟩ := encoderCode_hasLeafCodes short (List.ne_nil_of_mem hb)
  obtain ⟨i, hi, leaf⟩ := exists_leaf_of_symbol (freqAt_countBytes_ne_zero short hb)
  exact (codes.valid_iff b).mpr ⟨i, hi, by rw [leaf]; rfl⟩

/-- There are as many codes as distinct input bytes. -/
theorem codeCount_encoderCode : codeCount (encoderCode bytes) = encNsym (countBytes bytes) := by
  by_cases h : bytes = []
  · subst h
    rw [encoderCode_nil, encNsym_countBytes_nil, codeCount, Table.fill, List.countP_replicate]
    rfl
  · obtain ⟨tree, codes⟩ := encoderCode_hasLeafCodes short h
    exact codes.codeCount_eq tree

end

/-! ### The stages before EMIT -/

/-- The state after COUNT (42_encoder_front.md R221). -/
def State.counted (s : State) : State := { s with freq := countBytes (input s) }

theorem input_short (s : State) : (input s).length < 2 ^ 32 := input_length s ▸ s.srcLen.isLt

theorem input_eq_nil_iff (s : State) : input s = [] ↔ s.srcLen = 0 := by
  rw [← List.length_eq_zero_iff, input_length]
  exact ⟨fun h => BitVec.eq_of_toNat_eq h, fun h => congrArg BitVec.toNat h⟩

theorem buildBody_eq {s : State} (h : encNsym s.freq ≠ 0) : buildBody s = .ok s.built := if_neg h

theorem built_encNodes_ne_zero {s : State} (h : encNsym s.freq ≠ 0) : s.built.encNodes ≠ 0 := by
  intro zero
  have nodes := built_encNodes s
  rw [zero, BitVec.ofNat_eq_ofNat, BitVec.toNat_ofNat, Nat.zero_mod] at nodes
  omega

theorem built_encRoot_eq (s : State) : s.built.encRoot.toNat = 2 * encNsym s.freq - 2 := by
  rw [built_encRoot]
  split <;> omega

/-- GENCODES after BUILD makes the codes of the tree just built. -/
theorem gencodesBody_built {s : State} (h : encNsym s.freq ≠ 0) :
    gencodesBody s.built = .ok { s.built with code := codesOf (buildTree s.freq).enode (2 * encNsym s.freq - 2) } := by
  rw [gencodesBody, if_neg (built_encNodes_ne_zero h), built_encRoot_eq]
  rfl

/-- The state from which EMIT runs as the last stage of ENCODE (43_encoder_frame.md R270, R271). -/
def State.coded (s : State) : State :=
  if s.srcLen = 0 then clearEncoder s.counted else { s.counted.built with code := encoderCode (input s) }

theorem coded_empty {s : State} (h : s.srcLen = 0) : s.coded = clearEncoder s.counted := if_pos h

theorem coded_nonempty {s : State} (h : s.srcLen ≠ 0) :
    s.coded = { s.counted.built with code := encoderCode (input s) } := if_neg h

theorem counted_encNsym_ne_zero {s : State} (h : s.srcLen ≠ 0) : encNsym s.counted.freq ≠ 0 :=
  encNsym_countBytes_ne_zero (input_short s) (mt (input_eq_nil_iff s).mp h)

theorem encodeTables_counted (s : State) : encodeTables s.counted = .ok s.coded := by
  by_cases h : s.srcLen = 0
  · have none : encNsym s.counted.freq = 0 := by
      rw [State.counted, (input_eq_nil_iff s).mpr h]
      exact encNsym_countBytes_nil
    rw [encodeTables, if_pos none, coded_empty h]
  · have some := counted_encNsym_ne_zero h
    rw [encodeTables, if_neg some, buildBody_eq some, coded_nonempty h, encoderCode,
      if_neg (mt (input_eq_nil_iff s).mp h)]
    exact gencodesBody_built some

theorem countBody_eq {s : State} (h : s.srcLen.toNat ≤ s.cfg.ibufBytes) : countBody s = .ok s.counted :=
  if_pos ((srcFits_iff s).mpr h)

/-- ENCODE answers what EMIT answers from the coded state. -/
theorem exec_encode_fits {s : State} (h : s.srcLen.toNat ≤ s.cfg.ibufBytes) : exec .encode s = exec .emit s.coded := by
  rw [exec_eq_complete, exec_eq_complete, commandBody, commandBody, encodeBody, if_pos ((srcFits_iff s).mpr h),
    countBody_eq h, BodyEnd.andThen, encodeTables_counted, BodyEnd.andThen]

theorem exec_encode_tooLong {s : State} (h : s.cfg.ibufBytes < s.srcLen.toNat) :
    exec .encode s = complete (raiseOutput s 0 (srcLenError s)) :=
  (exec_eq_complete .encode s).trans (congrArg complete (if_neg (mt (srcFits_iff s).mp (Nat.not_le.mpr h))))

theorem complete_raiseOutput_completeOk (s : State) (o : Nat) (e : CmdError) :
    complete (raiseOutput (completeOk s) o e) = complete (raiseOutput s o e) := by
  unfold raiseOutput
  split <;> rfl

/-- EMIT does not see that an earlier command has completed: its own completion writes the same bits. -/
theorem exec_emit_completeOk (s : State) : exec .emit (completeOk s) = exec .emit s := by
  by_cases hsrc : s.srcLen.toNat ≤ s.cfg.ibufBytes
  · cases h : emitFrame s.code s.ctrl.trailer s.cfg.obufBytes (input s) with
    | error x =>
      rw [exec_emit_of_error hsrc h, exec_emit_of_error (s := completeOk s) hsrc h]
      exact complete_raiseOutput_completeOk _ _ _
    | ok p => exact (exec_emit_of_ok (s := completeOk s) hsrc h).trans (exec_emit_of_ok hsrc h).symm
  · rw [exec_emit_tooLong (Nat.not_le.mp hsrc), exec_emit_tooLong (s := completeOk s) (Nat.not_le.mp hsrc)]
    exact complete_raiseOutput_completeOk _ _ _

theorem encoderCode_of_nonempty {s : State} (h : s.srcLen ≠ 0) :
    encoderCode (input s) = codesOf s.counted.built.enode s.counted.built.encRoot.toNat := by
  rw [encoderCode, if_neg (mt (input_eq_nil_iff s).mp h), built_encRoot_eq]
  rfl

/-- Settles O45: each stage starts from what the one before it left, and no stage reads the bits of a completion. -/
theorem encodeIsItsStages : Obligations.EncodeIsItsStages := by
  intro s hsrc hne
  have symbols := counted_encNsym_ne_zero hne
  have nodes : s.counted.built.encNodes ≠ 0 := built_encNodes_ne_zero symbols
  have gencodes : exec .gencodes (completeOk s.counted.built) = .next (completeOk s.coded) := by
    rw [coded_nonempty hne, encoderCode_of_nonempty hne]
    exact exec_gencodes (s := completeOk s.counted.built) nodes
  have completed : CompletedOk (completeOk s.counted.built) (completeOk s.coded) := by
    rw [coded_nonempty hne]
    exact ⟨rfl, rfl, rfl⟩
  exact ⟨completeOk s.counted, completeOk s.counted.built, completeOk s.coded, exec_count_fits hsrc, ⟨rfl, rfl, rfl⟩,
    exec_build (s := completeOk s.counted) symbols, ⟨rfl, rfl, rfl⟩, gencodes, completed,
    (exec_encode_fits hsrc).trans (exec_emit_completeOk _).symm⟩

/-! ### ENCODE -/

/-- `u` is `s` but for FREQ, CODE, the encoder's tree and the working registers. -/
def WritesEncoder (s u : State) : Prop :=
  u = { s with
    freq := u.freq, code := u.code, enode := u.enode, encNodes := u.encNodes, encRoot := u.encRoot, work := u.work }

theorem coded_writesEncoder (s : State) : WritesEncoder s s.coded := by
  by_cases h : s.srcLen = 0
  · rw [coded_empty h]
    rfl
  · rw [coded_nonempty h]
    rfl

theorem coded_freq (s : State) : s.coded.freq = countBytes (input s) := by
  by_cases h : s.srcLen = 0
  · rw [coded_empty h]
    rfl
  · rw [coded_nonempty h]
    rfl

theorem coded_code (s : State) : s.coded.code = encoderCode (input s) := by
  by_cases h : s.srcLen = 0
  · rw [coded_empty h, (input_eq_nil_iff s).mpr h, encoderCode_nil]
    rfl
  · rw [coded_nonempty h]

theorem coded_sameEncTree {s : State} (h : s.srcLen ≠ 0) : SameEncTree s.counted.built s.coded := by
  rw [coded_nonempty h]
  exact ⟨rfl, rfl, rfl⟩

theorem coded_clearedTree {s : State} (h : s.srcLen = 0) :
    s.coded.encNodes = 0 ∧ s.coded.encRoot = 0 ∧ ∀ i, enodeAt s.coded.enode i = ENode.cleared := by
  rw [coded_empty h]
  exact ⟨rfl, rfl, fun i => Table.get_fill _ _ i⟩

section

variable {s u : State} (h : WritesEncoder s u)
include h

theorem WritesEncoder.input_eq : input u = input s := by rw [h]; rfl

theorem WritesEncoder.ctrl_eq : u.ctrl = s.ctrl := by rw [h]

theorem WritesEncoder.cfg_eq : u.cfg = s.cfg := by rw [h]

theorem WritesEncoder.srcLen_eq : u.srcLen = s.srcLen := by rw [h]

theorem WritesEncoder.obuf_eq : u.obuf = s.obuf := by rw [h]

theorem WritesEncoder.completedOk {t : State} (completed : CompletedOk u t) : CompletedOk s t := by
  rw [h] at completed
  exact completed

theorem WritesEncoder.completedError {t : State} {code : Byte} {info : Word}
    (completed : CompletedError u t code info) : CompletedError s t code info := by
  rw [h] at completed
  exact completed

theorem WritesEncoder.sameOperands {t : State} (same : SameOperands u t) : SameOperands s t := by
  rw [h] at same
  exact same

theorem WritesEncoder.sameDecoder {t : State} (same : SameDecoder u t) : SameDecoder s t := by
  rw [h] at same
  exact same

end

/-- The code bits of the input under its own code (43_encoder_frame.md R270). -/
def State.encodedBits (s : State) : List Bool := messageBits (encoderCode (input s)) (input s)

/-- The frame that ENCODE makes of the input (43_encoder_frame.md R270). -/
def State.encodedFrame (s : State) : List Byte :=
  frameBytes (codeEntries (encoderCode (input s))) s.encodedBits s.ctrl.trailer

theorem coded_bits (s : State) : messageBits s.coded.code (input s.coded) = s.encodedBits := by
  rw [coded_code, (coded_writesEncoder s).input_eq, State.encodedBits]

theorem coded_frame (s : State) : s.coded.frame = s.encodedFrame := by
  rw [State.frame, coded_bits, coded_code, (coded_writesEncoder s).ctrl_eq, State.encodedFrame]

theorem coded_valid (s : State) : ∀ b ∈ input s.coded, (codeAt s.coded.code b).valid = true := by
  rw [coded_code, (coded_writesEncoder s).input_eq]
  exact fun b hb => encoderCode_valid (input_short s) hb

theorem codeEntries_none : codeEntries (Table.fill 256 CodeEntry.none) = [] := by
  rw [codeEntries_eq_filterMap]
  exact List.filterMap_eq_nil_iff.mpr fun b _ => if_neg (by rw [codeAt_fill_none]; decide)

theorem encodedFrame_empty {s : State} (h : s.srcLen = 0) :
    s.encodedFrame = if s.ctrl.trailer then List.replicate 16 0 else List.replicate 8 0 := by
  rw [State.encodedFrame, State.encodedBits, (input_eq_nil_iff s).mpr h, encoderCode_nil, codeEntries_none]
  cases s.ctrl.trailer <;> decide

theorem coded_codeCount (s : State) : codeCount s.coded.code = encNsym s.coded.freq := by
  rw [coded_code, coded_freq, codeCount_encoderCode (input_short s)]

theorem coded_freqAt (s : State) (b : Byte) : (freqAt s.coded.freq b).toNat = (input s).count b := by
  rw [coded_freq, freqAt_countBytes (input_short s)]

theorem coded_encNodes {s : State} (h : s.srcLen ≠ 0) : s.coded.encNodes.toNat = 2 * encNsym s.coded.freq - 1 := by
  obtain ⟨-, nodes, -⟩ := coded_sameEncTree h
  rw [nodes, coded_freq]
  exact built_encNodes s.counted

/-- Settles O46: EMIT writes the frame of the input under the code in the coded state. -/
theorem encodeWritesTheFrame : Obligations.EncodeWritesTheFrame := by
  intro s code bits frame hwf hsrc hroom
  have stages := coded_writesEncoder s
  have cfg := stages.cfg_eq
  obtain ⟨t, ht, completed, written, total, -, operands, freq, ⟨enode, nodes, root⟩, codes, decoder⟩ :=
    emitWritesTheFrame s.coded (by rwa [cfg]) (by rwa [cfg, stages.srcLen_eq]) (coded_valid s)
      (by rw [cfg]; exact (congrArg List.length (coded_frame s)).trans_le hroom)
  refine ⟨t, (exec_encode_fits hsrc).trans ht, stages.completedOk completed, ?_, ?_, codes.trans (coded_code s), ?_, ?_,
    fun h => ?_, fun h => ?_, stages.sameOperands operands, stages.sameDecoder decoder⟩
  · have written : HasOutput s.coded t s.coded.frame := written
    rw [coded_frame] at written
    obtain ⟨length, inside, above⟩ := written
    exact ⟨length, inside, fun k hk => by rw [above k hk, stages.obuf_eq]⟩
  · exact total.trans (congrArg List.length (coded_bits s))
  · exact fun b => freq ▸ coded_freqAt s b
  · rw [codes, freq, coded_codeCount]
  · rw [nodes, freq, coded_encNodes h]
  · rw [nodes, root, enode]
    obtain ⟨noNodes, noRoot, noTree⟩ := coded_clearedTree h
    exact ⟨noNodes, noRoot, noTree, encodedFrame_empty h⟩

/-- Settles O47: only EMIT can run out of room, when the stages before it are done. -/
theorem encodeErrors : Obligations.EncodeErrors := by
  intro s
  refine ⟨fun tooLong => ?_, fun hsrc full => ?_⟩
  · obtain ⟨t, ht, completed, dst, bits, ⟨operands, freq, tree, code, decoder⟩, hobuf⟩ :=
      complete_raiseOutput s 0 (srcLenError s)
    exact ⟨t, (exec_encode_tooLong tooLong).trans ht, completed, dst, bits, fun k => by rw [hobuf rfl], operands, freq,
      tree, code, decoder⟩
  · have stages := coded_writesEncoder s
    have cfg := stages.cfg_eq
    obtain ⟨-, -, overflows⟩ := emitErrors s.coded
    obtain ⟨t, ht, completed, dst, bits, operands, freq, ⟨enode, nodes, root⟩, codes, decoder⟩ :=
      overflows (by rwa [cfg, stages.srcLen_eq]) (coded_valid s)
        (by rw [cfg]; exact full.trans_eq (congrArg List.length (coded_frame s)).symm)
    rw [cfg] at completed
    refine ⟨t, (exec_encode_fits hsrc).trans ht, stages.completedError completed, dst, bits, codes.trans (coded_code s),
      fun b => freq ▸ coded_freqAt s b, fun h => ?_, fun h => ?_, stages.sameOperands operands,
      stages.sameDecoder decoder⟩
    · obtain ⟨sameNode, sameNodes, sameRoot⟩ := coded_sameEncTree h
      exact ⟨_, _, exec_count_fits hsrc, exec_build (s := completeOk s.counted) (counted_encNsym_ne_zero h),
        enode.trans sameNode, nodes.trans sameNodes, root.trans sameRoot⟩
    · rw [nodes, root, enode]
      exact coded_clearedTree h

end Sys2Proof.Machine
end

section
/-! SUPPORT. The table that ENCODE writes is legal (30_encoding.md R172, R173; 43_encoder_frame.md R272), and its frame
is that of the message under the table. -/

namespace Sys2Proof.Machine

open Sys2Proof

/-! ### The entries of a code table -/

theorem codeEntryOf_eq_some {code : Table CodeEntry 256} {s : Nat} {e : Entry} (h : codeEntryOf code s = some e) :
    (codeAt code (BitVec.ofNat 8 s)).valid = true ∧ e = (BitVec.ofNat 8 s, (codeAt code (BitVec.ofNat 8 s)).path) := by
  unfold codeEntryOf at h
  split at h
  · next valid =>
    cases h
    exact ⟨valid, rfl⟩
  · cases h

theorem mem_codeEntries {code : Table CodeEntry 256} {e : Entry} :
    e ∈ codeEntries code ↔ (codeAt code e.1).valid = true ∧ e.2 = (codeAt code e.1).path := by
  rw [codeEntries_eq_filterMap, List.mem_filterMap]
  constructor
  · rintro ⟨s, -, hs⟩
    obtain ⟨valid, rfl⟩ := codeEntryOf_eq_some hs
    exact ⟨valid, rfl⟩
  · rintro ⟨valid, hpath⟩
    have number : BitVec.ofNat 8 e.1.toNat = e.1 := by simp
    refine ⟨e.1.toNat, List.mem_range.mpr e.1.isLt, ?_⟩
    rw [codeEntryOf, number, if_pos valid, ← hpath]

/-- The entries stand in ascending symbol order (43_encoder_frame.md R263). -/
theorem codeEntries_rising (code : Table CodeEntry 256) :
    (codeEntries code).Pairwise fun a b => a.1.toNat < b.1.toNat := by
  have below : (List.range 256).Pairwise fun s t => s < t ∧ t < 256 :=
    List.pairwise_lt_range.imp_of_mem fun _ ht hst => ⟨hst, List.mem_range.mp ht⟩
  rw [codeEntries_eq_filterMap]
  refine below.filterMap _ fun s t hst a ha b hb => ?_
  obtain ⟨hst, ht⟩ := hst
  obtain ⟨-, rfl⟩ := codeEntryOf_eq_some ha
  obtain ⟨-, rfl⟩ := codeEntryOf_eq_some hb
  simp only [BitVec.toNat_ofNat]
  omega

theorem codeEntries_distinct (code : Table CodeEntry 256) : (codeEntries code).Pairwise fun a b => a.1 ≠ b.1 :=
  (codeEntries_rising code).imp fun hlt heq => Nat.ne_of_lt hlt (congrArg BitVec.toNat heq)

/-- The entries of a code table are a legal table, if a decoding tree has room for them. -/
theorem CodeTableOk.legalTable {code : Table CodeEntry 256} (h : CodeTableOk code)
    (room : nodeCount (codeEntries code) ≤ 511) : LegalTable (codeEntries code) := by
  obtain ⟨-, prefixFree⟩ := h
  refine ⟨List.pairwise_map.mpr (codeEntries_distinct code), fun e he => ?_, ?_, room⟩
  · obtain ⟨-, hpath⟩ := mem_codeEntries.mp he
    rw [hpath, CodeEntry.path_length]
    exact Nat.le_of_lt_succ (codeAt code e.1).len.isLt
  · refine (codeEntries_distinct code).imp_of_mem fun {a b} ha hb hne => ?_
    obtain ⟨validA, pathA⟩ := mem_codeEntries.mp ha
    obtain ⟨validB, pathB⟩ := mem_codeEntries.mp hb
    rw [pathA, pathB]
    exact ⟨prefixFree _ _ hne validA validB, prefixFree _ _ hne.symm validB validA⟩

theorem CodeTableOk.codes_ne_nil {code : Table CodeEntry 256} (h : CodeTableOk code) :
    ∀ e ∈ codeEntries code, e.2 ≠ [] := by
  obtain ⟨entries, -⟩ := h
  intro e he hnil
  obtain ⟨valid, hpath⟩ := mem_codeEntries.mp he
  obtain ⟨hlen, -⟩ := entries e.1
  refine hlen.mp valid (BitVec.eq_of_toNat_eq ?_)
  rw [← CodeEntry.path_length, ← hpath, hnil]
  rfl

theorem symbol_mem_codeEntries {code : Table CodeEntry 256} {b : Byte} (h : (codeAt code b).valid = true) :
    b ∈ (codeEntries code).map Prod.fst :=
  List.mem_map.mpr ⟨(b, (codeAt code b).path), mem_codeEntries.mpr ⟨h, rfl⟩, rfl⟩

/-- The table gives a symbol the code that CODE gives it. -/
theorem entryBits_codeEntries {code : Table CodeEntry 256} {b : Byte} (h : (codeAt code b).valid = true) :
    entryBits (codeEntries code) b = (codeAt code b).path := by
  obtain ⟨-, hpath⟩ := mem_codeEntries.mp (mem_of_entryBits (symbol_mem_codeEntries h))
  exact hpath

theorem entryMessage_codeEntries {code : Table CodeEntry 256} {bytes : List Byte}
    (valid : ∀ b ∈ bytes, (codeAt code b).valid = true) :
    entryMessage (codeEntries code) bytes = messageBits code bytes := by
  rw [entryMessage, messageBits, List.flatMap_congr fun b hb => entryBits_codeEntries (valid b hb)]

/-! ### The decoding tree of an encoder tree -/

/-- Each node of the decoding tree is a node of the encoder's tree, so that DNODE has room for it. -/
theorem IsEncTree.nodeCount_le {enode : Table ENode 511} {n : Nat} (tree : IsEncTree enode n) {entries : List Entry}
    (codes : ∀ e ∈ entries, ∃ i, nodeOnPath enode (2 * n - 2) e.2 = some i) : nodeCount entries ≤ 2 * n - 1 := by
  have onTree : ∀ p ∈ codePaths entries, ∃ i, nodeOnPath enode (2 * n - 2) p = some i := by
    intro p hp
    obtain rfl | ⟨e, he, rest, hrest⟩ := mem_codePaths.mp hp
    · exact ⟨_, rfl⟩
    · obtain ⟨i, hi⟩ := codes e he
      rw [← hrest, nodeOnPath_append] at hi
      obtain ⟨j, hj, -⟩ := Option.bind_eq_some_iff.mp hi
      exact ⟨j, hj⟩
  have distinct : ((codePaths entries).dedup.map (nodeOnPath enode (2 * n - 2))).Nodup := by
    refine (List.nodup_dedup _).map_on fun p hp q _ hpq => ?_
    obtain ⟨i, hi⟩ := onTree p (List.mem_dedup.mp hp)
    exact tree.path_unique hi (hpq ▸ hi)
  have nodes : (codePaths entries).dedup.map (nodeOnPath enode (2 * n - 2)) ⊆ (List.range (2 * n - 1)).map some := by
    intro x hx
    obtain ⟨p, hp, rfl⟩ := List.mem_map.mp hx
    obtain ⟨i, hi⟩ := onTree p (List.mem_dedup.mp hp)
    exact List.mem_map.mpr ⟨i, List.mem_range.mpr (tree.lt_of_path hi), hi.symm⟩
  rw [nodeCount_eq]
  simpa using (distinct.subperm nodes).length_le

/-- A decoding tree of codes that are all "0" has two nodes at most. -/
theorem nodeCount_le_two {entries : List Entry} (codes : ∀ e ∈ entries, e.2 = [false]) : nodeCount entries ≤ 2 := by
  have paths : (codePaths entries).dedup ⊆ [[], [false]] := by
    intro p hp
    obtain rfl | ⟨e, he, hpe⟩ := mem_codePaths.mp (List.mem_dedup.mp hp)
    · exact List.mem_cons_self
    · rw [codes e he, ← List.nil_append [false], List.prefix_concat_iff, List.prefix_nil] at hpe
      obtain rfl | rfl := hpe <;> simp
  rw [nodeCount_eq]
  exact ((List.nodup_dedup _).subperm paths).length_le

theorem HasLeafCodes.nodeCount_le {enode : Table ENode 511} {n : Nat} {code : Table CodeEntry 256}
    (h : HasLeafCodes enode n code) (tree : IsEncTree enode n) : nodeCount (codeEntries code) ≤ 511 := by
  have leafCode : ∀ e ∈ codeEntries code, ∃ i, i < n ∧ IsLeafCode enode n i e.2 := by
    intro e he
    obtain ⟨valid, hpath⟩ := mem_codeEntries.mp he
    obtain ⟨i, hi, hsym⟩ := h.exists_leaf_of_valid valid
    exact ⟨i, hi, hpath ▸ hsym ▸ (h.leaf i hi).2⟩
  by_cases hn : n = 1
  · have two := nodeCount_le_two (entries := codeEntries code) fun e he => by
      obtain ⟨i, -, lone, -⟩ := leafCode e he
      exact lone hn
    omega
  · have all := tree.nodeCount_le (entries := codeEntries code) fun e he => by
      obtain ⟨i, -, -, path⟩ := leafCode e he
      exact ⟨i, path hn⟩
    obtain ⟨-, few, -⟩ := tree
    omega

theorem encoderCode_codeTableOk {bytes : List Byte} (short : bytes.length < 2 ^ 32) :
    CodeTableOk (encoderCode bytes) := by
  by_cases h : bytes = []
  · rw [h, encoderCode_nil]
    exact codeTableOk_none
  · rw [encoderCode, if_neg h]
    exact codesOf_codeTableOk (encoderCode_hasLeafCodes short h).1

/-- ENCODE writes a legal table (30_encoding.md R172, R173). -/
theorem encoderCode_legalTable {bytes : List Byte} (short : bytes.length < 2 ^ 32) :
    LegalTable (codeEntries (encoderCode bytes)) := by
  refine (encoderCode_codeTableOk short).legalTable ?_
  by_cases h : bytes = []
  · rw [h, encoderCode_nil, codeEntries_none]
    decide
  · obtain ⟨tree, codes⟩ := encoderCode_hasLeafCodes short h
    exact codes.nodeCount_le tree

/-! ### ENCODE without an error -/

theorem output_of_hasOutput {s t : State} {bytes : List Byte} (h : HasOutput s t bytes) : output t = bytes := by
  obtain ⟨length, inside, -⟩ := h
  refine List.ext_getElem (by simp [output, length]) fun k hk hk' => ?_
  have byte := inside k hk'
  rw [List.getElem?_eq_getElem hk', Option.some.injEq] at byte
  simp [output, byte]

/-- ENCODE ends without an error only when its frame fits OBUF. -/
theorem encode_success {s t : State} (hwf : s.cfg.wf = true) (ht : exec .encode s = .next t)
    (success : t.status.errCode = 0) :
    output t = s.encodedFrame ∧ t.payloadBits.toNat = s.encodedBits.length ∧ t.code = encoderCode (input s) := by
  have noError {code : Byte} {info : Word} (hcode : code ≠ 0)
      (failed : ∃ u, exec .encode s = .next u ∧ CompletedError s u code info) : False := by
    obtain ⟨u, hu, status, -, -⟩ := failed
    cases ht.symm.trans hu
    rw [status] at success
    exact hcode success
  obtain ⟨tooLong, overflows⟩ := encodeErrors s
  have hsrc : s.srcLen.toNat ≤ s.cfg.ibufBytes := by
    by_contra h
    obtain ⟨u, hu, completed, -⟩ := tooLong (Nat.not_le.mp h)
    exact noError (by decide) ⟨u, hu, completed⟩
  have hroom : s.encodedFrame.length ≤ s.cfg.obufBytes := by
    by_contra h
    obtain ⟨u, hu, completed, -⟩ := overflows hsrc (Nat.not_le.mp h)
    exact noError (by decide) ⟨u, hu, completed⟩
  obtain ⟨u, hu, -, written, bits, code, -⟩ := encodeWritesTheFrame s hwf hsrc hroom
  cases ht.symm.trans hu
  exact ⟨output_of_hasOutput written, bits, code⟩

theorem encodedBits_eq_entryMessage (s : State) :
    s.encodedBits = entryMessage (codeEntries (encoderCode (input s))) (input s) :=
  (entryMessage_codeEntries fun _ hb => encoderCode_valid (input_short s) hb).symm

/-- Settles O59: the frame of ENCODE is that of a legal table with non-empty codes and a message over it, which DECODE
gives back. -/
theorem roundTripHardened : Obligations.RoundTripHardened := by
  intro s t u hwf hard ht success hwf' hard' _ hfits hinput hroom
  have short := input_short s
  obtain ⟨hout, bits, -⟩ := encode_success hwf ht success
  have tableOk := encoderCode_codeTableOk short
  have frame : input u = frameBytes (codeEntries (encoderCode (input s)))
      (entryMessage (codeEntries (encoderCode (input s))) (input s)) true := by
    rw [hinput, hout, State.encodedFrame, hard, encodedBits_eq_entryMessage]
  obtain ⟨v, hv, completed, written, total, -⟩ := decodeReadsLegalFrames u _ (input s) hwf'
    (encoderCode_legalTable short) tableOk.codes_ne_nil
    (fun b hb => symbol_mem_codeEntries (encoderCode_valid short hb)) hard' hfits frame hroom
  refine ⟨v, hv, completed, output_of_hasOutput written, BitVec.eq_of_toNat_eq ?_, BitVec.eq_of_toNat_eq ?_⟩
  · obtain ⟨length, -⟩ := written
    rw [length, input_length]
  · rw [total, bits, encodedBits_eq_entryMessage]

end Sys2Proof.Machine
end

section
/-! SUPPORT. The round trip in reference mode: WALK decodes the padding too, to copies of the symbol whose code is all
zeros (43_encoder_frame.md R274; 44_decoder.md R315, R317). -/

namespace Sys2Proof.Machine

open Sys2Proof

/-! ### The padding -/

/-- The padding after a bit string: zeros up to the next whole byte (30_encoding.md R165). -/
def padding (bits : List Bool) : List Bool := List.replicate ((8 - bits.length % 8) % 8) false

theorem getD_append_padding (bits : List Bool) (i : Nat) : (bits ++ padding bits).getD i false = bits.getD i false := by
  by_cases h : i < bits.length
  · rw [List.getD_append _ _ _ _ h]
  · rw [List.getD_append_right _ _ _ _ (Nat.le_of_not_lt h), List.getD_eq_default _ _ (Nat.le_of_not_lt h), padding]
    rw [List.getD_eq_getElem?_getD, List.getElem?_replicate]
    split <;> rfl

theorem append_padding_length (bits : List Bool) : (bits ++ padding bits).length = 8 * ceil8 bits.length := by
  rw [List.length_append, padding, List.length_replicate, ceil8]
  omega

/-- The payload holds the padding as well as the bits. -/
theorem payloadBytes_append_padding (bits : List Bool) : payloadBytes (bits ++ padding bits) = payloadBytes bits := by
  have length := append_padding_length bits
  have bytes : payloadByte (bits ++ padding bits) = payloadByte bits := by
    funext j
    simp only [payloadByte, getD_append_padding]
  rw [payloadBytes, payloadBytes, bytes, length]
  congr 2
  rw [ceil8]
  omega

/-- The payload read to its last bit is the bit string and its padding (44_decoder.md R312, R317). -/
theorem payloadBitList_padded (bits : List Bool) :
    payloadBitList (payloadBytes bits) (8 * (payloadBytes bits).length) = bits ++ padding bits := by
  rw [payloadBytes_length, ← append_padding_length, ← payloadBytes_append_padding]
  exact payloadBitList_payloadBytes _

/-! ### A partial path at the end of the payload -/

/-- A path that goes on to a LEAF stays inside the tree until it comes there. -/
theorem staysInside_of_leafOnPath {dnode : Table DNode 511} {p : BitVec 16} {path rest : List Bool} {sym : Byte}
    (h : leafOnPath dnode p (path ++ rest) = some sym) (hrest : rest ≠ []) : staysInside dnode p path = true := by
  induction path generalizing p with
  | nil =>
    obtain ⟨b, bs, rfl⟩ := List.exists_cons_of_ne_nil hrest
    obtain ⟨notLeaf, -⟩ := leafOnPath_cons_some h
    exact decide_eq_true notLeaf
  | cons b path ih =>
    obtain ⟨notLeaf, linked, next⟩ := leafOnPath_cons_some h
    simp only [staysInside, Bool.and_eq_true, decide_eq_true_eq]
    exact ⟨⟨notLeaf, linked⟩, ih next⟩

theorem staysInside_notLeaf {dnode : Table DNode 511} {p : BitVec 16} {path : List Bool}
    (h : staysInside dnode p path = true) : (dnodeAt dnode p).kind ≠ .leaf := by
  cases path with
  | nil => exact of_decide_eq_true h
  | cons b path =>
    simp only [staysInside, Bool.and_eq_true, decide_eq_true_eq] at h
    obtain ⟨⟨notLeaf, -⟩, -⟩ := h
    exact notLeaf

/-- A partial path puts out nothing (44_decoder.md R313). -/
theorem walkBits_staysInside {dnode : Table DNode 511} (hroot : (dnodeAt dnode 0).kind ≠ .leaf) {p : BitVec 16}
    {path : List Bool} (h : staysInside dnode p path = true) (i : Nat) (k : Sink) :
    ∃ q, walkBits dnode i path ⟨p, k⟩ = .ok ⟨q, k⟩ := by
  induction path generalizing p i with
  | nil => exact ⟨p, rfl⟩
  | cons b path ih =>
    simp only [staysInside, Bool.and_eq_true, decide_eq_true_eq] at h
    obtain ⟨⟨-, linked⟩, next⟩ := h
    rw [walkBits, walkBit_child i hroot linked, if_neg (staysInside_notLeaf next)]
    exact ih next (i + 1)

/-- In reference mode WALK of whole codes and a partial path puts out the symbols of the codes (44_decoder.md R315). -/
theorem walkPayload_partial {dnode : Table DNode 511} {room nbits : Nat} {payload : List Byte} {codes : List Entry}
    {tail : List Bool} (hcodes : ∀ c ∈ codes, leafOnPath dnode 0 c.2 = some c.1 ∧ c.2 ≠ [])
    (htail : staysInside dnode 0 tail = true)
    (hbits : payloadBitList payload nbits = (codes.map Prod.snd).flatten ++ tail) (hroom : codes.length ≤ room) :
    ∃ q, walkPayload dnode false room payload nbits = .ok ⟨q, Sink.holding room (codes.map Prod.fst)⟩ := by
  have walk := walkBits_codes hcodes (k := Sink.start room) (by simpa [Sink.start] using hroom) 0 tail
  have sink : { Sink.start room with
      written := (Sink.start room).written + codes.length
      rev := (codes.map Prod.fst).reverse ++ (Sink.start room).rev } = Sink.holding room (codes.map Prod.fst) := by
    simp [Sink.start, Sink.holding]
  obtain ⟨q, hq⟩ := walkBits_staysInside (staysInside_notLeaf htail) htail (0 + (codes.map Prod.snd).flatten.length)
    (Sink.holding room (codes.map Prod.fst))
  rw [sink, hq, ← hbits] at walk
  refine ⟨q, ?_⟩
  rw [walkPayload, walk]
  rfl

/-- In reference mode WALK finds the payload from the table to the end of the input (44_decoder.md R311). -/
theorem payloadRegion_reference {s : State} {table payload : List Byte} (href : s.ctrl.trailer = false)
    (hinput : input s = table ++ payload) (hoff : s.decPayloadOff.toNat = table.length) :
    payloadRegion s = .ok (table.length, payload.length, 8 * payload.length) := by
  have length : s.srcLen.toNat = table.length + payload.length := by rw [← input_length, hinput, List.length_append]
  have limit : frameLimit s = .ok s.srcLen.toNat := by
    rw [frameLimit, href]
    rfl
  simp [payloadRegion, limit, hoff, href, length, bind, Except.bind]

/-! ### DECODE of a frame without a trailer -/

theorem frameBytes_reference (entries : List Entry) (bits : List Bool) :
    frameBytes entries bits false = tableBytes entries ++ payloadBytes bits := by
  simp [frameBytes]

/-- `s` after WALK has ended at node `q` with the symbols `syms` as its output. -/
def State.walkedTo (s : State) (q : BitVec 16) (syms : List Byte) (nbits : Nat) : State :=
  { storeOutput (Sink.holding s.cfg.obufBytes syms) nbits s with work := { s.work with walkPos := q } }

theorem output_walkedTo (s : State) (q : BitVec 16) {syms : List Byte} (nbits : Nat) (h : syms.length < 2 ^ 32) :
    output (s.walkedTo q syms nbits) = syms :=
  output_of_hasOutput (hasOutput_of_written (s := s) rfl (congrArg s.obuf.writeOutput (Sink.bytes_holding _ _)) h)

theorem walkBody_of_walkPayload {s : State} {off len nbits : Nat} {q : BitVec 16} {syms : List Byte}
    (hfits : s.srcLen.toNat ≤ s.cfg.ibufBytes) (hvalid : s.decValid = true)
    (hregion : payloadRegion s = .ok (off, len, nbits))
    (hwalk : walkPayload s.dnode s.ctrl.trailer s.cfg.obufBytes (slice (input s) off len) nbits =
      .ok ⟨q, Sink.holding s.cfg.obufBytes syms⟩) : walkBody s = .ok (s.walkedTo q syms nbits) := by
  rw [walkBody, if_pos ((srcFits_iff s).mpr hfits), if_pos hvalid, hregion]
  simp only [hwalk]
  rfl

/-- DECODE of the frame of a legal table and any bits in reference mode ends as WALK of the padded bits over the table's
tree ends. -/
theorem decode_reference {u : State} {entries : List Entry} {bits : List Bool} {syms : List Byte}
    (hwf : u.cfg.wf = true) (legal : LegalTable entries) (href : u.ctrl.trailer = false) (hfits : u.srcLen.toNat ≤ u.cfg.ibufBytes)
    (hinput : input u = frameBytes entries bits false) (hroom : syms.length ≤ u.cfg.obufBytes)
    (hwalk : ∀ r : Parser, r.HasRead entries → ∃ q,
      walkPayload r.tree.dnode false u.cfg.obufBytes (payloadBytes bits) (8 * (payloadBytes bits).length) =
        .ok ⟨q, Sink.holding u.cfg.obufBytes syms⟩) :
    ∃ v, exec .decode u = .next v ∧ CompletedOk u v ∧ output v = syms := by
  obtain ⟨-, small, -, small'⟩ := (config_wf_iff _).mp hwf
  rw [frameBytes_reference] at hinput
  have length : u.srcLen.toNat = (tableBytes entries).length + (payloadBytes bits).length := by
    rw [← input_length, hinput, List.length_append]
  obtain ⟨r, hread, hrebuild⟩ := rebuildBody_legalTable legal hfits hinput fun hard => by simp [href] at hard
  obtain ⟨q, hq⟩ := hwalk r hread
  have off : (u.rebuilt entries.length r).decPayloadOff.toNat = (tableBytes entries).length := by
    rw [State.rebuilt, hread.pos, BitVec.toNat_ofNat, Nat.mod_eq_of_lt (by omega)]
  have region := payloadRegion_reference (s := u.rebuilt entries.length r) href hinput off
  have payload : slice (input u) (tableBytes entries).length (payloadBytes bits).length = payloadBytes bits :=
    slice_of_append (post := []) (hinput.trans (by simp)) rfl rfl
  have walk : walkBody (u.rebuilt entries.length r) =
      .ok ((u.rebuilt entries.length r).walkedTo q syms (8 * (payloadBytes bits).length)) := by
    refine walkBody_of_walkPayload hfits rfl region ?_
    change walkPayload r.tree.dnode u.ctrl.trailer u.cfg.obufBytes (slice (input u) _ _) _ = _
    rw [href, payload]
    exact hq
  have body : decodeBody u = walkBody (u.rebuilt entries.length r) := by rw [decodeBody, hrebuild]
  exact ⟨_, (exec_eq_complete .decode u).trans (congrArg complete (body.trans walk)), ⟨rfl, rfl, rfl⟩,
    output_walkedTo (u.rebuilt entries.length r) q (8 * (payloadBytes bits).length) (by omega)⟩

/-! ### The code of zeros (44_decoder.md R317) -/

/-- Below a node that zeros lead to there is a Leaf that zeros lead to. -/
theorem IsEncTree.exists_leaf_on_zeros {enode : Table ENode 511} {n : Nat} (tree : IsEncTree enode n) {d m : Nat}
    (hm : nodeOnPath enode (2 * n - 2) (List.replicate d false) = some m) :
    ∃ d' i, i < n ∧ nodeOnPath enode (2 * n - 2) (List.replicate d' false) = some i := by
  induction m using Nat.strongRecOn generalizing d with
  | ind m ih =>
    by_cases leaf : m < n
    · exact ⟨d, m, leaf, hm⟩
    · have hlt := tree.lt_of_path hm
      have left := tree.path_child (Nat.le_of_not_lt leaf) hlt hm false
      rw [← List.replicate_succ'] at left
      obtain ⟨-, -, -, -, internals, -⟩ := tree
      obtain ⟨-, -, -, left_lt, -⟩ := internals m (Nat.le_of_not_lt leaf) hlt
      exact ih _ left_lt left

/-- Some symbol has the code that is all zeros. -/
theorem HasLeafCodes.exists_zeros_code {enode : Table ENode 511} {n : Nat} {code : Table CodeEntry 256}
    (h : HasLeafCodes enode n code) (tree : IsEncTree enode n) :
    ∃ z d0, 1 ≤ d0 ∧ (codeAt code z).valid = true ∧ (codeAt code z).path = List.replicate d0 false := by
  obtain ⟨hpos, -⟩ := id tree
  obtain ⟨d, i, hi, hd⟩ := tree.exists_leaf_on_zeros (d := 0) rfl
  obtain ⟨valid, leafCode⟩ := h.leaf i hi
  obtain ⟨long, -⟩ := leafCode.length_bounds tree hi
  obtain ⟨lone, path⟩ := leafCode
  by_cases hn : n = 1
  · exact ⟨_, 1, Nat.le_refl 1, valid, lone hn⟩
  · have zeros := tree.path_unique (path hn) hd
    exact ⟨_, d, by simpa [zeros] using long, valid, zeros⟩

theorem messageBits_replicate {code : Table CodeEntry 256} {z : Byte} {d0 : Nat}
    (hz : (codeAt code z).path = List.replicate d0 false) (k : Nat) :
    messageBits code (List.replicate k z) = List.replicate (k * d0) false := by
  rw [messageBits, List.flatMap_replicate, hz, List.flatten_replicate_replicate]

/-- The padding after a message is as many whole codes of `d0` zeros as it has room for, and a part of one more. -/
theorem messageBits_append_padding {code : Table CodeEntry 256} {z : Byte} {d0 : Nat}
    (hz : (codeAt code z).path = List.replicate d0 false) (bytes : List Byte) :
    messageBits code bytes ++ padding (messageBits code bytes) =
      messageBits code (bytes ++ List.replicate ((8 - (messageBits code bytes).length % 8) % 8 / d0) z) ++
        List.replicate ((8 - (messageBits code bytes).length % 8) % 8 % d0) false := by
  have whole (p : Nat) : p / d0 * d0 + p % d0 = p := Nat.div_add_mod' p d0
  have both (xs ys : List Byte) : messageBits code (xs ++ ys) = messageBits code xs ++ messageBits code ys :=
    List.flatMap_append
  rw [both, messageBits_replicate hz, List.append_assoc, List.replicate_append_replicate, whole, padding]

/-- DECODE of the frame of the message `bytes` in reference mode, when some symbol `z` has the code of `d0` zeros. -/
theorem decode_reference_message {u : State} {code : Table CodeEntry 256} {bytes : List Byte} {z : Byte} {d0 : Nat}
    (hwf : u.cfg.wf = true) (tableOk : CodeTableOk code) (legal : LegalTable (codeEntries code))
    (valid : ∀ b ∈ bytes, (codeAt code b).valid = true) (href : u.ctrl.trailer = false)
    (hfits : u.srcLen.toNat ≤ u.cfg.ibufBytes)
    (hinput : input u = frameBytes (codeEntries code) (messageBits code bytes) false)
    (hroom : bytes.length + 7 ≤ u.cfg.obufBytes) (hd0 : 1 ≤ d0) (hzvalid : (codeAt code z).valid = true)
    (hz : (codeAt code z).path = List.replicate d0 false) :
    ∃ v, exec .decode u = .next v ∧ CompletedOk u v ∧
      output v = bytes ++ List.replicate ((8 - (messageBits code bytes).length % 8) % 8 / d0) z := by
  have bits := messageBits_append_padding hz bytes
  generalize hp : (8 - (messageBits code bytes).length % 8) % 8 = p at bits ⊢
  have few : p / d0 ≤ 7 := (Nat.div_le_self p d0).trans (by omega)
  have allValid : ∀ b ∈ bytes ++ List.replicate (p / d0) z, (codeAt code b).valid = true := by
    intro b hb
    obtain hb | hb := List.mem_append.mp hb
    · exact valid b hb
    · rw [List.eq_of_mem_replicate hb]
      exact hzvalid
  have room : (bytes ++ List.replicate (p / d0) z).length ≤ u.cfg.obufBytes := by
    rw [List.length_append, List.length_replicate]
    omega
  refine decode_reference hwf legal href hfits hinput room fun r hread => ?_
  have inTable := messageEntries_subset fun b hb => symbol_mem_codeEntries (allValid b hb)
  have zeros : List.replicate (p % d0) false ++ List.replicate (d0 - p % d0) false = (codeAt code z).path := by
    have part := Nat.mod_lt p hd0
    rw [List.replicate_append_replicate, hz, Nat.add_sub_cancel' part.le]
  have inside : staysInside r.tree.dnode 0 (List.replicate (p % d0) false) = true := by
    refine staysInside_of_leafOnPath (rest := List.replicate (d0 - p % d0) false) (sym := z) ?_ ?_
    · rw [zeros]
      exact hread.tree.leafOnPath (e := (z, (codeAt code z).path)) (mem_codeEntries.mpr ⟨hzvalid, rfl⟩)
    · have part := Nat.mod_lt p hd0
      exact List.ne_nil_of_length_pos (by rw [List.length_replicate]; omega)
  have walk := walkPayload_partial (codes := messageEntries (codeEntries code) (bytes ++ List.replicate (p / d0) z))
    (fun c hc => ⟨hread.tree.leafOnPath (inTable hc), tableOk.codes_ne_nil c (inTable hc)⟩) inside
    (by rw [messageEntries_bits, entryMessage_codeEntries allValid, payloadBitList_padded, bits])
    (by simpa [messageEntries] using room)
  rwa [messageEntries_symbols] at walk

/-- Settles O60: the padding is read as floor(p / d0) codes of zeros and a part of one more, which puts out nothing. -/
theorem roundTripReference : Obligations.RoundTripReference := by
  intro s t u hwf soft ht success hwf' soft' _ hfits hinput hroom
  have short := input_short s
  obtain ⟨hout, total, hcode⟩ := encode_success hwf ht success
  have legal := encoderCode_legalTable short
  have tableOk := encoderCode_codeTableOk short
  have frame : input u = frameBytes (codeEntries (encoderCode (input s))) s.encodedBits false := by
    rw [hinput, hout, State.encodedFrame, soft]
  by_cases empty : input s = []
  · have noBits : s.encodedBits = [] := by rw [State.encodedBits, empty]; rfl
    obtain ⟨v, hv, completed, output⟩ := decode_reference (syms := []) hwf' legal soft' hfits frame (Nat.zero_le _)
      fun r _ => ⟨0, by rw [noBits]; rfl⟩
    exact ⟨v, hv, completed, fun _ => output, fun h => absurd empty h⟩
  · obtain ⟨tree, codes⟩ := encoderCode_hasLeafCodes short empty
    obtain ⟨z, d0, hd0, hzvalid, hz⟩ := codes.exists_zeros_code tree
    obtain ⟨v, hv, completed, output⟩ := decode_reference_message hwf' tableOk legal
      (fun _ hb => encoderCode_valid short hb) soft' hfits frame hroom hd0 hzvalid hz
    refine ⟨v, hv, completed, fun h => absurd h empty, fun _ => ⟨z, d0, hd0, hcode ▸ hzvalid, hcode ▸ hz, ?_⟩⟩
    rw [total]
    exact output

end Sys2Proof.Machine
end

section
/-! SUPPORT. REBUILD as one reading of the input: what it ends in when the table is read, and when an error ends the reading
(44_decoder.md R300 to R305; 60_exceptions.md R405). -/

namespace Sys2Proof.Machine

open Sys2Proof

/-! ### The reading of the table -/

/-- The limit L of the table and the payload when SRC_LEN allows for the trailer (44_decoder.md R301, R311). -/
def State.limit (s : State) : Nat := if s.ctrl.trailer then s.srcLen.toNat - 8 else s.srcLen.toNat

theorem State.limit_le (s : State) : s.limit ≤ s.srcLen.toNat := by
  unfold State.limit
  split
  · exact Nat.sub_le _ _
  · exact Nat.le_refl _

theorem frameLimit_eq_limit {s : State} (h : s.ctrl.trailer = true → 8 ≤ s.srcLen.toNat) : frameLimit s = .ok s.limit :=
  frameLimit_eq h

theorem frameLimit_short {s : State} (ht : s.ctrl.trailer = true) (h : s.srcLen.toNat < 8) :
    frameLimit s = .error ⟨.badTrailer, s.srcLen⟩ := (if_pos ht).trans (if_pos h)

/-- The table that REBUILD reads from the input, or its error, which no other part of the state bears on
(44_decoder.md R301 to R304). -/
def State.readTable (s : State) : Except CmdError (Nat × Parser) :=
  if srcFits s then frameLimit s >>= parseTable (input s) else .error (srcLenError s)

theorem rebuildBody_of_error {s : State} {e : CmdError} (h : s.readTable = .error e) : rebuildBody s = raiseRebuild s e := by
  unfold State.readTable at h
  unfold rebuildBody
  split at h
  · next fits =>
    rw [if_pos fits]
    cases hlimit : frameLimit s with
    | error x =>
      rw [hlimit] at h
      cases h
      rfl
    | ok limit =>
      rw [hlimit] at h
      have h : parseTable (input s) limit = .error e := h
      simp only [h]
  · next tooLong =>
    cases h
    exact if_neg tooLong

theorem rebuildBody_of_ok {s : State} {num : Nat} {r : Parser} (h : s.readTable = .ok (num, r)) :
    rebuildBody s = .ok (s.rebuilt num r) := by
  unfold State.readTable at h
  unfold rebuildBody
  split at h
  · next fits =>
    obtain ⟨limit, hlimit, htable⟩ := except_bind_ok h
    rw [if_pos fits, hlimit]
    simp only [htable]
    rfl
  · cases h

theorem readTable_tooLong {s : State} (h : s.cfg.ibufBytes < s.srcLen.toNat) : s.readTable = .error (srcLenError s) :=
  if_neg (mt (srcFits_iff s).mp (Nat.not_le.mpr h))

section

variable {s : State} (hfits : s.srcLen.toNat ≤ s.cfg.ibufBytes)
include hfits

theorem readTable_fits : s.readTable = frameLimit s >>= parseTable (input s) := if_pos ((srcFits_iff s).mpr hfits)

theorem readTable_short (ht : s.ctrl.trailer = true) (h : s.srcLen.toNat < 8) :
    s.readTable = .error ⟨.badTrailer, s.srcLen⟩ := by
  rw [readTable_fits hfits, frameLimit_short ht h]
  rfl

theorem readTable_eq_parseTable (h : s.ctrl.trailer = true → 8 ≤ s.srcLen.toNat) :
    s.readTable = parseTable (input s) s.limit := by
  rw [readTable_fits hfits, frameLimit_eq_limit h]
  rfl

end

/-! ### Errors -/

/-- An error of REBUILD clears DEC_VALID, and leaves all but the decoder's tables. -/
theorem exec_rebuild_of_error {s : State} {e : CmdError} (h : s.readTable = .error e) :
    ∃ t, exec .rebuild s = .next t ∧ CompletedError s t e.code.value e.info ∧ t.decValid = false ∧ SameOutput s t ∧
      SameOperands s t ∧ t.freq = s.freq ∧ SameEncTree s t ∧ t.code = s.code := by
  obtain ⟨d, n, c, o, k, hraise⟩ := raiseRebuild_eq s e
  have body := (rebuildBody_of_error h).trans hraise
  exact ⟨_, (exec_eq_complete .rebuild s).trans (congrArg complete body), ⟨rfl, rfl, rfl⟩, rfl, ⟨rfl, rfl, fun _ => rfl⟩,
    ⟨rfl, rfl, fun _ => rfl, rfl, rfl, rfl⟩, rfl, ⟨rfl, rfl, rfl⟩, rfl⟩

theorem need_of_lt {limit pos k at_ : Nat} (h : limit < pos + k) :
    need limit pos k at_ = .error (errorAt .truncTable at_) := if_pos h

theorem parseTable_truncated {frame : List Byte} {limit : Nat} (h : limit < 8) :
    parseTable frame limit = .error (errorAt .truncTable 0) := by
  rw [parseTable, need_of_lt (by omega)]
  rfl

theorem parseTable_badNumcodes {frame : List Byte} {limit : Nat} (hlimit : 8 ≤ limit) (h : 256 < le64 frame 0) :
    parseTable frame limit = .error (errorAt .badNumcodes 0) := by
  rw [parseTable, need_of_le (by omega)]
  exact if_pos h

/-- Settles O49: each check fails in turn when those before it pass, and the error leaves all but the decoder's tables. -/
theorem rebuildHeaderErrors : Obligations.RebuildHeaderErrors := by
  intro s limit fails
  refine ⟨fun tooLong => exec_rebuild_of_error (readTable_tooLong tooLong), fun fits =>
    ⟨fun ht short => exec_rebuild_of_error (readTable_short fits ht short), fun long => ⟨fun few => ?_, fun enough many => ?_⟩⟩⟩
  · exact exec_rebuild_of_error ((readTable_eq_parseTable fits long).trans (parseTable_truncated few))
  · exact exec_rebuild_of_error ((readTable_eq_parseTable fits long).trans (parseTable_badNumcodes enough many))

/-! ### Legal tables -/

/-- The tree of a table has a node for each of the prefixes of its codes (44_decoder.md R304). -/
theorem Tree.SpellsTable.cnt_eq {t : Tree} {entries : List Entry} (h : t.SpellsTable entries) : t.cnt = nodeCount entries := by
  obtain ⟨paths, spells, hpaths⟩ := h
  have perm : paths.Perm (codePaths entries).dedup :=
    (List.perm_ext_iff_of_nodup spells.nodup (List.nodup_dedup _)).mpr fun p => (hpaths p).trans List.mem_dedup.symm
  rw [nodeCount_eq, ← perm.length_eq, spells.count]

/-- Settles O48: REBUILD ends with the tree of the table's codes, whose nodes are their prefixes. -/
theorem rebuildAcceptsLegalTables : Obligations.RebuildAcceptsLegalTables := by
  intro s entries rest legal hfits hinput htrailer
  obtain ⟨r, hread, hbody⟩ := rebuildBody_legalTable legal hfits hinput htrailer
  have hexec : exec .rebuild s = .next (completeOk (s.rebuilt entries.length r)) :=
    (exec_eq_complete .rebuild s).trans (congrArg complete hbody)
  have count : r.tree.cnt = nodeCount entries := hread.tree.cnt_eq
  have few := legalTable_length_le legal
  have ncodes : (BitVec.ofNat 9 entries.length).toNat = entries.length := by
    rw [BitVec.toNat_ofNat]
    omega
  have off : (BitVec.ofNat 32 r.pos).toNat = (tableBytes entries).length := by
    have length := input_length s
    rw [hinput, List.length_append] at length
    rw [hread.pos, BitVec.toNat_ofNat, Nat.mod_eq_of_lt (by omega)]
  have nodes : (BitVec.ofNat 10 r.tree.cnt).toNat = nodeCount entries := by
    obtain ⟨-, -, -, room⟩ := legal
    rw [count, BitVec.toNat_ofNat, Nat.mod_eq_of_lt (by omega)]
  have tree : IsDecTree r.tree.dnode (nodeCount entries) := by
    have decoderOk := rebuildBody_decoderOk s
    rw [hbody] at decoderOk
    obtain ⟨isTree, -⟩ := decoderOk rfl
    exact nodes ▸ isTree
  exact ⟨_, hexec, ⟨rfl, rfl, rfl⟩, rfl, ncodes, off, nodes, fun e he => hread.tree.leafOnPath he, tree,
    commandsKeepTheirOperands _ _ _ hexec, rfl, ⟨rfl, rfl, rfl⟩, rfl, rfl, rfl, fun _ => rfl⟩

end Sys2Proof.Machine
end

section
/-! SUPPORT. REBUILD's errors in an entry that comes after a legal table: in its fields, and of its code against the tree
(44_decoder.md R303, R304; 60_exceptions.md R404). -/

namespace Sys2Proof.Machine

open Sys2Proof

/-! ### The entry after a legal table -/

theorem tableBytes_drop (entries : List Entry) : (tableBytes entries).drop 8 = entries.flatMap frameEntry :=
  List.drop_left' (leBytes_length 8 _)

/-- After entries that form a legal table REBUILD stands before the bytes that follow them, and the table ends in the error
of the next entry. -/
theorem parseTable_nextEntry {frame rest : List Byte} {entries : List Entry} {num limit : Nat} (legal : LegalTable entries)
    (hlt : entries.length < num) (hnum : num ≤ 256) (hframe : frame = leBytes 8 num ++ (entries.flatMap frameEntry ++ rest))
    (hlimit : (tableBytes entries).length ≤ limit) :
    ∃ r : Parser, r.HasRead entries ∧ frame.drop (tableBytes entries).length = rest ∧
      ∀ x, parseEntry frame limit r = .error x → parseTable frame limit = .error x := by
  have long := tableBytes_length entries
  have count : le64 frame 0 = num := le64_of_append (pre := []) hframe rfl (by omega)
  obtain ⟨r, hread, hentries⟩ := parseEntries_hasRead (done := []) legal (leBytes_length 8 num) hframe hlimit
    parser_start_hasRead
  refine ⟨r, hread, ?_, fun x hx => ?_⟩
  · rw [hframe, ← List.append_assoc]
    exact List.drop_left' (by simp [long])
  · obtain ⟨m, rfl⟩ := Nat.exists_eq_add_of_lt hlt
    have stopped : parseEntries frame limit (entries.length + m + 1) ⟨Tree.empty, 8, []⟩ = .error x := by
      rw [Nat.add_assoc, hentries, parseEntries, hx]
    rw [parseTable, need_of_le (by omega)]
    simp only [count, bind, Except.bind, if_neg (Nat.not_lt.mpr hnum), stopped]

/-- The error of an entry after a legal table is that of REBUILD. -/
theorem exec_rebuild_entryError {s : State} {num : Nat} {entries : List Entry} {rest : List Byte} (legal : LegalTable entries)
    (hlt : entries.length < num) (hnum : num ≤ 256) (hfits : s.srcLen.toNat ≤ s.cfg.ibufBytes)
    (hinput : input s = leBytes 8 num ++ (tableBytes entries).drop 8 ++ rest)
    (htrailer : s.ctrl.trailer = true → (tableBytes entries).length + 8 ≤ s.srcLen.toNat) {code : ErrCode} {info : Nat}
    (herror : ∀ r : Parser, r.HasRead entries → (input s).drop (tableBytes entries).length = rest →
      parseEntry (input s) s.limit r = .error (errorAt code info)) :
    ∃ t, exec .rebuild s = .next t ∧ CompletedError s t code.value (BitVec.ofNat 32 info) ∧ t.decValid = false := by
  rw [tableBytes_drop, List.append_assoc] at hinput
  have length := input_length s
  rw [hinput, List.length_append, List.length_append, leBytes_length, ← Nat.add_assoc, ← tableBytes_length] at length
  have hlimit : (tableBytes entries).length ≤ s.limit := by
    unfold State.limit
    split
    · next ht =>
      have := htrailer ht
      omega
    · omega
  obtain ⟨r, hread, hrest, hstop⟩ := parseTable_nextEntry legal hlt hnum hinput hlimit
  have table := hstop _ (herror r hread hrest)
  obtain ⟨t, ht, completed, invalid, -⟩ := exec_rebuild_of_error
    ((readTable_eq_parseTable hfits fun ht => Nat.le_trans (Nat.le_add_left _ _) (htrailer ht)).trans table)
  exact ⟨t, ht, completed, invalid⟩

/-! ### The fields of an entry -/

/-- The first byte of a code that is no code character is the error (44_decoder.md R303). -/
theorem readCodeChars_bad {cs : List Byte} {c : Byte} {i : Nat} (hc : cs[i]? = some c) (hbad : c ≠ 0x30 ∧ c ≠ 0x31)
    (good : ∀ x ∈ cs.take i, x = 0x30 ∨ x = 0x31) (at_ : Nat) :
    readCodeChars at_ cs = .error (errorAt .badCodechar (at_ + i)) := by
  induction i generalizing cs at_ with
  | zero =>
    obtain ⟨cs, rfl⟩ : ∃ tail, cs = c :: tail := by
      cases cs with
      | nil => cases hc
      | cons x xs => exact ⟨xs, by simpa using hc⟩
    obtain ⟨ne0, ne1⟩ := hbad
    simp only [readCodeChars, bitOfChar, if_neg ne0, if_neg ne1, Nat.add_zero]
  | succ i ih =>
    cases cs with
    | nil => cases hc
    | cons x xs =>
      rw [List.take_succ_cons, List.forall_mem_cons] at good
      obtain ⟨hx, good⟩ := good
      have rest := ih (by simpa using hc) good (at_ + 1)
      have char : ∃ b, bitOfChar x = some b := by
        obtain rfl | rfl := hx
        · exact ⟨false, rfl⟩
        · exact ⟨true, rfl⟩
      obtain ⟨b, hb⟩ := char
      simp only [readCodeChars, hb, rest]
      rw [Nat.add_assoc, Nat.add_comm 1]

section Fields

variable {frame more : List Byte} {sym : Byte} {limit pos : Nat} {r : Parser} (hpos : r.pos = pos)
include hpos

theorem parseEntry_ended (h : limit = pos) : parseEntry frame limit r = .error (errorAt .truncTable pos) := by
  rw [parseEntry, hpos, need_of_lt (by omega)]
  rfl

variable (hat : frame.drop pos = sym :: more)
include hat

omit hpos in
theorem drop_afterSymbol (k : Nat) : frame.drop (pos + 1 + k) = more.drop k := by
  rw [← List.drop_drop, ← List.drop_drop, hat]
  rfl

variable (hlt : pos < limit)
include hlt

/-- What REBUILD does with an entry once its symbol byte is there, in terms of the bytes after it (44_decoder.md R303). -/
theorem parseEntry_symbol :
    parseEntry frame limit r =
      (if sym ∈ r.seen then .error (errorAt .dupSymbol pos)
      else do
        need limit (pos + 1) 8 (pos + 1)
        if 255 < leNat (more.take 8) then .error (errorAt .badCodelen (pos + 1))
        else
          need limit (pos + 9) (leNat (more.take 8)) (pos + 1)
          let bits ← readCodeChars (pos + 9) ((more.drop 8).take (leNat (more.take 8)))
          let tree ← insertCode sym bits pos r.tree
          .ok ⟨tree, pos + 9 + leNat (more.take 8), sym :: r.seen⟩) := by
  have symbol : frame.getD pos 0 = sym := by
    rw [List.getD_eq_getElem?_getD, ← Nat.add_zero pos, ← List.getElem?_drop, hat]
    rfl
  have length : le64 frame (pos + 1) = leNat (more.take 8) := by
    rw [le64, slice]
    exact congrArg (fun bytes => leNat (bytes.take 8)) (drop_afterSymbol hat 0)
  have code (n : Nat) : slice frame (pos + 9) n = (more.drop 8).take n := congrArg (List.take n) (drop_afterSymbol hat 8)
  simp only [parseEntry, hpos, symbol, length, code, need_of_le (show pos + 1 ≤ limit from hlt)]
  rfl

theorem parseEntry_seen (hseen : sym ∈ r.seen) : parseEntry frame limit r = .error (errorAt .dupSymbol pos) :=
  (parseEntry_symbol hpos hat hlt).trans (if_pos hseen)

variable (hnew : sym ∉ r.seen)
include hnew

theorem parseEntry_noLength (h : limit < pos + 9) : parseEntry frame limit r = .error (errorAt .truncTable (pos + 1)) := by
  rw [parseEntry_symbol hpos hat hlt, if_neg hnew, need_of_lt (by omega)]
  rfl

variable (h9 : pos + 9 ≤ limit)
include h9

theorem parseEntry_badLength (h : 255 < leNat (more.take 8)) :
    parseEntry frame limit r = .error (errorAt .badCodelen (pos + 1)) := by
  rw [parseEntry_symbol hpos hat hlt, if_neg hnew, need_of_le (by omega)]
  exact if_pos h

variable (hlen : leNat (more.take 8) ≤ 255)
include hlen

theorem parseEntry_noCode (h : limit < pos + 9 + leNat (more.take 8)) :
    parseEntry frame limit r = .error (errorAt .truncTable (pos + 1)) := by
  rw [parseEntry_symbol hpos hat hlt, if_neg hnew, need_of_le (by omega), if_neg (Nat.not_lt.mpr hlen), need_of_lt h]
  rfl

variable (hcode : pos + 9 + leNat (more.take 8) ≤ limit)
include hcode

/-- An entry whose fields lie below the limit is read to its code characters, and then its code goes into the tree. -/
theorem parseEntry_code :
    parseEntry frame limit r = (do
      let bits ← readCodeChars (pos + 9) ((more.drop 8).take (leNat (more.take 8)))
      let tree ← insertCode sym bits pos r.tree
      .ok ⟨tree, pos + 9 + leNat (more.take 8), sym :: r.seen⟩) := by
  rw [parseEntry_symbol hpos hat hlt, if_neg hnew, need_of_le (by omega), if_neg (Nat.not_lt.mpr hlen), need_of_le hcode]
  rfl

end Fields

/-- Settles O50: the legal table before the entry is read, and then the first check that fails is the error. -/
theorem rebuildFieldErrors : Obligations.RebuildFieldErrors := by
  intro s num entries rest legal hlt hnum hfits hinput htrailer limit pos fails
  have fail {code : ErrCode} {info : Nat} (herror : ∀ r : Parser, r.HasRead entries → (input s).drop pos = rest →
      parseEntry (input s) limit r = .error (errorAt code info)) : fails code.value info :=
    exec_rebuild_entryError legal hlt hnum hfits hinput htrailer herror
  refine ⟨fun ended => fail fun r hr _ => parseEntry_ended hr.pos ended, ?_⟩
  rintro sym more rfl inside
  refine ⟨fun known => fail fun r hr hat => parseEntry_seen hr.pos hat inside ((hr.seen sym).mpr known), fun unknown => ?_⟩
  have hnew {r : Parser} (hr : r.HasRead entries) : sym ∉ r.seen := mt (hr.seen sym).mp unknown
  refine ⟨fun short => fail fun r hr hat => parseEntry_noLength hr.pos hat inside (hnew hr) short, fun h9 =>
    ⟨fun long => fail fun r hr hat => parseEntry_badLength hr.pos hat inside (hnew hr) h9 long, fun hlen cut =>
      fail fun r hr hat => parseEntry_noCode hr.pos hat inside (hnew hr) h9 hlen cut, fun hlen fits i hi good bad => ?_⟩⟩
  refine fail (code := .badCodechar) fun r hr hat => ?_
  have limit_le : limit ≤ (input s).length := (input_length s).symm ▸ s.limit_le
  have room : 8 + i < more.length := by
    have length := congrArg List.length hat
    rw [List.length_drop, List.length_cons] at length
    omega
  have badChar := bad more[8 + i] (List.getElem?_eq_getElem room)
  have char : ((more.drop 8).take (leNat (more.take 8)))[i]? = some more[8 + i] := by
    rw [List.getElem?_take_of_lt hi, List.getElem?_drop, List.getElem?_eq_getElem room]
  have before : ∀ c ∈ ((more.drop 8).take (leNat (more.take 8))).take i, c = 0x30 ∨ c = 0x31 := by
    rwa [List.take_take, Nat.min_eq_left (Nat.le_of_lt hi)]
  rw [parseEntry_code hr.pos hat inside (hnew hr) h9 hlen fits, readCodeChars_bad char badChar before]
  rfl

end Sys2Proof.Machine
end

section
/-! SUPPORT. REBUILD's errors of a code against the tree of the codes before it (44_decoder.md R304). -/

namespace Sys2Proof.Machine

open Sys2Proof

/-! ### The walk of insert that ends in an error -/

/-- The walk of `insert` makes nothing along a listed path. -/
theorem Tree.Spells.descend_listed {t : Tree} {paths : List (List Bool)} {leaves : List Entry} (h : t.Spells paths leaves)
    {p bits : List Bool} (hbits : p ++ bits ∈ paths) (ent : Nat) (more : List Bool) :
    descend ent (bits ++ more) (linkOf paths p) t = descend ent more (linkOf paths (p ++ bits)) t := by
  induction bits generalizing p with
  | nil => rw [List.append_nil, List.nil_append]
  | cons b bs ih =>
    have hp : p ∈ paths := h.closed _ hbits _ (List.prefix_append _ _)
    rw [List.append_cons] at hbits ⊢
    have hb : p ++ [b] ∈ paths := h.closed _ hbits _ (List.prefix_append _ _)
    rw [List.cons_append, h.descend_follow hp hb]
    exact ih hbits

theorem descend_cons_leaf {ent : Nat} {b : Bool} {bs : List Bool} {p : BitVec 16} {t : Tree}
    (hleaf : (t.node p.toNat).kind = .leaf) : descend ent (b :: bs) p t = .error (errorAt .prefixConflict ent) :=
  if_pos hleaf

theorem descend_cons_full {ent : Nat} {b : Bool} {bs : List Bool} {p : BitVec 16} {t : Tree}
    (notLeaf : (t.node p.toNat).kind ≠ .leaf) (hb : (t.node p.toNat).child b = DNode.noChild) (hcnt : t.cnt = 511) :
    descend ent (b :: bs) p t = .error (errorAt .nodeOverflow ent) :=
  (if_neg notLeaf).trans ((if_pos hb).trans (if_pos hcnt))

/-- The walk of `insert` along a code that begins with no code in the tree ends in NODE_OVERFLOW, when `all` has more than 511
paths, each of which is in the tree or begins the code. -/
theorem descend_overflow {ent : Nat} {all : List (List Bool)} (crowded : 511 < all.dedup.length) {leaves : List Entry}
    {bits p : List Bool} (free : ∀ e ∈ leaves, ¬ e.2 <+: p ++ bits) {t : Tree} {paths : List (List Bool)}
    (h : t.Spells paths leaves) (hp : p ∈ paths) (covered : ∀ q ∈ all, q ∈ paths ∨ q <+: p ++ bits) :
    descend ent bits (linkOf paths p) t = .error (errorAt .nodeOverflow ent) := by
  induction bits generalizing p t paths with
  | nil =>
    have listed : all.dedup ⊆ paths := by
      intro q hq
      obtain hq | hq := covered q (List.mem_dedup.mp hq)
      · exact hq
      · exact h.closed p hp q (by simpa using hq)
    have fits := ((List.nodup_dedup all).subperm listed).length_le
    have le := h.ok.le
    rw [h.count] at fits
    omega
  | cons b bs ih =>
    have notLeaf : (t.node (paths.idxOf p)).kind ≠ .leaf := by
      rw [ne_eq, h.kind_leaf_iff hp]
      rintro ⟨sym, hsym⟩
      exact free _ hsym (List.prefix_append _ _)
    rw [List.append_cons] at free covered
    by_cases hb : p ++ [b] ∈ paths
    · rw [h.descend_follow hp hb]
      exact ih free h hb covered
    · by_cases full : t.cnt = 511
      · have child : (t.node (linkOf paths p).toNat).child b = DNode.noChild := (h.child_linkOf hp).trans (if_neg hb)
        rw [← h.linkOf_toNat hp] at notLeaf
        exact descend_cons_full notLeaf child full
      · have hcnt : t.cnt < 511 := Nat.lt_of_le_of_ne h.ok.le full
        rw [h.descend_grow hp hb hcnt notLeaf]
        exact ih free (h.grow hp hb hcnt notLeaf) (List.mem_append_right _ (List.mem_singleton_self _))
          fun q hq => (covered q hq).imp_left (List.mem_append_left _)

/-! ### insert -/

theorem insertCode_of_descend_error {ent : Nat} {sym : Byte} {bits : List Bool} {t : Tree} {x : CmdError}
    (hwalk : descend ent bits 0 t = .error x) : insertCode sym bits ent t = .error x := by
  rw [insertCode, hwalk]
  rfl

/-- `insert` of a code whose walk ends at a node that is not EMPTY. -/
theorem insertCode_of_taken {ent : Nat} {sym : Byte} {bits : List Bool} {t u : Tree} {p : BitVec 16}
    (hwalk : descend ent bits 0 t = .ok (u, p)) (hkind : (u.node p.toNat).kind ≠ .empty) :
    insertCode sym bits ent t = .error (errorAt .prefixConflict ent) := by
  simp only [insertCode, hwalk]
  exact if_neg hkind

section Insert

variable {t : Tree} {entries : List Entry} (h : t.SpellsTable entries)
include h

/-- `insert` of a code that an earlier code begins with: its walk makes no node and ends at one that is not EMPTY. -/
theorem insertCode_prefix {sym : Byte} {bits : List Bool} {a : Entry} (ha : a ∈ entries) (hprefix : bits <+: a.2)
    (ent : Nat) : insertCode sym bits ent t = .error (errorAt .prefixConflict ent) := by
  obtain ⟨paths, spells, -⟩ := h
  have hmem : bits ∈ paths := spells.closed _ (spells.codes a ha) _ hprefix
  have walk := spells.descend_listed (p := []) (bits := bits) hmem ent []
  rw [List.append_nil, spells.linkOf_root] at walk
  refine insertCode_of_taken walk ?_
  rw [List.nil_append, spells.linkOf_toNat hmem]
  obtain ⟨more, hmore⟩ := hprefix
  cases more with
  | nil =>
    rw [List.append_nil] at hmore
    rw [(spells.kind_leaf_iff hmem).mpr ⟨a.1, hmore ▸ ha⟩]
    exact fun hk => by cases hk
  | cons b bs =>
    rw [List.append_cons] at hmore
    have below : bits ++ [b] ∈ paths := spells.closed _ (spells.codes a ha) _ ⟨bs, hmore⟩
    rw [spells.internal_of_child hmem below]
    exact fun hk => by cases hk

/-- `insert` of a code that begins with an earlier code: its walk ends at the LEAF of that code. -/
theorem insertCode_extends {sym : Byte} {bits : List Bool} {a : Entry} (ha : a ∈ entries) (hprefix : a.2 <+: bits)
    (ent : Nat) : insertCode sym bits ent t = .error (errorAt .prefixConflict ent) := by
  obtain ⟨more, rfl⟩ := hprefix
  cases more with
  | nil => exact insertCode_prefix h ha (by rw [List.append_nil]) ent
  | cons b bs =>
    obtain ⟨paths, spells, -⟩ := h
    have hmem := spells.codes a ha
    have leaf : (t.node (linkOf paths a.2).toNat).kind = .leaf := by
      rw [spells.linkOf_toNat hmem]
      exact (spells.kind_leaf_iff hmem).mpr ⟨a.1, ha⟩
    have walk := spells.descend_listed (p := []) (bits := a.2) hmem ent (b :: bs)
    rw [spells.linkOf_root] at walk
    exact insertCode_of_descend_error (walk.trans (descend_cons_leaf leaf))

/-- `insert` of a code that conflicts with no earlier one, when the tree of all of them has too many nodes. -/
theorem insertCode_overflow {e : Entry} (free : ∀ a ∈ entries, ¬ a.2 <+: e.2) (crowded : 511 < nodeCount (entries ++ [e]))
    (ent : Nat) : insertCode e.1 e.2 ent t = .error (errorAt .nodeOverflow ent) := by
  obtain ⟨paths, spells, hpaths⟩ := h
  rw [nodeCount_eq] at crowded
  have walk := descend_overflow (ent := ent) (p := []) (bits := e.2) crowded free spells spells.root_mem
    fun q hq => (mem_codePaths_append.mp hq).imp_left (hpaths q).mpr
  rw [spells.linkOf_root] at walk
  exact insertCode_of_descend_error walk

end Insert

/-! ### The entry -/

/-- A whole entry of a new symbol that comes next ends as `insert` of its code does, if that raises an error. -/
theorem parseEntry_insertError {frame rest : List Byte} {e : Entry} {limit pos : Nat} {r : Parser} {x : CmdError}
    (hpos : r.pos = pos) (hat : frame.drop pos = frameEntry e ++ rest) (hlimit : pos + (frameEntry e).length ≤ limit)
    (hnew : e.1 ∉ r.seen) (hlen : e.2.length ≤ 255) (hinsert : insertCode e.1 e.2 pos r.tree = .error x) :
    parseEntry frame limit r = .error x := by
  rw [frameEntry_length] at hlimit
  rw [frameEntry, List.cons_append, List.append_assoc] at hat
  have length : leNat ((leBytes 8 e.2.length ++ (e.2.map codeChar ++ rest)).take 8) = e.2.length := by
    rw [List.take_left' (leBytes_length 8 _), leNat_leBytes, Nat.mod_eq_of_lt (by omega)]
  have code : ((leBytes 8 e.2.length ++ (e.2.map codeChar ++ rest)).drop 8).take e.2.length = e.2.map codeChar := by
    rw [List.drop_left' (leBytes_length 8 _), List.take_left' (List.length_map _)]
  rw [parseEntry_code hpos hat (by omega) hnew (by omega) (by omega) (by omega), length, code, readCodeChars_map]
  simp only [bind, Except.bind, hinsert]

/-- Settles O51: the legal table before the entry is read, and the tree it makes takes the entry's code for one of the two
errors. -/
theorem rebuildConflictErrors : Obligations.RebuildConflictErrors := by
  intro s num entries e rest legal hlt hnum hfits hinput htrailer hnew hlen fails
  have split : (tableBytes (entries ++ [e])).drop 8 ++ rest = (tableBytes entries).drop 8 ++ (frameEntry e ++ rest) := by
    simp [tableBytes_drop]
  rw [List.append_assoc, split, ← List.append_assoc] at hinput
  have length : s.srcLen.toNat = (tableBytes entries).length + (frameEntry e).length + rest.length := by
    have length := input_length s
    rw [hinput, tableBytes_drop] at length
    simp only [List.length_append, leBytes_length] at length
    have table := tableBytes_length entries
    omega
  have below : (tableBytes entries).length + (frameEntry e).length ≤ s.limit := by
    unfold State.limit
    split
    · next ht =>
      have := htrailer ht
      omega
    · omega
  have fail {code : ErrCode} (hinsert : ∀ t : Tree, t.SpellsTable entries →
      insertCode e.1 e.2 (tableBytes entries).length t = .error (errorAt code (tableBytes entries).length)) :
      fails code.value :=
    exec_rebuild_entryError legal hlt hnum hfits hinput
      (fun ht => by
        have := htrailer ht
        omega)
      fun r hr hat => parseEntry_insertError hr.pos hat below (mt (hr.seen e.1).mp hnew) hlen (hinsert _ hr.tree)
  refine ⟨?_, fun free crowded => fail (code := .nodeOverflow) fun t ht =>
    insertCode_overflow ht (fun a ha => (free a ha).1) crowded _⟩
  rintro ⟨a, ha, hextends | hprefix⟩
  · exact fail (code := .prefixConflict) fun t ht => insertCode_extends ht ha hextends _
  · exact fail (code := .prefixConflict) fun t ht => insertCode_prefix ht ha hprefix _

end Sys2Proof.Machine
end

section
/-! SUPPORT. WALK as one reading of the payload: where the payload lies, what WALK ends in, and its errors before the first
payload bit (44_decoder.md R310 to R312; 60_exceptions.md R405). -/

namespace Sys2Proof.Machine

open Sys2Proof

/-! ### The reading of the payload -/

/-- The number of payload bits and the walk over them, or WALK's error with the output index it came at (44_decoder.md R311 to
R315). -/
def State.readPayload (s : State) : Except Stop (Nat × Walker) :=
  if srcFits s then
    if s.decValid then
      match payloadRegion s with
      | .error e => .error ⟨0, e⟩
      | .ok (off, len, nbits) =>
        (walkPayload s.dnode s.ctrl.trailer s.cfg.obufBytes (slice (input s) off len) nbits).map fun w => (nbits, w)
    else .error ⟨0, errorAt .noDecTree 0⟩
  else .error ⟨0, srcLenError s⟩

/-- `s` after a WALK of `nbits` bits that ended with `w`. -/
def State.walkedWith (s : State) (nbits : Nat) (w : Walker) : State :=
  { storeOutput w.sink nbits s with work := { s.work with walkPos := w.pos } }

/-- WALK ends as its reading of the payload does: each error at its output index, or the output stored. -/
theorem walkBody_readPayload (s : State) :
    (∀ x, s.readPayload = .error x → walkBody s = raiseOutput s x.written x.error) ∧
      ∀ nbits w, s.readPayload = .ok (nbits, w) → walkBody s = .ok (s.walkedWith nbits w) := by
  unfold State.readPayload walkBody
  split
  · split
    · cases hregion : payloadRegion s with
      | error e => exact ⟨fun x hx => by cases hx; rfl, nofun⟩
      | ok region =>
        obtain ⟨off, len, nbits⟩ := region
        dsimp only
        cases walkPayload s.dnode s.ctrl.trailer s.cfg.obufBytes (slice (input s) off len) nbits with
        | error x => exact ⟨fun y hy => by cases hy; rfl, nofun⟩
        | ok w => exact ⟨nofun, fun nbits w h => by cases h; rfl⟩
    · exact ⟨fun x hx => by cases hx; rfl, nofun⟩
  · exact ⟨fun x hx => by cases hx; rfl, nofun⟩

/-- An error of WALK zeroes the results and leaves the operands and the tables, and OBUF too when no symbol came before. -/
theorem exec_walk_of_error {s : State} {x : Stop} (h : s.readPayload = .error x) :
    ∃ t, exec .walk s = .next t ∧ CompletedError s t x.error.code.value x.error.info ∧ t.dstLen = 0 ∧ t.payloadBits = 0 ∧
      SameAllTables s t ∧ (x.written = 0 → ∀ k, t.obuf.read k = s.obuf.read k) := by
  obtain ⟨raised, -⟩ := walkBody_readPayload s
  obtain ⟨t, ht, completed, dst, bits, tables, obuf⟩ := complete_raiseOutput s x.written x.error
  exact ⟨t, ((exec_eq_complete .walk s).trans (congrArg complete (raised x h))).trans ht, completed, dst, bits, tables,
    fun ho k => by rw [obuf ho]⟩

theorem exec_walk_of_ok {s : State} {nbits : Nat} {w : Walker} (h : s.readPayload = .ok (nbits, w)) :
    exec .walk s = .next (completeOk (s.walkedWith nbits w)) := by
  obtain ⟨-, done⟩ := walkBody_readPayload s
  exact (exec_eq_complete .walk s).trans (congrArg complete (done nbits w h))

theorem readPayload_tooLong {s : State} (h : s.cfg.ibufBytes < s.srcLen.toNat) :
    s.readPayload = .error ⟨0, srcLenError s⟩ := if_neg (mt (srcFits_iff s).mp (Nat.not_le.mpr h))

section

variable {s : State} (hfits : s.srcLen.toNat ≤ s.cfg.ibufBytes) (hvalid : s.decValid = true)
include hfits hvalid

theorem readPayload_regionError {e : CmdError} (h : payloadRegion s = .error e) : s.readPayload = .error ⟨0, e⟩ := by
  rw [State.readPayload, if_pos ((srcFits_iff s).mpr hfits), if_pos hvalid, h]

theorem readPayload_region {off len nbits : Nat} (h : payloadRegion s = .ok (off, len, nbits)) :
    s.readPayload = (walkPayload s.dnode s.ctrl.trailer s.cfg.obufBytes (slice (input s) off len) nbits).map
      fun w => (nbits, w) := by
  rw [State.readPayload, if_pos ((srcFits_iff s).mpr hfits), if_pos hvalid, h]

end

/-! ### The payload region (44_decoder.md R311) -/

theorem payloadRegion_short {s : State} (ht : s.ctrl.trailer = true) (h : s.srcLen.toNat < 8) :
    payloadRegion s = .error ⟨.badTrailer, s.srcLen⟩ := by
  rw [payloadRegion, frameLimit_short ht h]
  rfl

section

variable {s : State} (hlong : s.ctrl.trailer = true → 8 ≤ s.srcLen.toNat)
include hlong

theorem payloadRegion_offset (h : s.limit < s.decPayloadOff.toNat) :
    payloadRegion s = .error ⟨.badPayload, s.decPayloadOff⟩ := by
  rw [payloadRegion, frameLimit_eq_limit hlong]
  exact if_pos h

variable (hoff : s.decPayloadOff.toNat ≤ s.limit)
include hoff

theorem payloadRegion_trailer (ht : s.ctrl.trailer = true)
    (h : ceil8 (le64 (input s) s.limit) ≠ s.limit - s.decPayloadOff.toNat) :
    payloadRegion s = .error (errorAt .badTrailer s.limit) := by
  rw [payloadRegion, frameLimit_eq_limit hlong]
  exact (if_neg (Nat.not_lt.mpr hoff)).trans ((if_pos ht).trans (if_pos h))

/-- The payload lies from DEC_PAYLOAD_OFF to the limit, when its bit count is that of the mode. -/
theorem payloadRegion_of_bits {nbits : Nat}
    (hard : s.ctrl.trailer = true →
      nbits = le64 (input s) s.limit ∧ (nbits + 7) / 8 = s.limit - s.decPayloadOff.toNat)
    (soft : s.ctrl.trailer = false → nbits = 8 * (s.limit - s.decPayloadOff.toNat)) :
    payloadRegion s = .ok (s.decPayloadOff.toNat, s.limit - s.decPayloadOff.toNat, nbits) := by
  rw [payloadRegion, frameLimit_eq_limit hlong]
  refine (if_neg (Nat.not_lt.mpr hoff)).trans ?_
  cases ht : s.ctrl.trailer with
  | true =>
    obtain ⟨rfl, fills⟩ := hard ht
    exact if_neg (not_not.mpr fills)
  | false => rw [soft ht]; rfl

end

/-- Settles O54: each check fails in turn when those before it pass, before any symbol. -/
theorem walkRegionErrors : Obligations.WalkRegionErrors := by
  intro s limit off fails
  have fail {e : CmdError} (h : s.readPayload = .error ⟨0, e⟩) : fails e.code.value e.info := by
    obtain ⟨t, ht, completed, dst, bits, tables, obuf⟩ := exec_walk_of_error h
    obtain ⟨operands, -, -, -, decoder⟩ := tables
    exact ⟨t, ht, completed, dst, bits, obuf rfl, decoder, operands⟩
  refine ⟨fun tooLong => fail (readPayload_tooLong tooLong), fun fits valid => ⟨fun ht short => ?_, fun long =>
    ⟨fun past => ?_, fun inside ht wrong => ?_⟩⟩⟩
  · exact fail (readPayload_regionError fits valid (payloadRegion_short ht short))
  · exact fail (readPayload_regionError fits valid (payloadRegion_offset long past))
  · exact fail (readPayload_regionError fits valid (payloadRegion_trailer long inside ht wrong))

end Sys2Proof.Machine
end

section
/-! SUPPORT. WALK over the bits of the payload: whole codes and a partial path, a root that is a LEAF, and the errors in the
payload (44_decoder.md R312 to R315; 60_exceptions.md R405). -/

namespace Sys2Proof.Machine

open Sys2Proof

/-! ### The payload bits (44_decoder.md R312) -/

theorem bitsOfByte_length (b : Byte) : (bitsOfByte b).length = 8 := by simp [bitsOfByte]

/-- Bit `i` of a byte sequence is bit 7 − (i mod 8) of byte i div 8. -/
theorem flatMap_bitsOfByte_getElem? (payload : List Byte) (i : Nat) :
    (payload.flatMap bitsOfByte)[i]? = payload[i / 8]?.map fun b => b.getLsbD (7 - i % 8) := by
  induction payload generalizing i with
  | nil => rfl
  | cons b bs ih =>
    rw [List.flatMap_cons]
    by_cases hi : i < 8
    · rw [List.getElem?_append_left (by rwa [bitsOfByte_length]), Nat.div_eq_of_lt hi, Nat.mod_eq_of_lt hi]
      simp [bitsOfByte, hi]
    · obtain ⟨j, rfl⟩ := Nat.exists_eq_add_of_le (Nat.le_of_not_lt hi)
      rw [List.getElem?_append_right (by rw [bitsOfByte_length]; omega), bitsOfByte_length, Nat.add_sub_cancel_left, ih,
        Nat.add_div_left j (by decide), Nat.add_mod_left]
      rfl

theorem slice_input_getElem? {s : State} {off len : Nat} (hin : off + len ≤ s.srcLen.toNat) {k : Nat} (hk : k < len) :
    (slice (input s) off len)[k]? = some (s.ibuf.read (off + k)) := by
  have inside : off + k < (input s).length := by
    rw [input_length]
    omega
  rw [slice, List.getElem?_take_of_lt hk, List.getElem?_drop, List.getElem?_eq_getElem inside, input_getElem]

theorem slice_input_length {s : State} {off len : Nat} (hin : off + len ≤ s.srcLen.toNat) :
    (slice (input s) off len).length = len := by
  rw [slice, List.length_take, List.length_drop, input_length]
  omega

theorem payloadBitList_length {payload : List Byte} {nbits : Nat} (h : nbits ≤ 8 * payload.length) :
    (payloadBitList payload nbits).length = nbits := by
  have total : (payload.flatMap bitsOfByte).length = 8 * payload.length := by
    simp [List.length_flatMap, bitsOfByte_length, Nat.mul_comm]
  rw [payloadBitList, List.length_take, total]
  omega

/-! ### A payload that WALK takes -/

/-- WALK's checks before the first payload bit pass, and there are `nbits` payload bits (44_decoder.md R311). -/
structure State.HasPayload (s : State) (nbits : Nat) : Prop where
  fits : s.srcLen.toNat ≤ s.cfg.ibufBytes
  valid : s.decValid = true
  long : s.ctrl.trailer = true → 8 ≤ s.srcLen.toNat
  inside : s.decPayloadOff.toNat ≤ s.limit
  hard : s.ctrl.trailer = true → nbits = le64 (input s) s.limit ∧ (nbits + 7) / 8 = s.limit - s.decPayloadOff.toNat
  soft : s.ctrl.trailer = false → nbits = 8 * (s.limit - s.decPayloadOff.toNat)

/-- The payload's bytes. -/
def State.payload (s : State) : List Byte := slice (input s) s.decPayloadOff.toNat (s.limit - s.decPayloadOff.toNat)

/-- The payload's bits. -/
def State.payloadBitsOf (s : State) (nbits : Nat) : List Bool := payloadBitList s.payload nbits

namespace State.HasPayload

variable {s : State} {nbits : Nat} (h : s.HasPayload nbits)
include h

theorem within : s.decPayloadOff.toNat + (s.limit - s.decPayloadOff.toNat) ≤ s.srcLen.toNat := by
  have inside := h.inside
  have le := s.limit_le
  omega

theorem nbits_le : nbits ≤ 8 * (s.limit - s.decPayloadOff.toNat) := by
  cases ht : s.ctrl.trailer with
  | true =>
    obtain ⟨-, fills⟩ := h.hard ht
    omega
  | false => exact Nat.le_of_eq (h.soft ht)

theorem nbits_lt (hwf : s.cfg.wf = true) : nbits < 2 ^ 32 := by
  obtain ⟨-, small, -⟩ := (config_wf_iff _).mp hwf
  have le := h.nbits_le
  have within := h.within
  have fits := h.fits
  omega

theorem bits_length : (s.payloadBitsOf nbits).length = nbits :=
  payloadBitList_length (by rw [State.payload, slice_input_length h.within]; exact h.nbits_le)

/-- The payload's bits are those that IBUF has from DEC_PAYLOAD_OFF on. -/
theorem bits_eq {bits : List Bool} (hlength : bits.length = nbits)
    (hbits : ∀ i, i < nbits →
      bits[i]? = some ((s.ibuf.read (s.decPayloadOff.toNat + i / 8)).getLsbD (7 - i % 8))) :
    s.payloadBitsOf nbits = bits := by
  have le := h.nbits_le
  refine List.ext_getElem? fun i => ?_
  by_cases hi : i < nbits
  · rw [hbits i hi, State.payloadBitsOf, payloadBitList, List.getElem?_take_of_lt hi, flatMap_bitsOfByte_getElem?,
      State.payload, slice_input_getElem? h.within (by omega)]
    rfl
  · rw [List.getElem?_eq_none (by rw [h.bits_length]; omega), List.getElem?_eq_none (by omega)]

theorem readPayload_eq :
    s.readPayload = (walkPayload s.dnode s.ctrl.trailer s.cfg.obufBytes s.payload nbits).map fun w => (nbits, w) :=
  readPayload_region h.fits h.valid (payloadRegion_of_bits h.long h.inside h.hard h.soft)

/-- An error at a payload bit is that of WALK. -/
theorem readPayload_of_walkBits_error {x : Stop}
    (hwalk : walkBits s.dnode 0 (s.payloadBitsOf nbits) ⟨0, Sink.start s.cfg.obufBytes⟩ = .error x) :
    s.readPayload = .error x := by
  rw [State.payloadBitsOf] at hwalk
  rw [h.readPayload_eq, walkPayload, hwalk]
  rfl

/-- A walk of all payload bits that ends at the root, or anywhere in reference mode, is that of WALK. -/
theorem readPayload_of_walkBits {w : Walker}
    (hwalk : walkBits s.dnode 0 (s.payloadBitsOf nbits) ⟨0, Sink.start s.cfg.obufBytes⟩ = .ok w)
    (hend : s.ctrl.trailer = true → w.pos = 0) : s.readPayload = .ok (nbits, w) := by
  have whole : ¬ (s.ctrl.trailer && decide (w.pos ≠ 0)) = true := by simpa using hend
  rw [State.payloadBitsOf] at hwalk
  rw [h.readPayload_eq, walkPayload, hwalk]
  exact congrArg (Except.map fun w => (nbits, w)) (if_neg whole)

/-- A walk of all payload bits that ends inside a code is an error in hardened mode (44_decoder.md R315). -/
theorem readPayload_of_cutShort {w : Walker}
    (hwalk : walkBits s.dnode 0 (s.payloadBitsOf nbits) ⟨0, Sink.start s.cfg.obufBytes⟩ = .ok w)
    (ht : s.ctrl.trailer = true) (hend : w.pos ≠ 0) :
    s.readPayload = .error ⟨w.sink.written, errorAt .badPayload nbits⟩ := by
  have cut : (s.ctrl.trailer && decide (w.pos ≠ 0)) = true :=
    Bool.and_eq_true_iff.mpr ⟨ht, decide_eq_true hend⟩
  rw [State.payloadBitsOf] at hwalk
  rw [h.readPayload_eq, walkPayload, hwalk]
  exact congrArg (Except.map fun w => (nbits, w)) (if_pos cut)

end State.HasPayload

/-- WALK that ends with the symbols `syms` writes them and changes nothing else. -/
theorem exec_walk_holding {s : State} {nbits : Nat} {q : BitVec 16} {syms : List Byte}
    (h : s.readPayload = .ok (nbits, ⟨q, Sink.holding s.cfg.obufBytes syms⟩)) (hsyms : syms.length < 2 ^ 32)
    (hbits : nbits < 2 ^ 32) :
    ∃ t, exec .walk s = .next t ∧ CompletedOk s t ∧ HasOutput s t syms ∧ t.payloadBits.toNat = nbits ∧
      SameAllTables s t := by
  have written : HasOutput s (completeOk (s.walkedWith nbits ⟨q, Sink.holding s.cfg.obufBytes syms⟩)) syms :=
    hasOutput_of_written rfl (congrArg s.obuf.writeOutput (Sink.bytes_holding _ _)) hsyms
  refine ⟨_, exec_walk_of_ok h, ⟨rfl, rfl, rfl⟩, written, ?_,
    ⟨rfl, rfl, fun _ => rfl, rfl, rfl, rfl⟩, rfl, ⟨rfl, rfl, rfl⟩, rfl, rfl, rfl, rfl, rfl, rfl⟩
  exact (BitVec.toNat_ofNat _ _).trans (Nat.mod_eq_of_lt hbits)

/-! ### A root that is a LEAF (44_decoder.md R314) -/

theorem walkBit_rootLeaf {dnode : Table DNode 511} (hroot : (dnodeAt dnode 0).kind = .leaf) (i : Nat) (b : Bool)
    (w : Walker) : walkBit dnode i b w = (put (dnodeAt dnode 0).sym w.sink).map fun k => { w with sink := k } := by
  simp only [walkBit, if_pos hroot]
  cases put (dnodeAt dnode 0).sym w.sink <;> rfl

/-- Each bit puts out the symbol of the root, until the output is full. -/
theorem walkBits_rootLeaf {dnode : Table DNode 511} (hroot : (dnodeAt dnode 0).kind = .leaf) {room : Nat} {held : List Byte}
    (hheld : held.length ≤ room) (bits : List Bool) (i : Nat) (p : BitVec 16) :
    walkBits dnode i bits ⟨p, Sink.holding room held⟩ =
      if held.length + bits.length ≤ room
        then .ok ⟨p, Sink.holding room (held ++ List.replicate bits.length (dnodeAt dnode 0).sym)⟩
        else .error (overflow room) := by
  induction bits generalizing held i with
  | nil => simp [walkBits, hheld]
  | cons b bs ih =>
    rw [walkBits, walkBit_rootLeaf hroot, put_holding _ hheld, List.length_cons]
    by_cases hroom : held.length + 1 ≤ room
    · have more := ih (held := held ++ [(dnodeAt dnode 0).sym]) (by simpa using hroom) (i + 1)
      rw [List.length_append, List.length_singleton, List.append_assoc, List.singleton_append, ← List.replicate_succ,
        Nat.add_assoc, Nat.add_comm 1] at more
      rw [if_pos hroom]
      exact more
    · rw [if_neg hroom, if_neg (by omega)]
      rfl

/-- Settles O53: the walk puts out the root's symbol for each payload bit, until OBUF is full. -/
theorem walkOfRootLeaf : Obligations.WalkOfRootLeaf := by
  intro s nbits limit off hwf hfits hvalid hlong hoff hhard hsoft hroot
  have payload : s.HasPayload nbits := ⟨hfits, hvalid, hlong, hoff, hhard, hsoft⟩
  obtain ⟨-, -, -, small⟩ := (config_wf_iff _).mp hwf
  have walk := walkBits_rootLeaf hroot (held := []) (Nat.zero_le s.cfg.obufBytes) (s.payloadBitsOf nbits) 0 0
  rw [payload.bits_length, List.length_nil, Nat.zero_add, List.nil_append] at walk
  refine ⟨fun room => ?_, fun full => ?_⟩
  · obtain ⟨t, ht, completed, written, total, -, -, -, -, decoder⟩ := exec_walk_holding
      (payload.readPayload_of_walkBits (walk.trans (if_pos room)) fun _ => rfl) (by rw [List.length_replicate]; omega)
      (payload.nbits_lt hwf)
    exact ⟨t, ht, completed, written, total, decoder⟩
  · obtain ⟨t, ht, completed, dst, bits, ⟨-, -, -, -, decoder⟩, -⟩ := exec_walk_of_error
      (payload.readPayload_of_walkBits_error (walk.trans (if_neg (Nat.not_le.mpr full))))
    exact ⟨t, ht, completed, dst, bits, decoder⟩

/-! ### Whole codes and a partial path (44_decoder.md R313, R315) -/

/-- Whole codes from the root on put out their symbols. -/
theorem walkBits_codes_start {dnode : Table DNode 511} (hroot : (dnodeAt dnode 0).kind ≠ .leaf) {codes : List Entry}
    (hcodes : ∀ c ∈ codes, leafOnPath dnode 0 c.2 = some c.1) {room : Nat} (hroom : codes.length ≤ room) (rest : List Bool) :
    walkBits dnode 0 ((codes.map Prod.snd).flatten ++ rest) ⟨0, Sink.start room⟩ =
      walkBits dnode (codes.map Prod.snd).flatten.length rest ⟨0, Sink.holding room (codes.map Prod.fst)⟩ := by
  have nonempty (c : Entry) (hc : c ∈ codes) : c.2 ≠ [] := fun empty => by
    have path := hcodes c hc
    rw [empty] at path
    exact hroot (leafOnPath_nil_some path).1
  rw [walkBits_codes (fun c hc => ⟨hcodes c hc, nonempty c hc⟩) (by simpa [Sink.start] using hroom)]
  simp [Sink.start, Sink.holding]

/-- The node that the links on a path lead to. -/
def descendant (dnode : Table DNode 511) (p : BitVec 16) (path : List Bool) : BitVec 16 :=
  path.foldl (fun q b => (dnodeAt dnode q).child b) p

theorem staysInside_cons {dnode : Table DNode 511} {p : BitVec 16} {b : Bool} {path : List Bool}
    (h : staysInside dnode p (b :: path) = true) :
    (dnodeAt dnode p).child b ≠ DNode.noChild ∧ staysInside dnode ((dnodeAt dnode p).child b) path = true := by
  simp only [staysInside, Bool.and_eq_true, decide_eq_true_eq] at h
  obtain ⟨⟨-, linked⟩, next⟩ := h
  exact ⟨linked, next⟩

/-- A partial path puts out nothing and ends at its last node. -/
theorem walkBits_inside {dnode : Table DNode 511} (hroot : (dnodeAt dnode 0).kind ≠ .leaf) {p : BitVec 16}
    {path : List Bool} (h : staysInside dnode p path = true) (i : Nat) (k : Sink) (rest : List Bool) :
    walkBits dnode i (path ++ rest) ⟨p, k⟩ = walkBits dnode (i + path.length) rest ⟨descendant dnode p path, k⟩ := by
  induction path generalizing p i with
  | nil => rfl
  | cons b path ih =>
    obtain ⟨linked, next⟩ := staysInside_cons h
    rw [List.cons_append, walkBits, walkBit_child i hroot linked, if_neg (staysInside_notLeaf next), List.length_cons,
      Nat.add_comm path.length, ← Nat.add_assoc]
    exact ih next (i + 1)

/-- Settles O52: the walk puts out a symbol for each whole code and nothing for the partial path after them. -/
theorem walkDecodesThePaths : Obligations.WalkDecodesThePaths := by
  intro s nbits codes tail limit off bits hwf hfits hvalid hlong hoff hhard hsoft hlength hbits hroot hcodes htail hroom
  have payload : s.HasPayload nbits :=
    ⟨hfits, hvalid, hlong, hoff, fun ht => ⟨(hhard ht).1, (hhard ht).2.1⟩, hsoft⟩
  obtain ⟨-, -, -, small⟩ := (config_wf_iff _).mp hwf
  have spelled : s.payloadBitsOf nbits = (codes.map Prod.snd).flatten ++ tail := payload.bits_eq hlength hbits
  have walk := walkBits_codes_start hroot hcodes hroom (tail ++ [])
  rw [walkBits_inside hroot htail, List.append_nil, ← spelled] at walk
  have whole (ht : s.ctrl.trailer = true) : descendant s.dnode 0 tail = 0 := by
    obtain ⟨-, -, rfl⟩ := hhard ht
    rfl
  exact exec_walk_holding (payload.readPayload_of_walkBits walk whole) (by rw [List.length_map]; omega)
    (payload.nbits_lt hwf)

end Sys2Proof.Machine
end

section
/-! SUPPORT. WALK's errors in the payload: where a partial path goes on to nothing, ends, or puts out one symbol too many
(44_decoder.md R313, R315; 43_encoder_frame.md R261). -/

namespace Sys2Proof.Machine

open Sys2Proof

section Partial

variable {dnode : Table DNode 511} {p : BitVec 16} {path : List Bool}

/-! ### One bit after a partial path -/

theorem staysInside_concat (h : staysInside dnode p path = true) (b : Bool) :
    staysInside dnode p (path ++ [b]) =
      (decide ((dnodeAt dnode (descendant dnode p path)).child b ≠ DNode.noChild) &&
        decide ((dnodeAt dnode ((dnodeAt dnode (descendant dnode p path)).child b)).kind ≠ .leaf)) := by
  induction path generalizing p with
  | nil =>
    have notLeaf := staysInside_notLeaf h
    rw [List.nil_append, staysInside, decide_eq_true notLeaf, Bool.true_and]
    rfl
  | cons c path ih =>
    have notLeaf := staysInside_notLeaf h
    obtain ⟨linked, next⟩ := staysInside_cons h
    rw [List.cons_append, staysInside]
    simp only [decide_eq_true notLeaf, decide_eq_true linked, Bool.true_and]
    exact ih next

theorem leafOnPath_concat (h : staysInside dnode p path = true) (b : Bool) :
    leafOnPath dnode p (path ++ [b]) =
      if (dnodeAt dnode (descendant dnode p path)).child b = DNode.noChild then none
      else leafOnPath dnode ((dnodeAt dnode (descendant dnode p path)).child b) [] := by
  induction path generalizing p with
  | nil => exact if_congr (or_iff_right (staysInside_notLeaf h)) rfl rfl
  | cons c path ih =>
    have notLeaf := staysInside_notLeaf h
    obtain ⟨linked, next⟩ := staysInside_cons h
    exact (if_neg (not_or.mpr ⟨notLeaf, linked⟩)).trans (ih next)

/-- A partial path that one more bit takes neither to a partial path nor to a LEAF lacks the child. -/
theorem child_eq_noChild (h : staysInside dnode p path = true) {b : Bool} (hout : staysInside dnode p (path ++ [b]) = false)
    (hnone : leafOnPath dnode p (path ++ [b]) = none) :
    (dnodeAt dnode (descendant dnode p path)).child b = DNode.noChild := by
  by_contra linked
  rw [staysInside_concat h, decide_eq_true linked, Bool.true_and, decide_eq_false_iff_not, not_not] at hout
  rw [leafOnPath_concat h, if_neg linked, leafOnPath, if_pos hout] at hnone
  cases hnone

/-- A path to a LEAF that is not empty is a partial path and a bit whose child is the LEAF. -/
theorem exists_lastBit {sym : Byte} (hroot : (dnodeAt dnode p).kind ≠ .leaf) (h : leafOnPath dnode p path = some sym) :
    ∃ pre b, path = pre ++ [b] ∧ staysInside dnode p pre = true ∧
      (dnodeAt dnode (descendant dnode p pre)).child b ≠ DNode.noChild ∧
      (dnodeAt dnode ((dnodeAt dnode (descendant dnode p pre)).child b)).kind = .leaf := by
  obtain rfl | ⟨pre, b, rfl⟩ := List.eq_nil_or_concat' path
  · exact absurd (leafOnPath_nil_some h).1 hroot
  · have inside := staysInside_of_leafOnPath h (List.cons_ne_nil b [])
    rw [leafOnPath_concat inside] at h
    split at h
    · cases h
    · next linked => exact ⟨pre, b, rfl, inside, linked, (leafOnPath_nil_some h).1⟩

/-- Links name later entries, so a partial path ends at least as many entries on as it has bits. -/
theorem DecLinksOk.le_descendant {cnt : Nat} (links : DecLinksOk dnode cnt) (hp : p.toNat < cnt)
    (h : staysInside dnode p path = true) : p.toNat + path.length ≤ (descendant dnode p path).toNat := by
  induction path generalizing p with
  | nil => exact Nat.le_refl _
  | cons b path ih =>
    obtain ⟨linked, next⟩ := staysInside_cons h
    have link : LinkOk cnt p.toNat ((dnodeAt dnode p).child b) := by
      obtain ⟨-, -, entries, -⟩ := links
      obtain ⟨left, right, -⟩ := entries p.toNat hp
      cases b with
      | false => exact left
      | true => exact right
    obtain ⟨later, inUse⟩ := link.resolve_left linked
    have rest := ih inUse next
    rw [List.length_cons]
    change _ ≤ (descendant dnode ((dnodeAt dnode p).child b) path).toNat
    omega

end Partial

theorem walkBit_noChild {dnode : Table DNode 511} {p : BitVec 16} {b : Bool} (hroot : (dnodeAt dnode 0).kind ≠ .leaf)
    (hb : (dnodeAt dnode p).child b = DNode.noChild) (i : Nat) (k : Sink) :
    walkBit dnode i b ⟨p, k⟩ = .error ⟨k.written, errorAt .badPayload i⟩ := by
  simp only [walkBit, if_neg hroot, if_pos hb]

/-- A LEAF whose symbol no longer fits is DST_OVERFLOW. -/
theorem walkBit_full {dnode : Table DNode 511} {p : BitVec 16} {b : Bool} (hroot : (dnodeAt dnode 0).kind ≠ .leaf)
    (hb : (dnodeAt dnode p).child b ≠ DNode.noChild) (hleaf : (dnodeAt dnode ((dnodeAt dnode p).child b)).kind = .leaf)
    {room : Nat} {held : List Byte} (hfull : held.length = room) (i : Nat) :
    walkBit dnode i b ⟨p, Sink.holding room held⟩ = .error (overflow room) := by
  rw [walkBit_child i hroot hb, if_pos hleaf, put_holding _ (Nat.le_of_eq hfull), if_neg (by omega)]
  rfl

theorem walkBits_cons_error {dnode : Table DNode 511} {i : Nat} {b : Bool} {w : Walker} {x : Stop}
    (h : walkBit dnode i b w = .error x) (rest : List Bool) : walkBits dnode i (b :: rest) w = .error x := by
  rw [walkBits, h]

/-- Settles O55: the walk puts out the symbols of the whole codes, goes along the partial path, and ends there in the error;
links name later entries, so the partial path does not end at the root. -/
theorem walkPayloadErrors : Obligations.WalkPayloadErrors := by
  intro s off nbits codes tail rest limit done fails hwf hfits hvalid hlong hoff hinside hhard hsoft hlength hbits links hroot
    hcodes hroom
  subst hoff
  have payload : s.HasPayload nbits := ⟨hfits, hvalid, hlong, hinside, hhard, hsoft⟩
  have fail {x : Stop} (hx : s.readPayload = .error x) (hwritten : x.written = (codes.map Prod.fst).length) :
      ∃ t, exec .walk s = .next t ∧ CompletedError s t x.error.code.value x.error.info ∧ t.dstLen = 0 ∧
        t.payloadBits = 0 ∧ SameDecoder s t ∧ (codes = [] → ∀ k, t.obuf.read k = s.obuf.read k) := by
    obtain ⟨t, ht, completed, dst, bits, ⟨-, -, -, -, decoder⟩, obuf⟩ := exec_walk_of_error hx
    exact ⟨t, ht, completed, dst, bits, decoder, fun empty => obuf (by rw [hwritten, empty]; rfl)⟩
  have spelled : s.payloadBitsOf nbits = done ++ (tail ++ rest) :=
    (payload.bits_eq hlength hbits).trans (List.append_assoc _ _ _)
  have walkCodes := walkBits_codes_start hroot hcodes hroom (tail ++ rest)
  rw [← spelled] at walkCodes
  refine ⟨fun inside => ?_, fun sym path full => ?_⟩
  · have walkTail := walkCodes.trans (walkBits_inside hroot inside _ _ rest)
    refine ⟨?_, ?_⟩
    · rintro b more rfl out none
      have stop := walkBits_cons_error (walkBit_noChild hroot (child_eq_noChild inside out none) (done.length + tail.length)
        (Sink.holding s.cfg.obufBytes (codes.map Prod.fst))) more
      exact fail (payload.readPayload_of_walkBits_error (walkTail.trans stop)) rfl
    · rintro rfl nonempty ht
      have deep := links.le_descendant (p := 0) links.1 inside
      have positive := List.length_pos_iff.mpr nonempty
      have notRoot : descendant s.dnode 0 tail ≠ 0 := fun root => by
        rw [root] at deep
        omega
      exact fail (payload.readPayload_of_cutShort walkTail ht notRoot) rfl
  · obtain ⟨pre, b, rfl, inside, linked, leaf⟩ := exists_lastBit hroot path
    have count : (codes.map Prod.fst).length = s.cfg.obufBytes := by rw [List.length_map, full]
    have stop := walkBits_cons_error (walkBit_full hroot linked leaf count (done.length + pre.length)) rest
    rw [List.append_assoc, walkBits_inside hroot inside] at walkCodes
    exact fail (payload.readPayload_of_walkBits_error (walkCodes.trans stop)) count.symm

end Sys2Proof.Machine
end

section
/-! SUPPORT. DECODE as REBUILD's reading of the table and WALK's reading of the payload, on which alone its results depend
(44_decoder.md R320, R321; 60_exceptions.md R405). -/

namespace Sys2Proof.Machine

open Sys2Proof

/-! ### DECODE is REBUILD and then WALK -/

theorem exec_decode_of_ok {s : State} {num : Nat} {r : Parser} (h : s.readTable = .ok (num, r)) :
    exec .decode s = exec .walk (s.rebuilt num r) := by
  rw [exec_eq_complete, exec_eq_complete, commandBody, commandBody, decodeBody, rebuildBody_of_ok h]

/-- REBUILD's error is that of DECODE, which also zeroes the results and leaves OBUF. -/
theorem exec_decode_of_error {s : State} {e : CmdError} (h : s.readTable = .error e) :
    ∃ t u, exec .rebuild s = .next t ∧ exec .decode s = .next u ∧ CompletedError s t e.code.value e.info ∧
      CompletedError s u e.code.value e.info ∧ u.decValid = false ∧ u.dstLen = 0 ∧ u.payloadBits = 0 ∧
      u.obuf = s.obuf := by
  obtain ⟨d, n, c, o, k, hraise⟩ := raiseRebuild_eq s e
  have body := (rebuildBody_of_error h).trans hraise
  have decoded : exec .decode s = .next (completeError { s with
      decValid := false, dnode := d, decNodes := n, decNcodes := c, decPayloadOff := o, draws := k, dstLen := 0,
      payloadBits := 0 } e) := by
    rw [exec_eq_complete, commandBody, decodeBody, body]
    rfl
  exact ⟨_, _, (exec_eq_complete .rebuild s).trans (congrArg complete body), decoded, ⟨rfl, rfl, rfl⟩, ⟨rfl, rfl, rfl⟩, rfl,
    rfl, rfl, rfl⟩

/-- WALK does not see that an earlier command has completed: its own completion writes the same bits. -/
theorem exec_walk_completeOk (s : State) : exec .walk (completeOk s) = exec .walk s := by
  obtain ⟨raised, done⟩ := walkBody_readPayload s
  obtain ⟨raised', done'⟩ := walkBody_readPayload (completeOk s)
  rw [exec_eq_complete, exec_eq_complete, commandBody, commandBody]
  cases h : s.readPayload with
  | error x =>
    rw [raised x h, raised' x h]
    exact complete_raiseOutput_completeOk s _ _
  | ok r =>
    obtain ⟨nbits, w⟩ := r
    rw [done nbits w h, done' nbits w h]
    rfl

/-- Settles O56: REBUILD ends as its reading of the table does, and DECODE goes on from there or has the same error. -/
theorem decodeIsRebuildThenWalk : Obligations.DecodeIsRebuildThenWalk := by
  intro s t ht
  cases h : s.readTable with
  | error e =>
    obtain ⟨t', u, ht', hu, ⟨status, info, -⟩, ⟨status', info', -⟩, invalid, dst, bits, obuf⟩ := exec_decode_of_error h
    cases ht.symm.trans ht'
    refine ⟨fun success => ?_, fun _ =>
      ⟨u, hu, status'.trans status.symm, info'.trans info.symm, invalid, dst, bits, fun k => by rw [obuf]⟩⟩
    rw [status] at success
    exact absurd success e.code.value_ne_zero
  | ok table =>
    obtain ⟨num, r⟩ := table
    have rebuilt : exec .rebuild s = .next (completeOk (s.rebuilt num r)) :=
      (exec_eq_complete .rebuild s).trans (congrArg complete (rebuildBody_of_ok h))
    cases ht.symm.trans rebuilt
    exact ⟨fun _ => (exec_decode_of_ok h).trans (exec_walk_completeOk _).symm, fun failed => absurd rfl failed⟩

/-! ### What DECODE reads -/

theorem output_of_dstLen_zero {s : State} (h : s.dstLen = 0) : output s = [] := by
  rw [output, h]
  rfl

/-- The output of WALK is what it put out, as far as DST_LEN counts it. -/
theorem output_walkedWith (s : State) (nbits : Nat) {w : Walker} (h : SinkOk w.sink) :
    output (s.walkedWith nbits w) = w.sink.bytes.take (BitVec.ofNat 32 w.sink.written).toNat := by
  have inside : (BitVec.ofNat 32 w.sink.written).toNat ≤ w.sink.bytes.length := by
    rw [h.bytes_length, BitVec.toNat_ofNat]
    exact Nat.mod_le _ _
  have length : (output (s.walkedWith nbits w)).length =
      (w.sink.bytes.take (BitVec.ofNat 32 w.sink.written).toNat).length := by
    rw [List.length_take, Nat.min_eq_left inside]
    simp [output, State.walkedWith]
  refine List.ext_getElem length fun k hk hk' => ?_
  rw [List.length_take] at hk'
  have byte : (s.obuf.writeOutput w.sink.bytes).read k = w.sink.bytes[k] :=
    Memory.read_writeOutput_inside _ _ _ (by omega)
  simp [output, State.walkedWith, byte]

theorem readPayload_sinkOk {s : State} {nbits : Nat} {w : Walker} (h : s.readPayload = .ok (nbits, w)) : SinkOk w.sink := by
  unfold State.readPayload at h
  split at h
  · split at h
    · split at h
      · cases h
      · next off len n _ =>
        cases hwalk : walkPayload s.dnode s.ctrl.trailer s.cfg.obufBytes (slice (input s) off len) n with
        | error x =>
          rw [hwalk] at h
          cases h
        | ok w' =>
          rw [hwalk] at h
          cases h
          exact (walkPayload_fits hwalk).1
    · cases h
  · cases h

section

variable {s s' : State} (htrailer : s'.ctrl.trailer = s.ctrl.trailer) (hlen : s'.srcLen = s.srcLen)
include htrailer hlen

theorem frameLimit_congr : frameLimit s' = frameLimit s := by
  unfold frameLimit
  rw [htrailer, hlen]

variable (hinput : input s' = input s)
include hinput

theorem payloadRegion_congr (hoff : s'.decPayloadOff = s.decPayloadOff) : payloadRegion s' = payloadRegion s := by
  unfold payloadRegion
  rw [frameLimit_congr htrailer hlen, hoff, htrailer, hinput]

variable (hcfg : s'.cfg = s.cfg)
include hcfg

theorem readTable_congr : s'.readTable = s.readTable := by
  unfold State.readTable srcFits srcLenError
  rw [frameLimit_congr htrailer hlen, hinput, hlen, hcfg]

theorem readPayload_congr (decoder : SameDecoder s s') : s'.readPayload = s.readPayload := by
  obtain ⟨hdnode, -, -, hoff, hvalid⟩ := decoder
  unfold State.readPayload srcFits srcLenError
  rw [payloadRegion_congr htrailer hlen hinput hoff, hinput, hlen, hcfg, htrailer, hdnode, hvalid]

end

/-- What keeps the decoder's tables of two states that agree on them gives two that agree on them. -/
theorem sameDecoder_of_same {s s' t t' : State} (agree : SameDecoder s s') (h : SameDecoder s t) (h' : SameDecoder s' t') :
    SameDecoder t t' := by
  obtain ⟨dnode, nodes, ncodes, off, valid⟩ := agree
  obtain ⟨dnode₁, nodes₁, ncodes₁, off₁, valid₁⟩ := h
  obtain ⟨dnode₂, nodes₂, ncodes₂, off₂, valid₂⟩ := h'
  simp only [SameDecoder, *, and_self]

/-- Settles O58: the reading of the table and that of the payload depend on the frame alone, and DECODE's results are what they
end in. -/
theorem decodeReadsOnlyTheFrame : Obligations.DecodeReadsOnlyTheFrame := by
  intro s s' t t' hcfg htrailer hlen hinput ht ht'
  have table := readTable_congr htrailer hlen hinput hcfg
  cases h : s.readTable with
  | error e =>
    obtain ⟨-, u, -, hu, -, ⟨status, info, -⟩, invalid, dst, bits, -⟩ := exec_decode_of_error h
    obtain ⟨-, u', -, hu', -, ⟨status', info', -⟩, invalid', dst', bits', -⟩ := exec_decode_of_error (table.trans h)
    cases ht.symm.trans hu
    cases ht'.symm.trans hu'
    rw [status, status', info, info', dst, dst', bits, bits', invalid, invalid', output_of_dstLen_zero dst,
      output_of_dstLen_zero dst']
    exact ⟨rfl, fun _ => rfl, rfl, rfl, rfl, rfl, nofun⟩
  | ok result =>
    obtain ⟨num, r⟩ := result
    have agree : SameDecoder (s.rebuilt num r) (s'.rebuilt num r) := ⟨rfl, rfl, rfl, rfl, rfl⟩
    have payload : (s'.rebuilt num r).readPayload = (s.rebuilt num r).readPayload :=
      readPayload_congr htrailer hlen hinput hcfg agree
    rw [exec_decode_of_ok h] at ht
    rw [exec_decode_of_ok (table.trans h)] at ht'
    cases hwalk : (s.rebuilt num r).readPayload with
    | error x =>
      obtain ⟨u, hu, ⟨status, info, -⟩, dst, bits, ⟨-, -, -, -, decoder⟩, -⟩ := exec_walk_of_error hwalk
      obtain ⟨u', hu', ⟨status', info', -⟩, dst', bits', ⟨-, -, -, -, decoder'⟩, -⟩ :=
        exec_walk_of_error (payload.trans hwalk)
      cases ht.symm.trans hu
      cases ht'.symm.trans hu'
      obtain ⟨dnode, nodes, ncodes, off, valid⟩ := sameDecoder_of_same agree decoder decoder'
      rw [status, status', info, info', dst, dst', bits, bits', output_of_dstLen_zero dst, output_of_dstLen_zero dst']
      exact ⟨rfl, fun _ => rfl, rfl, rfl, valid, rfl, fun _ => ⟨dnode, nodes, ncodes, off, valid⟩⟩
    | ok result =>
      obtain ⟨nbits, w⟩ := result
      have sink := readPayload_sinkOk hwalk
      cases ht.symm.trans (exec_walk_of_ok hwalk)
      cases ht'.symm.trans (exec_walk_of_ok (payload.trans hwalk))
      exact ⟨rfl, fun failed => absurd rfl failed, rfl, rfl, rfl,
        (output_walkedWith (s'.rebuilt num r) nbits sink).trans (output_walkedWith (s.rebuilt num r) nbits sink).symm,
        fun _ => agree⟩

end Sys2Proof.Machine
end

section
/-! SUPPORT. No command raises BAD_CMD, which is for words that are no command (60_exceptions.md R402): the errors of the
stages of REBUILD, WALK and EMIT, and of the commands made of them. -/

namespace Sys2Proof.Machine

open Sys2Proof

/-! ### Errors that meet a predicate -/

/-- If `x` is an error, it meets `P`. -/
def ErrorsMeet {ε α : Type} (P : ε → Prop) : Except ε α → Prop
  | .ok _ => True
  | .error e => P e

theorem ErrorsMeet.of_eq {ε α : Type} {P : ε → Prop} {x : Except ε α} {e : ε} (h : ErrorsMeet P x) (hx : x = .error e) :
    P e := by
  subst hx
  exact h

/-- A sequence raises the errors of its two parts. -/
theorem ErrorsMeet.bind {ε α β : Type} {P : ε → Prop} {x : Except ε α} {f : α → Except ε β} (hx : ErrorsMeet P x)
    (hf : ∀ a, ErrorsMeet P (f a)) : ErrorsMeet P (x >>= f) := by
  cases x with
  | error e => exact hx
  | ok a => exact hf a

/-- An error that a command may raise (60_exceptions.md R402). -/
def CmdError.OfCommand (e : CmdError) : Prop := e.code ≠ .badCmd

/-- An error that a command which writes OBUF may raise. -/
def Stop.OfCommand (x : Stop) : Prop := x.error.OfCommand

theorem errorsMeet_raise {α : Type} {e : CmdError} (h : e.code ≠ .badCmd) :
    ErrorsMeet CmdError.OfCommand (.error e : Except CmdError α) := h

theorem errorsMeet_stop {α : Type} {x : Stop} (h : x.error.code ≠ .badCmd) :
    ErrorsMeet Stop.OfCommand (.error x : Except Stop α) := h

/-! ### REBUILD (44_decoder.md R301 to R304) -/

theorem frameLimit_errors (s : State) : ErrorsMeet CmdError.OfCommand (frameLimit s) := by
  unfold frameLimit
  split
  · split
    · exact errorsMeet_raise nofun
    · trivial
  · trivial

theorem need_errors (limit pos k at_ : Nat) : ErrorsMeet CmdError.OfCommand (need limit pos k at_) := by
  unfold need
  split
  · exact errorsMeet_raise nofun
  · trivial

theorem readCodeChars_errors (at_ : Nat) (cs : List Byte) : ErrorsMeet CmdError.OfCommand (readCodeChars at_ cs) := by
  induction cs generalizing at_ with
  | nil => trivial
  | cons c cs ih =>
    unfold readCodeChars
    cases bitOfChar c with
    | none => exact errorsMeet_raise nofun
    | some b =>
      dsimp only
      split
      · next he => exact (ih (at_ + 1)).of_eq he
      · trivial

theorem descend_errors (ent : Nat) (bits : List Bool) (p : BitVec 16) (t : Tree) :
    ErrorsMeet CmdError.OfCommand (descend ent bits p t) := by
  induction bits generalizing p t with
  | nil => trivial
  | cons b bs ih =>
    simp only [descend]
    split
    · exact errorsMeet_raise nofun
    · split
      · split
        · exact errorsMeet_raise nofun
        · exact ih _ _
      · exact ih _ _

theorem insertCode_errors (sym : Byte) (bits : List Bool) (ent : Nat) (t : Tree) :
    ErrorsMeet CmdError.OfCommand (insertCode sym bits ent t) := by
  refine (descend_errors ent bits 0 t).bind fun ⟨u, p⟩ => ?_
  dsimp only
  split
  · trivial
  · exact errorsMeet_raise nofun

theorem parseEntry_errors (frame : List Byte) (limit : Nat) (r : Parser) :
    ErrorsMeet CmdError.OfCommand (parseEntry frame limit r) := by
  refine (need_errors _ _ _ _).bind fun _ => ?_
  dsimp only
  split
  · exact errorsMeet_raise nofun
  · refine (need_errors _ _ _ _).bind fun _ => ?_
    split
    · exact errorsMeet_raise nofun
    · exact (need_errors _ _ _ _).bind fun _ => (readCodeChars_errors _ _).bind fun _ =>
        (insertCode_errors _ _ _ _).bind fun _ => trivial

theorem parseEntries_errors (frame : List Byte) (limit n : Nat) (r : Parser) :
    ErrorsMeet CmdError.OfCommand (parseEntries frame limit n r) := by
  induction n generalizing r with
  | zero => trivial
  | succ n ih =>
    unfold parseEntries
    split
    · next he => exact (parseEntry_errors frame limit r).of_eq he
    · exact ih _

theorem parseTable_errors (frame : List Byte) (limit : Nat) : ErrorsMeet CmdError.OfCommand (parseTable frame limit) := by
  refine (need_errors _ _ _ _).bind fun _ => ?_
  dsimp only
  split
  · exact errorsMeet_raise nofun
  · exact (parseEntries_errors _ _ _ _).bind fun _ => trivial

theorem readTable_errors (s : State) : ErrorsMeet CmdError.OfCommand s.readTable := by
  unfold State.readTable
  split
  · exact (frameLimit_errors s).bind fun _ => parseTable_errors _ _
  · exact errorsMeet_raise nofun

/-! ### WALK (44_decoder.md R311 to R315) -/

theorem put_errors (b : Byte) (k : Sink) : ErrorsMeet Stop.OfCommand (put b k) := by
  unfold put
  split
  · exact errorsMeet_stop nofun
  · trivial

theorem walkBit_errors (dnode : Table DNode 511) (i : Nat) (b : Bool) (w : Walker) :
    ErrorsMeet Stop.OfCommand (walkBit dnode i b w) := by
  simp only [walkBit]
  split
  · split
    · next hx => exact (put_errors _ _).of_eq hx
    · trivial
  · split
    · exact errorsMeet_stop nofun
    · split
      · split
        · next hx => exact (put_errors _ _).of_eq hx
        · trivial
      · trivial

theorem walkBits_errors (dnode : Table DNode 511) (i : Nat) (bits : List Bool) (w : Walker) :
    ErrorsMeet Stop.OfCommand (walkBits dnode i bits w) := by
  induction bits generalizing i w with
  | nil => trivial
  | cons b bits ih =>
    unfold walkBits
    split
    · next hx => exact (walkBit_errors dnode i b w).of_eq hx
    · exact ih _ _

theorem walkPayload_errors (dnode : Table DNode 511) (trailer : Bool) (room : Nat) (payload : List Byte) (nbits : Nat) :
    ErrorsMeet Stop.OfCommand (walkPayload dnode trailer room payload nbits) := by
  refine (walkBits_errors _ _ _ _).bind fun w => ?_
  split
  · exact errorsMeet_stop nofun
  · trivial

theorem payloadRegion_errors (s : State) : ErrorsMeet CmdError.OfCommand (payloadRegion s) := by
  refine (frameLimit_errors s).bind fun limit => ?_
  dsimp only
  split
  · exact errorsMeet_raise nofun
  · split
    · split
      · exact errorsMeet_raise nofun
      · trivial
    · trivial

theorem readPayload_errors (s : State) : ErrorsMeet Stop.OfCommand s.readPayload := by
  unfold State.readPayload
  split
  · split
    · have region := payloadRegion_errors s
      split
      · next e he => exact errorsMeet_stop (region.of_eq he)
      · exact (walkPayload_errors _ _ _ _ _).bind fun _ => trivial
    · exact errorsMeet_stop nofun
  · exact errorsMeet_stop nofun

/-! ### EMIT (43_encoder_frame.md R262 to R265) -/

/-- EMIT ends in DST_OVERFLOW, in the NO_CODE of the first byte without a code, or without an error. -/
theorem emitFrame_errors (code : Table CodeEntry 256) (trailer : Bool) (room : Nat) (bytes : List Byte) :
    ErrorsMeet Stop.OfCommand (emitFrame code trailer room bytes) := by
  cases first : bytes.find? fun b => !(codeAt code b).valid with
  | none =>
    have valid : ∀ b ∈ bytes, (codeAt code b).valid = true := by simpa using first
    rw [emitFrame_eq valid]
    split
    · trivial
    · exact errorsMeet_stop nofun
  | some b =>
    obtain ⟨hb, pre, post, rfl, hpre⟩ := List.find?_eq_some_iff_append.mp first
    rw [emitFrame_noCode (by simpa using hpre) (by simpa using hb)]
    split <;> exact errorsMeet_stop nofun

/-! ### The commands -/

/-- `o` is a completion of `s`, without an error or with one that a command may raise. -/
def Completes (s : State) (o : Host.Outcome State Fault Refusal) : Prop :=
  ∃ t, o = .next t ∧
    (CompletedOk s t ∨ ∃ e : CmdError, e.OfCommand ∧ CompletedError s t e.code.value e.info)

/- The completions below are those of the state that the body made; its STATUS and ERR_INFO are those of `s`, so they are
completions of `s`. -/

theorem completes_completeOk (s : State) : Completes s (.next (completeOk s)) := ⟨_, rfl, .inl ⟨rfl, rfl, rfl⟩⟩

theorem completes_completeError (s : State) {e : CmdError} (h : e.OfCommand) : Completes s (.next (completeError s e)) :=
  ⟨_, rfl, .inr ⟨e, h, rfl, rfl, rfl⟩⟩

theorem completes_raiseOutput (s : State) (o : Nat) {e : CmdError} (h : e.OfCommand) :
    Completes s (complete (raiseOutput s o e)) := by
  obtain ⟨t, ht, completed, -⟩ := complete_raiseOutput s o e
  exact ⟨t, ht, .inr ⟨e, h, completed⟩⟩

theorem srcLenError_ofCommand (s : State) : (srcLenError s).OfCommand := nofun

theorem exec_build_empty {s : State} (h : encNsym s.freq = 0) :
    exec .build s = .next (completeError s (errorAt .emptyFreq 0)) :=
  (exec_eq_complete .build s).trans (congrArg complete (if_pos h))

theorem exec_gencodes_noTree {s : State} (h : s.encNodes = 0) :
    exec .gencodes s = .next (completeError s (errorAt .noTree 0)) :=
  (exec_eq_complete .gencodes s).trans (congrArg complete (if_pos h))

theorem exec_count_completes (s : State) : Completes s (exec .count s) := by
  obtain fits | tooLong := le_or_gt s.srcLen.toNat s.cfg.ibufBytes
  · rw [exec_count_fits fits]
    exact completes_completeOk { s with freq := countBytes (input s) }
  · rw [exec_count_tooLong tooLong]
    exact completes_completeError s (srcLenError_ofCommand s)

theorem exec_build_completes (s : State) : Completes s (exec .build s) := by
  by_cases h : encNsym s.freq = 0
  · rw [exec_build_empty h]
    exact completes_completeError s nofun
  · rw [exec_build h]
    exact completes_completeOk s.built

theorem exec_gencodes_completes (s : State) : Completes s (exec .gencodes s) := by
  by_cases h : s.encNodes = 0
  · rw [exec_gencodes_noTree h]
    exact completes_completeError s nofun
  · rw [exec_gencodes h]
    exact completes_completeOk { s with code := codesOf s.enode s.encRoot.toNat }

theorem exec_emit_completes (s : State) : Completes s (exec .emit s) := by
  obtain fits | tooLong := le_or_gt s.srcLen.toNat s.cfg.ibufBytes
  · cases h : emitFrame s.code s.ctrl.trailer s.cfg.obufBytes (input s) with
    | error x =>
      rw [exec_emit_of_error fits h]
      exact completes_raiseOutput s _ ((emitFrame_errors _ _ _ _).of_eq h)
    | ok p =>
      rw [exec_emit_of_ok fits h]
      exact completes_completeOk (s.emitted p)
  · rw [exec_emit_tooLong tooLong]
    exact completes_raiseOutput s 0 (srcLenError_ofCommand s)

theorem exec_encode_completes (s : State) : Completes s (exec .encode s) := by
  obtain fits | tooLong := le_or_gt s.srcLen.toNat s.cfg.ibufBytes
  · rw [exec_encode_fits fits]
    have coded := coded_writesEncoder s
    obtain ⟨t, ht, completed | ⟨e, he, completed⟩⟩ := exec_emit_completes s.coded
    · exact ⟨t, ht, .inl (coded.completedOk completed)⟩
    · exact ⟨t, ht, .inr ⟨e, he, coded.completedError completed⟩⟩
  · rw [exec_encode_tooLong tooLong]
    exact completes_raiseOutput s 0 (srcLenError_ofCommand s)

theorem exec_rebuild_completes (s : State) : Completes s (exec .rebuild s) := by
  cases h : s.readTable with
  | error e =>
    obtain ⟨t, ht, completed, -⟩ := exec_rebuild_of_error h
    exact ⟨t, ht, .inr ⟨e, (readTable_errors s).of_eq h, completed⟩⟩
  | ok table =>
    rw [exec_eq_complete, commandBody, rebuildBody_of_ok h]
    exact completes_completeOk (s.rebuilt table.1 table.2)

theorem exec_walk_completes (s : State) : Completes s (exec .walk s) := by
  cases h : s.readPayload with
  | error x =>
    obtain ⟨t, ht, completed, -⟩ := exec_walk_of_error h
    exact ⟨t, ht, .inr ⟨x.error, (readPayload_errors s).of_eq h, completed⟩⟩
  | ok walk =>
    rw [exec_walk_of_ok h]
    exact completes_completeOk (s.walkedWith walk.1 walk.2)

/-- REBUILD leaves the handshake to WALK, which completes for both. -/
theorem exec_decode_completes (s : State) : Completes s (exec .decode s) := by
  cases h : s.readTable with
  | error e =>
    obtain ⟨-, t, -, ht, -, completed, -⟩ := exec_decode_of_error h
    exact ⟨t, ht, .inr ⟨e, (readTable_errors s).of_eq h, completed⟩⟩
  | ok table =>
    rw [exec_decode_of_ok h]
    exact exec_walk_completes (s.rebuilt table.1 table.2)

theorem exec_completes (i : Instr) (s : State) : Completes s (exec i s) := by
  cases i with
  | nop => exact exec_nop s ▸ completes_completeOk s
  | clear => exact exec_clear s ▸ completes_completeOk (clearTables s)
  | encode => exact exec_encode_completes s
  | count => exact exec_count_completes s
  | build => exact exec_build_completes s
  | gencodes => exact exec_gencodes_completes s
  | emit => exact exec_emit_completes s
  | decode => exact exec_decode_completes s
  | rebuild => exact exec_rebuild_completes s
  | walk => exact exec_walk_completes s

/-- The codes of R402 are those of the errors that a command may raise. -/
theorem errCode_value_mem {c : ErrCode} (h : c ≠ .badCmd) :
    c.value ∈
      ([0x10, 0x11, 0x20, 0x21, 0x22, 0x30, 0x31, 0x32, 0x33, 0x34, 0x35, 0x36, 0x37, 0x38, 0x39] : List Byte) := by
  revert h
  cases c <;> decide

/-- Settles O20: every stage of a command ends without an error or with one that is not BAD_CMD, and none writes the handshake
before the completion. -/
theorem everyCommandCompletes : Obligations.EveryCommandCompletes := by
  intro i s
  obtain ⟨t, ht, completed | ⟨e, he, completed⟩⟩ := exec_completes i s
  · exact ⟨t, ht, .inl completed⟩
  · exact ⟨t, ht, .inr ⟨e.code.value, errCode_value_mem he, e.info, completed⟩⟩

end Sys2Proof.Machine
end

section
/-! SUPPORT. The core's turn, the handshake BUSY, DONE and PENDING_OP that every step keeps in order, and the interrupt
(60_exceptions.md R410, R420, R421, R423). -/

namespace Sys2Proof.Machine

open Sys2Proof

/-! ### The core's turn -/

theorem coreStep_decoded {s : State} {v : Word} {i : Instr} (hpending : s.pendingOp = some v) (hd : decode v = .ok i) :
    coreStep s = exec i s := by
  simp [coreStep, fetch, hpending, hd]

/-- Settles O4: the turn is the core's, and its step runs what the pending word decodes to. -/
theorem stepRunsDecodedCommand : Obligations.StepRunsDecodedCommand := by
  constructor
  · intro s v i hbusy hpending hd
    have run {rest : List Turn} (hturn : (s.agenda = [] ∧ rest = []) ∨ s.agenda = .core :: rest) :
        step s = exec i { s with agenda := rest } :=
      (step_eq_coreStep hbusy hturn).trans (coreStep_decoded hpending hd)
    refine ⟨fun usedUp => ?_, fun rest hagenda => run (.inr hagenda)⟩
    have same : { s with agenda := [] } = s := by rw [← usedUp]
    rw [run (.inl ⟨usedUp, rfl⟩), same]
  · intro s w i hd
    have word : s.withFetchWord 32 w = { accept (BitVec.ofNat 32 w) s with agenda := .core :: s.agenda } := by
      have sameWord : BitVec.ofNat 32 (w % 2 ^ 32) = BitVec.ofNat 32 w := BitVec.eq_of_toNat_eq (by simp)
      rw [State.withFetchWord, sameWord]
    rw [word]
    exact (step_eq_coreStep rfl (.inr rfl)).trans (coreStep_decoded rfl hd)

/-! ### The interrupt -/

theorem Completes.done {s t : State} (h : Completes s (.next t)) : t.status.done = true := by
  obtain ⟨u, hu, ⟨status, -⟩ | ⟨e, -, status, -⟩⟩ := h <;> cases hu <;> rw [status]

/-- Settles O23: a completion sets DONE and leaves CTRL, and a write of STATUS, CMD or CTRL is what it is at its place. -/
theorem completionInterrupt : Obligations.CompletionInterrupt := by
  refine ⟨fun i s t ht => ?_, fun s v hmask => ?_, fun s v hidle => ?_, fun s v hidle => ?_⟩
  · have done : t.status.done = true := (ht ▸ exec_completes i s).done
    obtain ⟨ctrl, -⟩ := commandsKeepTheirOperands i s t ht
    exact ⟨by rw [State.irq, done, ctrl, Bool.and_true], done⟩
  · rw [busWrite_reg (r := .status) v (by decide)]
    simp [writePlace, State.irq, hmask]
  · rw [busWrite_reg (r := .cmd) v (by decide), writePlace, unlessBusy_idle hidle]
    simp [State.irq]
  · rw [busWrite_reg (r := .ctrl) v (by decide), writePlace, unlessBusy_idle hidle]
    exact ⟨rfl, fun done => by simp [State.irq, Ctrl.ofWord, done]⟩

/-! ### The handshake -/

theorem HandshakeOk.pendingOp_ne_none {s : State} (h : HandshakeOk s) (hbusy : s.status.busy = true) :
    s.pendingOp ≠ none := by
  obtain ⟨hpending, -⟩ := h
  rw [hbusy] at hpending
  exact Option.isSome_iff_ne_none.mp hpending.symm

theorem accept_handshakeOk (v : Word) (s : State) : HandshakeOk (accept v s) := by
  refine ⟨rfl, fun w hw => ?_, fun _ => rfl, fun _ => ⟨rfl, rfl⟩⟩
  cases hw
  exact ⟨rfl, rfl⟩

/-- A state in which nothing is pending has its handshake in order when ERR_CODE = 0 comes with ERR = 0 and ERR_INFO = 0. -/
theorem handshakeOk_of_idle {t : State} (hbusy : t.status.busy = false) (hpending : t.pendingOp = none)
    (hcode : t.status.errCode = 0 → t.status.err = false ∧ t.errInfo = 0) : HandshakeOk t := by
  refine ⟨by rw [hbusy, hpending, Option.isSome_none], fun v hv => ?_, fun busy => ?_, hcode⟩
  · rw [hpending] at hv
    cases hv
  · rw [hbusy] at busy
    cases busy

theorem resetBlock_handshakeOk (s : State) : HandshakeOk (resetBlock s) :=
  handshakeOk_powerUp s.cfg

/-- A completion without an error leaves the ERR and ERR_INFO of the pending command, which are 0 (R423, log entry 13). -/
theorem HandshakeOk.completedOk {s t : State} (h : HandshakeOk s) (hbusy : s.status.busy = true)
    (completed : CompletedOk s t) : HandshakeOk t := by
  obtain ⟨-, -, busyCode, noError⟩ := h
  obtain ⟨err, info⟩ := noError (busyCode hbusy)
  obtain ⟨status, errInfo, pending⟩ := completed
  refine handshakeOk_of_idle (by rw [status]) pending fun _ => ?_
  rw [status, errInfo]
  exact ⟨err, info⟩

/-- A completion with an error writes an ERR_CODE other than 0. -/
theorem handshakeOk_of_completedError {s t : State} {e : CmdError} (completed : CompletedError s t e.code.value e.info) :
    HandshakeOk t := by
  obtain ⟨status, -, pending⟩ := completed
  refine handshakeOk_of_idle (by rw [status]) pending fun hcode => ?_
  rw [status] at hcode
  exact absurd hcode e.code.value_ne_zero

/-! ### The host keeps the handshake -/

section

variable {s : State} (h : HandshakeOk s)
include h

/-- A STATUS write can only clear DONE, ERR and WBUSY. -/
theorem acknowledge_handshakeOk (v : Word) : HandshakeOk (acknowledge v s) := by
  obtain ⟨busy, pending, busyCode, noError⟩ := h
  refine ⟨busy, fun w hw => ?_, busyCode, fun hcode => ?_⟩
  · obtain ⟨done, lastOp⟩ := pending w hw
    exact ⟨by simp [done], lastOp⟩
  · obtain ⟨err, info⟩ := noError hcode
    exact ⟨by simp [err], info⟩

theorem busRead_handshakeOk (size : AccessSize) (off : Word) : HandshakeOk (busRead size off s).2 := by
  obtain ⟨-, hread⟩ | ⟨n, p, -, ⟨-, -, hread⟩ | ⟨-, hread⟩⟩ := busRead_cases size off s <;> rw [hread] <;> exact h

theorem writePlace_handshakeOk (n : Nat) (v : Word) (p : Place) : HandshakeOk (writePlace n v p s) := by
  cases hbusy : s.status.busy with
  | true =>
    obtain hwrite | hwrite | hwrite := writePlace_busy hbusy n v p <;> rw [hwrite]
    · exact acknowledge_handshakeOk h v
    · exact h
    · exact h
  | false =>
    obtain hwrite | hwrite | ⟨k, -, hwrite⟩ | hwrite | hwrite | hwrite := writePlace_idle hbusy n v p <;> rw [hwrite]
    case inr.inr.inr.inl => exact accept_handshakeOk v s
    case inr.inr.inr.inr.inl => exact acknowledge_handshakeOk h v
    all_goals exact h

theorem busWrite_handshakeOk (size : AccessSize) (off v : Word) : HandshakeOk (busWrite size off v s).2 := by
  obtain ⟨-, hwrite⟩ | ⟨n, p, -, hwrite⟩ := busWrite_cases size off v s <;> rw [hwrite]
  · exact h
  · exact writePlace_handshakeOk h n v p

theorem hostStep_handshakeOk : HandshakeOk (hostStep s) := by
  unfold hostStep
  split
  · exact h
  · next op _ =>
    cases op with
    | write size off v => exact busWrite_handshakeOk h size off _
    | read size off x => exact busRead_handshakeOk h size off
    | branchZero x mask target => exact h
    | branchNonZero x mask target => exact h

/-! ### The core keeps the handshake, and its step answers -/

variable (hbusy : s.status.busy = true)
include hbusy

/-- With a word pending the core completes it: it runs its command, or completes with BAD_CMD. -/
theorem coreStep_next_handshakeOk : ∃ t, coreStep s = .next t ∧ HandshakeOk t := by
  obtain ⟨hnone, -⟩ | ⟨v, i, -, -, hexec⟩ | ⟨v, e, -, -, hbad⟩ := coreStep_cases s
  · exact absurd hnone (h.pendingOp_ne_none hbusy)
  · obtain ⟨t, ht, completed | ⟨e, -, completed⟩⟩ := exec_completes i s
    · exact ⟨t, hexec.trans ht, h.completedOk hbusy completed⟩
    · exact ⟨t, hexec.trans ht, handshakeOk_of_completedError completed⟩
  · exact ⟨_, hbad, handshakeOk_of_completedError (s := s) (e := ⟨.badCmd, v⟩) ⟨rfl, rfl, rfl⟩⟩

end

/-- Every turn answers a next state with the handshake in order. -/
theorem step_next_handshakeOk {s : State} (h : HandshakeOk s) : ∃ t, step s = .next t ∧ HandshakeOk t := by
  obtain ⟨a, hstep⟩ := step_cases s
  have taken : HandshakeOk { s with agenda := a } := h
  obtain hhost | ⟨hbusy, hcore⟩ | ⟨-, hidle⟩ | hreset := hstep
  · exact ⟨_, hhost, hostStep_handshakeOk taken⟩
  · rw [hcore]
    exact coreStep_next_handshakeOk taken hbusy
  · exact ⟨_, hidle, taken⟩
  · exact ⟨_, hreset, resetBlock_handshakeOk _⟩

/-- Settles O26: the core has a pending word whenever it has a step. -/
theorem machineNeverStops : Obligations.MachineNeverStops := by
  intro s h
  obtain ⟨t, ht, -⟩ := step_next_handshakeOk h
  exact ⟨t, ht⟩

/-- Settles O27: accept, completion and reset write the handshake as a whole, and an acknowledgement only clears flags. -/
theorem stepKeepsHandshake : Obligations.StepKeepsHandshake := by
  intro s t h ht
  obtain ⟨u, hu, kept⟩ := step_next_handshakeOk h
  cases ht.symm.trans hu
  exact kept

end Sys2Proof.Machine
end

section
/-! SUPPORT. Reset with a command pending, the writes of a host that does not wait for it, and the commands that come before
what they need (70_reset_and_hazards.md R450, R452, R456, R460). -/

namespace Sys2Proof.Machine

open Sys2Proof

/-! ### Writes while BUSY = 1 (R460) -/

/-- A legal access below 0x0010_0000 is one of a word (20_memory.md R105). -/
theorem eq_word_of_legal {c : Config} {size : AccessSize} {n off : Nat} (hsize : size.bytes = some n)
    (hlegal : LegalAccess c n off) (hlow : off < 0x100000) : size = .word := by
  obtain ⟨-, hword, -⟩ := hlegal
  rw [hword hlow] at hsize
  cases size with
  | word => rfl
  | byte | half | illegal => cases hsize

/-- A legal access that begins in the range of IBUF reaches bytes of it. -/
theorem access_ibuf_of_legal {c : Config} {size : AccessSize} {n : Nat} {off : Word} (hwf : c.wf = true)
    (hsize : size.bytes = some n) (hlegal : LegalAccess c n off.toNat) (hlo : 0x100000 ≤ off.toNat)
    (hhi : off.toNat < 0x200000) : access c size off = some (n, .ibuf (off.toNat - 0x100000)) := by
  obtain ⟨hlow, -⟩ | ⟨-, -, hplace⟩ | ⟨hhigh, -⟩ := placeAt_of_legal hwf (accessSize_bytes_cases hsize) hlegal
  · omega
  · rw [access_of_bytes c hsize, hplace, Option.map_some]
  · omega

/-- Settles O6: the write of each of the four places is dropped, that of STATUS acknowledges, and no other place is
writable. -/
theorem writesWhileBusy : Obligations.WritesWhileBusy := by
  intro s size n off v hwf hbusy hsize hlegal
  have reg {r : Reg} (hreg : (off.toNat, r) ∈ registerMap) :
      busWrite size off v s = (⟨0, false⟩, writePlace 4 v (.reg r) s) := by
    obtain ⟨-, -, hlow⟩ := wordPlace_of_mem _ hreg
    rw [eq_word_of_legal hsize hlegal hlow, busWrite_reg v hreg]
  have dropped {m : Nat} {p : Place} {f : State → State}
      (hwrite : busWrite size off v s = (⟨0, false⟩, writePlace m v p s)) (hp : writePlace m v p = unlessBusy f) :
      busWrite size off v s = (⟨0, false⟩, dropWrite s) := by
    rw [hwrite, hp, unlessBusy_busy hbusy]
  refine ⟨?_, ?_, readOnlyPlacesIgnoreWrites s size n off v hwf hsize hlegal⟩
  · rintro (rfl | rfl | rfl | ⟨hlo, hhi⟩)
    · exact dropped (reg (r := .ctrl) (by decide)) rfl
    · exact dropped (reg (r := .cmd) (by decide)) rfl
    · exact dropped (reg (r := .srcLen) (by decide)) rfl
    · exact dropped (busWrite_of_access (access_ibuf_of_legal hwf hsize hlegal hlo hhi)) rfl
  · rintro rfl
    exact reg (r := .status) (by decide)

/-! ### Commands out of order (R456) -/

theorem encNsym_eq_zero {freq : Table Word 256} (h : ∀ b, freqAt freq b = 0) : encNsym freq = 0 := by
  rw [encNsym_eq_countP, List.countP_eq_zero]
  exact fun i _ => by simp [h]

/-- A completion with an error, of a body that changed nothing, keeps the tables, the output and the operands
(60_exceptions.md R423). -/
theorem completeError_keeps (s : State) (e : CmdError) : let t := completeError s e
    CompletedError s t e.code.value e.info ∧ t.freq = s.freq ∧ SameEncTree s t ∧ t.code = s.code ∧ SameDecoder s t ∧
      SameOutput s t ∧ SameOperands s t :=
  ⟨⟨rfl, rfl, rfl⟩, rfl, ⟨rfl, rfl, rfl⟩, rfl, ⟨rfl, rfl, rfl, rfl, rfl⟩, ⟨rfl, rfl, fun _ => rfl⟩,
    ⟨rfl, rfl, fun _ => rfl, rfl, rfl, rfl⟩⟩

/-- WALK's check of DEC_VALID comes after that of SRC_LEN and before any output (44_decoder.md R311). -/
theorem readPayload_noTree {s : State} (hfits : s.srcLen.toNat ≤ s.cfg.ibufBytes) (hinvalid : s.decValid = false) :
    s.readPayload = .error ⟨0, errorAt .noDecTree 0⟩ := by
  rw [State.readPayload, if_pos ((srcFits_iff s).mpr hfits), if_neg (Bool.eq_false_iff.mp hinvalid)]

/-- Settles O42: each command raises its error before its body has changed anything; WALK's error zeroes the results. -/
theorem outOfOrderCommandsReport : Obligations.OutOfOrderCommandsReport := by
  intro s
  refine ⟨fun noFreq => ?_, fun noTree => ?_, fun fits noDecTree => ?_⟩
  · exact ⟨_, exec_build_empty (encNsym_eq_zero noFreq), completeError_keeps s _⟩
  · exact ⟨_, exec_gencodes_noTree noTree, completeError_keeps s _⟩
  · obtain ⟨t, ht, completed, dst, bits, ⟨operands, freq, tree, code, decoder⟩, obuf⟩ :=
      exec_walk_of_error (readPayload_noTree fits noDecTree)
    exact ⟨t, ht, completed, dst, bits, obuf rfl, freq, tree, code, decoder, operands⟩

/-! ### Reset (R450, R452) -/

theorem step_reset {s : State} {rest : List Turn} (h : s.agenda = .reset :: rest) :
    step s = .next (resetBlock { s with agenda := rest }) := by
  rw [step, takeTurn_cons h, runTurn]

/-- Settles O19: the turn is reset's, whose state is that after power-up but for the buffers and what is not the block's. -/
theorem resetStepAbortsAndKeepsBuffers : Obligations.ResetStepAbortsAndKeepsBuffers :=
  fun _ _ hagenda => ⟨_, step_reset hagenda, fun _ => rfl, fun _ => rfl, rfl, rfl⟩

end Sys2Proof.Machine
end
